-- ==== Sys2Proof/Word.lean ====
section
/-! DEFINITION. The machine's value types (rule R80): IEEE 754 bit patterns, 16-bit samples, and the
exact value of a floating-point datum before it is rounded. -/

namespace Sys2Proof

/-- A `b64` bit pattern, IEEE 754 binary64 (R80). -/
abbrev B64 := BitVec 64

/-- A `b32` bit pattern, IEEE 754 binary32 (R80). -/
abbrev B32 := BitVec 32

/-- An `int16` buffer element, two's complement (R8, R40). -/
abbrev Sample := BitVec 16

/-- A host command word, format `H64` (R61). -/
abbrev CommandWord := BitVec 64

/-- A micro-operation word, format `U16` (R66). -/
abbrev UnitWord := BitVec 16

/-- An IEEE 754 binary interchange format, by the widths of its two fields (R80). -/
structure FloatFormat where
  expBits  : Nat
  fracBits : Nat
  deriving DecidableEq, Repr

/-- What a floating-point datum, or an operation's exact result before its one rounding, denotes:
`fin neg man exp` is the real number `± man * 2 ^ exp`, a zero when `man = 0` (with its sign). -/
inductive FVal where
  | nan
  | inf (neg : Bool)
  | fin (neg : Bool) (man : Nat) (exp : Int)
  deriving DecidableEq, Repr

end Sys2Proof
end

