-- ==== Sys2Proof/Config.lean ====
section
/-! DEFINITION. The parameters of rule R7. The plain values are the spec's own defaults, the `opaque`
constants are its draws: they have no body, so no proof can learn a value of them. -/

namespace Sys2Proof.Config

/-- `RATE0` of the instance that `State.reset` describes. The spec leaves it OPEN (D4): DESIGN CHOICE,
unsafe, log 1. -/
def rate0 : BitVec 32 := 48000#32

/-- `MAX_DELAY` of the instance that `State.reset` describes: R7's default (D10), log 2. -/
def maxDelay : Nat := 1024

/-- `P0_RESETS`, R7 (D24): a `PROCESS 0` on a never-reset decoder runs the implicit reset. -/
def p0Resets : Bool := true

/-- The bound R7 puts on `MAX_DELAY`. -/
def minMaxDelay : Nat := 480

/-- `NaNDraw` (R82): sign and payload of the binary64 quiet NaN of occurrence `t`. -/
opaque nanDraw64 : (t : Nat) → BitVec 52

/-- `NaNDraw` (R82): sign and payload of the binary32 quiet NaN of occurrence `t`. -/
opaque nanDraw32 : (t : Nat) → BitVec 23

/-- `NaNDraw` (R89): the `int16` that `SAT16` gives for a NaN at occurrence `t`. -/
opaque satDraw : (t : Nat) → Sample

/-- Sign and payload of a NaN that arises inside `CoefGen` at its operation `j`: a function of the
operands, because `CoefGen` depends on nothing else (R104). -/
opaque coefNaN : (highPass : Bool) → (fc fs : B64) → (j : Nat) → BitVec 52

/-- The next cursor where `DelayLen = 0`: the spec gives `mod 0` no meaning (R90 item 3, R171), log 9. -/
opaque freeCursor : (t : Nat) → Nat

/-- `Tan64` of an operand whose tangent is no real number (an infinity or a NaN): R91 states none. -/
opaque tanFree : B64 → B64

/-- `Pow64` of operands whose power is no real number: R91 states none. -/
opaque powFree : B64 → B64 → B64

/-- Sign and payload of the NaN that is `Sqrt64` of a negative number or of a NaN (R91, R82). -/
opaque sqrtNaN : B64 → BitVec 52

end Sys2Proof.Config
end

