-- ==== Sys2Proof/Machine/Float.lean ====
section
/-! DEFINITION. The floating-point primitives of 40_numeric_primitives.md: each is computed exactly on
`FVal` and rounded once, to nearest with ties to even (R81, R84). A primitive that can give a NaN takes
the NaN it gives as its first argument, since R82 makes that NaN a draw. -/

namespace Sys2Proof.Machine

/-- binary64 (R80). -/
def b64Format : FloatFormat := ⟨11, 52⟩

/-- binary32 (R80). -/
def b32Format : FloatFormat := ⟨8, 23⟩

/-- The exponent of a subnormal's least significant bit: `1 - bias - fracBits`. -/
def minExp (F : FloatFormat) : Int := 2 - (2 ^ (F.expBits - 1) : Nat) - F.fracBits

/-- The bits of `+inf`: every exponent bit set, no fraction bit. -/
def infBits (F : FloatFormat) : Nat := (2 ^ F.expBits - 1) * 2 ^ F.fracBits

/-- The weight of the sign bit. -/
def signWeight (F : FloatFormat) : Nat := 2 ^ (F.expBits + F.fracBits)

/-- What the bit pattern `w` denotes (R80; subnormals are exact, R83). -/
def unpack (F : FloatFormat) (w : Nat) : FVal :=
  let frac := w % 2 ^ F.fracBits
  let ex := w / 2 ^ F.fracBits % 2 ^ F.expBits
  let neg := w / signWeight F % 2 == 1
  if ex = 2 ^ F.expBits - 1 then (if frac = 0 then .inf neg else .nan)
  else if ex = 0 then .fin neg frac (minExp F)
  else .fin neg (frac + 2 ^ F.fracBits) (minExp F + ex - 1)

/-- `m / 2 ^ d` rounded to the nearest integer, ties to even (`d <= 0` is a shift up, exact). -/
def roundShift (m : Nat) (d : Int) : Nat :=
  if d ≤ 0 then m * 2 ^ (-d).toNat
  else
    let hi := m / 2 ^ d.toNat
    let lo := m % 2 ^ d.toNat
    if 2 ^ d.toNat < 2 * lo ∨ (2 * lo = 2 ^ d.toNat ∧ hi % 2 = 1) then hi + 1 else hi

/-- The exponent of the least significant bit of `m * 2 ^ e` once rounded to the format. -/
def ulpExp (F : FloatFormat) (m : Nat) (e : Int) : Int :=
  max (e + m.log2 - F.fracBits) (minExp F)

/-- The bits, less the sign, of `m * 2 ^ e` rounded to nearest even; past the largest finite value,
the bits of an infinity (R81). -/
def roundMag (F : FloatFormat) (m : Nat) (e : Int) : Nat :=
  if m = 0 then 0
  else
    let q := ulpExp F m e
    min ((q - minExp F).toNat * 2 ^ F.fracBits + roundShift m (q - e)) (infBits F)

/-- The sign bit in place. -/
def signBits (F : FloatFormat) (neg : Bool) : Nat := if neg then signWeight F else 0

/-- The one rounding of a primitive: the exact result as a bit pattern, `nan` where it is a NaN. -/
def deliver (F : FloatFormat) (nan : Nat) : FVal → Nat
  | .nan => nan
  | .inf neg => signBits F neg + infBits F
  | .fin neg m e => signBits F neg + roundMag F m e

/-- `± m * 2 ^ e` as a signed multiple of `2 ^ e0`, for `e0 <= e`. -/
def scaled (neg : Bool) (m : Nat) (e e0 : Int) : Int :=
  if neg then -(m * 2 ^ (e - e0).toNat : Nat) else (m * 2 ^ (e - e0).toNat : Nat)

/-- Exact negation: the sign alone changes. -/
def fvalNeg : FVal → FVal
  | .nan => .nan
  | .inf n => .inf (!n)
  | .fin n m e => .fin (!n) m e

/-- Exact sum (R81). A sum that is zero is `-0.0` only when both operands carry a minus sign. -/
def fvalAdd : FVal → FVal → FVal
  | .nan, _ => .nan
  | _, .nan => .nan
  | .inf a, .inf b => if a = b then .inf a else .nan
  | .inf a, .fin _ _ _ => .inf a
  | .fin _ _ _, .inf b => .inf b
  | .fin a m e, .fin b n g =>
    let e0 := min e g
    let v := scaled a m e e0 + scaled b n g e0
    if v = 0 then .fin (a && b) 0 e0 else .fin (decide (v < 0)) v.natAbs e0

/-- Exact product (R81). -/
def fvalMul : FVal → FVal → FVal
  | .nan, _ => .nan
  | _, .nan => .nan
  | .inf a, .inf b => .inf (a != b)
  | .inf a, .fin b n _ => if n = 0 then .nan else .inf (a != b)
  | .fin a m _, .inf b => if m = 0 then .nan else .inf (a != b)
  | .fin a m e, .fin b n g => .fin (a != b) (m * n) (e + g)

/-- How far the dividend is shifted up so that the quotient has more bits than any format keeps. -/
def divShift (m n : Nat) : Nat := 66 + n.log2 - m.log2

/-- Quotient (R81): exact, or cut after at least 66 bits with a last bit that records an inexact tail,
which rounds the same way. -/
def fvalDiv : FVal → FVal → FVal
  | .nan, _ => .nan
  | _, .nan => .nan
  | .inf _, .inf _ => .nan
  | .inf a, .fin b _ _ => .inf (a != b)
  | .fin a _ _, .inf b => .fin (a != b) 0 0
  | .fin a m e, .fin b n g =>
    if n = 0 then (if m = 0 then .nan else .inf (a != b))
    else
      let k := divShift m n
      let tail := if m * 2 ^ k % n = 0 then 0 else 1
      .fin (a != b) (2 * (m * 2 ^ k / n) + tail) (e - g - k - 1)

/-- `a > b` as real numbers, false on a NaN; zeros are equal, an infinity is beyond every finite value (R92). -/
def fvalGt : FVal → FVal → Bool
  | .nan, _ => false
  | _, .nan => false
  | .inf a, .inf b => !a && b
  | .inf a, .fin _ _ _ => !a
  | .fin _ _ _, .inf b => b
  | .fin a m e, .fin b n g => decide (scaled b n g (min e g) < scaled a m e (min e g))

/-- A binary64 quiet NaN with drawn sign (top bit of `d`) and payload (R82). -/
def quietNaN64 (d : BitVec 52) : B64 :=
  d.extractLsb' 51 1 ++ 0xFFF#12 ++ d.extractLsb' 0 51

/-- A binary32 quiet NaN with drawn sign and payload (R82). -/
def quietNaN32 (d : BitVec 23) : B32 :=
  d.extractLsb' 22 1 ++ 0x1FF#9 ++ d.extractLsb' 0 22

/-- The NaN of occurrence `t`. -/
def nan64 (t : Nat) : B64 := quietNaN64 (Config.nanDraw64 t)

/-- The NaN of occurrence `t`. -/
def nan32 (t : Nat) : B32 := quietNaN32 (Config.nanDraw32 t)

/-- What a `b64` denotes. -/
def fval64 (a : B64) : FVal := unpack b64Format a.toNat

/-- What a `b32` denotes. -/
def fval32 (a : B32) : FVal := unpack b32Format a.toNat

/-- An exact value rounded to `b64`. -/
def round64 (nan : B64) (v : FVal) : B64 := BitVec.ofNat 64 (deliver b64Format nan.toNat v)

/-- An exact value rounded to `b32`. -/
def round32 (nan : B32) (v : FVal) : B32 := BitVec.ofNat 32 (deliver b32Format nan.toNat v)

/-- `fadd64` (R81). -/
def fadd64 (nan a b : B64) : B64 := round64 nan (fvalAdd (fval64 a) (fval64 b))

/-- `fsub64` (R81): the sum with the second operand's sign inverted. -/
def fsub64 (nan a b : B64) : B64 := round64 nan (fvalAdd (fval64 a) (fvalNeg (fval64 b)))

/-- `fmul64` (R81). -/
def fmul64 (nan a b : B64) : B64 := round64 nan (fvalMul (fval64 a) (fval64 b))

/-- `fdiv64` (R81). -/
def fdiv64 (nan a b : B64) : B64 := round64 nan (fvalDiv (fval64 a) (fval64 b))

/-- `fneg64` (R81): the sign bit inverted, NaNs included; it never rounds. -/
def fneg64 (a : B64) : B64 := a ^^^ 0x8000000000000000#64

/-- `fadd32` (R81). -/
def fadd32 (nan a b : B32) : B32 := round32 nan (fvalAdd (fval32 a) (fval32 b))

/-- `fsub32` (R81). -/
def fsub32 (nan a b : B32) : B32 := round32 nan (fvalAdd (fval32 a) (fvalNeg (fval32 b)))

/-- `fmul32` (R81). -/
def fmul32 (nan a b : B32) : B32 := round32 nan (fvalMul (fval32 a) (fval32 b))

/-- `fgt64` (R92). -/
def fgt64 (a b : B64) : Bool := fvalGt (fval64 a) (fval64 b)

/-- `flt64` (R92). -/
def flt64 (a b : B64) : Bool := fgt64 b a

/-- The exact value of an integer. -/
def fvalOfInt (v : Int) : FVal := .fin (decide (v < 0)) v.natAbs 0

/-- `f32_of_i16` (R85): exact. -/
def f32OfI16 (v : Sample) : B32 := round32 0 (fvalOfInt v.toInt)

/-- `f64_of_i32` (R86): exact. -/
def f64OfI32 (v : BitVec 32) : B64 := round64 0 (fvalOfInt v.toInt)

/-- `f64_of_f32` (R86): exact; a NaN gives the drawn NaN. -/
def f64OfF32 (nan : B64) (v : B32) : B64 := round64 nan (fval32 v)

/-- `f32_of_f64` (R87): the nearest `b32`; a NaN gives the drawn NaN. -/
def f32OfF64 (nan : B32) (v : B64) : B32 := round32 nan (fval64 v)

/-- The integer part of `m * 2 ^ e`, toward zero. -/
def truncMag (m : Nat) (e : Int) : Nat :=
  if e < 0 then m / 2 ^ (-e).toNat else m * 2 ^ e.toNat

/-- `SAT16` (R89): clamp to the `int16` range, then truncate toward zero; `draw` for a NaN. -/
def sat16 (draw : Sample) (v : B32) : Sample :=
  match fval32 v with
  | .nan => draw
  | .inf neg => if neg then BitVec.ofInt 16 (-32768) else BitVec.ofInt 16 32767
  | .fin neg m e =>
    let t := truncMag m e
    if neg then BitVec.ofInt 16 (-(min t 32768 : Nat)) else BitVec.ofInt 16 (min t 32767 : Nat)

end Sys2Proof.Machine
end

