-- ==== Sys2Proof/Machine/Constants.lean ====
section
/-! DEFINITION. The machine's fixed constants (R27). -/

namespace Sys2Proof.Machine

/-- `b64` 1.0. -/
def one64 : B64 := 0x3FF0000000000000
/-- `b64` 2.0. -/
def two64 : B64 := 0x4000000000000000
/-- `b64` 4.0. -/
def four64 : B64 := 0x4010000000000000
/-- `b64` 6.0. -/
def six64 : B64 := 0x4018000000000000
/-- `b64` 8.0. -/
def eight64 : B64 := 0x4020000000000000
/-- `b64` -4.0. -/
def minusFour64 : B64 := 0xC010000000000000

/-- `PI64` (R7, R91). -/
def pi64 : B64 := 0x400921FB54442D18

/-- The low-pass clamp ratio, the `b64` nearest 0.475 (R102). -/
def clampRatio : B64 := 0x3FDE666666666666

/-- `CUTOFF[0..3]`: 70, 20000, 100 and 120 Hz (R27). -/
def cutoff : Vector B64 4 :=
  #v[0x4051800000000000, 0x40D3880000000000, 0x4059000000000000, 0x405E000000000000]

/-- `DEPTH` = 4.0 (R123). -/
def depth : B64 := 0x4010000000000000
/-- `DELAY_MS` = 100.0 (R123). -/
def delayMs : B64 := 0x4059000000000000
/-- `SWEEP_HZ`, the `b64` nearest 0.1 (R123). -/
def sweepHz : B64 := 0x3FB999999999999A

/-- `KCENTER` (R93). -/
def kCenter : B32 := 0x3EB504F3
/-- `KMAIN` (R93). -/
def kMain : B32 := 0x3EDF2CF6
/-- `KCROSS` (R93). -/
def kCross : B32 := 0x3E7AD3E7
/-- `HALF` (R93). -/
def half32 : B32 := 0x3F000000

end Sys2Proof.Machine
end

