-- ==== Sys2Proof/Machine/State.lean ====
section
/-! DEFINITION. The state of one decoder instance (R10), the host's buffers (R40), the two ports' pending
words, and why a step may stop. Plain data throughout. -/

namespace Sys2Proof.Machine

/-- Index and element pairs, strictly rising in the index (Machine/Memory.lean). -/
abbrev Memory (α : Type) := List (Nat × α)

/-- One coefficient set `K[k]`: `A[0..4]`, `B[1..4]` (R16). -/
@[ext]
structure CoefSet where
  a0 : B64
  a1 : B64
  a2 : B64
  a3 : B64
  a4 : B64
  b1 : B64
  b2 : B64
  b3 : B64
  b4 : B64
  deriving DecidableEq, Repr

/-- One filter state `F[f]`: `X[1..4]`, `Y[1..4]` (R17). -/
@[ext]
structure FilterState where
  x1 : B64
  x2 : B64
  x3 : B64
  x4 : B64
  y1 : B64
  y2 : B64
  y3 : B64
  y4 : B64
  deriving DecidableEq, Repr

/-- One phase-shift state `P[p]` (R19, R20). -/
@[ext]
structure PhaseState where
  lx1 : B64
  lx2 : B64
  lx3 : B64
  lx4 : B64
  ly1 : B64
  ly2 : B64
  ly3 : B64
  ly4 : B64
  wp : B64
  minWp : B64
  maxWp : B64
  sweepUp : B64
  sweep : B64
  init : Bool
  deriving DecidableEq, Repr

/-- One delay line `D[d]` (R21): the slots that do not hold `+0.0`, and the cursor. -/
@[ext]
structure DelayLine where
  buf : Memory B32
  cursor : Nat
  deriving DecidableEq, Repr

/-- The response to a host command (R173). -/
@[ext]
structure Response where
  err : Bool
  code : BitVec 3
  status : BitVec 5
  deriving DecidableEq, Repr

/-- LP or HP (R7). -/
inductive FilterKind where
  | lp
  | hp
  deriving DecidableEq, Repr

/-- A floating-point format of R80, as a value of `PS_FMT` or `MIX_FMT` (R7). -/
inductive Fmt where
  /-- binary32 -/
  | b32
  /-- binary64 -/
  | b64
  deriving DecidableEq, Repr

/-- The parameters of an instance (R7); no step changes them. `NaNDraw` is the free values of Config, and
`PI64` the constant D20 decides. `CoefGen`, `Tan64`, `Pow64` and `Sqrt64` are total functions of finitely many
operands each, so a table of the operands where one differs from R7's default says any of them as plain data
(log 21). The field defaults are R7's. -/
@[ext]
structure Params where
  /-- `RATE0` (D4): no default. -/
  rate0 : BitVec 32
  /-- `MAX_DELAY` (D10). -/
  maxDelay : Nat := Config.maxDelay
  /-- `P0_RESETS` (D24). -/
  p0Resets : Bool := Config.p0Resets
  /-- Where `CoefGen` differs from R106's default (D21). -/
  coefTable : List ((FilterKind × B64 × B64) × CoefSet) := []
  /-- Where `Tan64` differs from the default (D33). -/
  tanTable : List (B64 × B64) := []
  /-- Where `Pow64` differs from the default (D33). -/
  powTable : List ((B64 × B64) × B64) := []
  /-- Where `Sqrt64` differs from the default (D33). -/
  sqrtTable : List (B64 × B64) := []
  /-- `PS_FMT` (D17). -/
  psFmt : Fmt := .b64
  /-- `MIX_FMT` (D16). -/
  mixFmt : Fmt := .b32
  deriving DecidableEq, Repr

/-- What the host does between commands (R6, R73, R190). -/
inductive HostEvent where
  /-- A word on the command port. -/
  | command (w : CommandWord)
  /-- `FILL IN, vals`: the host supplies an input buffer. -/
  | fillIn (vals : List Sample)
  /-- The host supplies an output buffer of `size` writable elements. -/
  | provideOut (size : Nat)
  /-- Hardware reset of the instance (R190). -/
  | hardwareReset
  deriving DecidableEq, Repr

@[ext]
structure State where
  /-- The instance's parameters (R7). -/
  params : Params
  /-- `SampleRate`, signed (R11). -/
  sampleRate : BitVec 32
  /-- `Initialized` (R12). -/
  initialized : Bool
  /-- `RateDirty` (R13). -/
  rateDirty : Bool
  /-- `STATUS` (R14). -/
  status : BitVec 5
  /-- `DelayLen` (R15). -/
  delayLen : Nat
  /-- `K[0..3]` (R16). -/
  k : Vector CoefSet 4
  /-- `F[0..6]` (R17). -/
  f : Vector FilterState 7
  /-- `P[0..3]` (R19). -/
  p : Vector PhaseState 4
  /-- `D[0..1]` (R21). -/
  d : Vector DelayLine 2
  /-- `IN` (R40): the elements the host has supplied. -/
  inBuf : Memory Sample
  /-- `OUT` (R40): the elements written. -/
  outBuf : Memory Sample
  /-- How many elements of `OUT` are writable (R47). -/
  outSize : Nat
  /-- `cpc` (R25). -/
  cpc : Nat
  /-- `FrameIdx` (R25). -/
  frameIdx : Nat
  /-- The response of the last command, if one has been issued (R173). -/
  response : Option Response
  /-- `u_in` (R66). -/
  uIn : B32
  /-- `u_out` (R66). -/
  uOut : B32
  /-- Micro-operation words waiting on the unit bus (R66); empty between commands. -/
  unitBus : List UnitWord
  /-- What the host will do next, in order (R6, R25). -/
  port : List HostEvent
  /-- The model's own: the occurrence number of the next draw (R82). -/
  draws : Nat
  deriving DecidableEq, Repr

/-- Why a step faults. -/
inductive Fault where
  /-- Raised by DL.PUSH, and by PROCESS before its first frame, when a cursor names no slot of its delay
  array or `DelayLen` exceeds `MAX_DELAY` (R15, R21). Safe: no reachable state is such (R22). -/
  | delaySlotAbsent
  deriving DecidableEq, Repr

/-- Why a step is refused. -/
inductive Refusal where
  /-- An instruction with no meaning yet, by mnemonic: raised by `exec` only. Safe. No arm raises it. -/
  | notModelled (mnemonic : String)
  /-- Raised by the fetch for a reserved `U16` word, and by a micro-operation whose index is out of range,
  which no word decodes to: R70 has the model refuse these by name. Safe. -/
  | reservedMicroOp
  /-- Raised by PROCESS when `IN` or `OUT` is shorter than the count needs: R47 and U2 make no claim of
  such a run and have the model refuse it. Safe. -/
  | bufferContract
  deriving DecidableEq, Repr

/-- All nine coefficients `+0.0`. -/
def CoefSet.zero : CoefSet := ⟨0#64, 0#64, 0#64, 0#64, 0#64, 0#64, 0#64, 0#64, 0#64⟩

/-- All eight history registers `+0.0`. -/
def FilterState.zero : FilterState := ⟨0#64, 0#64, 0#64, 0#64, 0#64, 0#64, 0#64, 0#64⟩

/-- All thirteen registers `+0.0`, `Init = 0`. -/
def PhaseState.zero : PhaseState :=
  ⟨0#64, 0#64, 0#64, 0#64, 0#64, 0#64, 0#64, 0#64, 0#64, 0#64, 0#64, 0#64, 0#64, false⟩

/-- Every slot `+0.0`, cursor 0. -/
def DelayLine.zero : DelayLine := ⟨[], 0⟩

/-- The state right after hardware reset of an instance with parameters `q` (R28, R190), the host having
supplied nothing. R28 leaves `DelayLen`, `K`, `F`, `P` and `D` unspecified: they are zero here (DESIGN
CHOICE, log 3), and so are the bus wires and counters no rule gives a value (log 4). -/
def State.afterHardwareReset (q : Params) : State where
  params := q
  sampleRate := q.rate0
  initialized := false
  rateDirty := false
  status := 0#5
  delayLen := 0
  k := Vector.replicate 4 CoefSet.zero
  f := Vector.replicate 7 FilterState.zero
  p := Vector.replicate 4 PhaseState.zero
  d := Vector.replicate 2 DelayLine.zero
  inBuf := []
  outBuf := []
  outSize := 0
  cpc := 0
  frameIdx := 0
  response := none
  uIn := 0#32
  uOut := 0#32
  unitBus := []
  port := []
  draws := 0

/-- The machine right after reset: the instance of the default parameters (log 1, log 2). -/
def State.reset : State :=
  State.afterHardwareReset { rate0 := Config.rate0 }

end Sys2Proof.Machine
end

