-- ==== Sys2Proof/Machine/Elementary.lean ====
section
/-! DEFINITION. `Sqrt64`, `Tan64` and `Pow64` (R91): R7's default, the exact real result rounded to nearest,
ties to even, except where the instance's own function differs. The square root is exact integer
arithmetic. Tangent and power are enclosed between two fixed-point bounds, and the working precision rises
until both bounds round to the same `b64` (log 5 says what is not proved of them). All recursion is structural. -/

namespace Sys2Proof.Machine

/-! ### Square root -/

/-- The integer square root of `n`, one bit of the result at a time. -/
def isqrtFrom (n : Nat) : (bits root : Nat) → Nat
  | 0, r => r
  | b + 1, r => if (r + 2 ^ b) * (r + 2 ^ b) ≤ n then isqrtFrom n b (r + 2 ^ b) else isqrtFrom n b r

/-- Square root of `m * 2 ^ e`, cut after at least 66 bits, the last bit recording an inexact tail. -/
def fvalSqrt (m : Nat) (e : Int) : FVal :=
  let k0 := 134 - m.log2
  let k := if (e - k0) % 2 = 0 then k0 else k0 + 1
  let n := m * 2 ^ k
  let r := isqrtFrom n 70 0
  .fin false (2 * r + if r * r = n then 0 else 1) ((e - k) / 2 - 1)

/-- The default `Sqrt64` (R91): the IEEE 754 square root; that of a zero is the operand (PRESUMED, log 5), that of a
negative number or a NaN a quiet NaN with drawn bits (DESIGN CHOICE, log 5). -/
def sqrtDefault (x : B64) : B64 :=
  match fval64 x with
  | .nan => quietNaN64 (Config.sqrtNaN x)
  | .inf neg => if neg then quietNaN64 (Config.sqrtNaN x) else x
  | .fin neg m e =>
    if m = 0 then x
    else if neg then quietNaN64 (Config.sqrtNaN x)
    else round64 0 (fvalSqrt m e)

/-! ### Fixed-point series, `w` fraction bits -/

/-- Working precisions, beyond the bits the operand itself needs. -/
def precisions : List Nat := [128, 256, 512]

/-- `p - p * z2 / 3 + p * z2 ^ 2 / 5 - …`: the arctangent series from its term `1 / k`. -/
def atanSeries (k2 : Nat) : (fuel k pow : Nat) → Nat
  | 0, _, _ => 0
  | fuel + 1, k, p => if p = 0 then 0 else p / k - atanSeries k2 fuel (k + 2) (p / k2)

/-- pi, by Machin's formula. -/
def piFixed (w : Nat) : Nat :=
  4 * (4 * atanSeries 25 w 1 (2 ^ w / 5) - atanSeries 57121 w 1 (2 ^ w / 239))

/-- `term - term * r2 / (k (k + 1)) + …`: the alternating series of sine (from `k = 2`) and cosine (`k = 1`). -/
def trigSeries (w r2 : Nat) : (fuel k term : Nat) → Nat
  | 0, _, _ => 0
  | fuel + 1, k, t => if t = 0 then 0 else t - trigSeries w r2 fuel (k + 2) (t * r2 / 2 ^ w / (k * (k + 1)))

/-- `term + term * r / k + …`: the exponential series. -/
def expSeries (w r : Nat) : (fuel k term : Nat) → Nat
  | 0, _, _ => 0
  | fuel + 1, k, t => if t = 0 then 0 else t + expSeries w r fuel (k + 1) (t * r / 2 ^ w / k)

/-- `p + p * z2 / 3 + p * z2 ^ 2 / 5 + …`: the inverse hyperbolic tangent series. -/
def atanhSeries (w z2 : Nat) : (fuel k pow : Nat) → Nat
  | 0, _, _ => 0
  | fuel + 1, k, p => if p = 0 then 0 else p / k + atanhSeries w z2 fuel (k + 2) (p * z2 / 2 ^ w)

/-- `ln ((1 + z) / (1 - z))`. -/
def lnOfRatio (w z : Nat) : Nat := 2 * atanhSeries w (z * z / 2 ^ w) w 1 z

/-- `ln 2`. -/
def ln2Fixed (w : Nat) : Nat := lnOfRatio w (2 ^ w / 3)

/-! ### Tangent -/

/-- More than the error of every fixed-point quantity below, in units of its last place. -/
def trigError : Nat := 2 ^ 40

/-- `|tan x|` for `x = m * 2 ^ e > 0` as a fraction, and whether the tangent is negative. -/
def tanFraction (extra m : Nat) (e : Int) : Bool × Nat × Nat :=
  let w := extra + (-e).toNat
  let guard := m.log2 + e.toNat + 4
  let x := m * 2 ^ (e + w).toNat
  let halfPi := piFixed (w + guard) / 2
  let n := x * 2 ^ guard / halfPi
  let r := x * 2 ^ guard % halfPi / 2 ^ guard
  let r2 := r * r / 2 ^ w
  let s := trigSeries w r2 w 2 r
  let c := trigSeries w r2 w 1 (2 ^ w)
  if n % 2 = 0 then (false, s, c) else (true, c, s)

/-- `a / b` rounded to `b64`. -/
def roundRatio (neg : Bool) (a b : Nat) : B64 := round64 0 (fvalDiv (.fin neg a 0) (.fin false b 0))

/-- The first precision at which both ends of the enclosure round alike decides. -/
def tanSearch (neg : Bool) (m : Nat) (e : Int) : List Nat → B64
  | [] => let (flip, a, b) := tanFraction 1024 m e; roundRatio (neg != flip) a b
  | p :: ps =>
    let (flip, a, b) := tanFraction p m e
    let lo := roundRatio (neg != flip) (a - trigError) (b + trigError)
    let hi := roundRatio (neg != flip) (a + trigError) (b - trigError)
    if trigError < a ∧ trigError < b ∧ lo = hi then lo else tanSearch neg m e ps

/-- The default `Tan64` (R91): correctly rounded; where the tangent is no real number, a free value of the
operand. R91 gives the tangent of a zero the value zero and leaves its sign open: it is the operand's, so that
`Tan64(-0.0)` is `-0.0` (DESIGN CHOICE, unsafe, log 5). -/
def tanDefault (x : B64) : B64 :=
  match fval64 x with
  | .nan => Config.tanFree x
  | .inf _ => Config.tanFree x
  | .fin neg m e => if m = 0 then x else tanSearch neg m e precisions

/-! ### Power -/

/-- More than the error of `exp` below, in units of its last place. -/
def powError : Nat := 2 ^ 110

/-- `ln (m * 2 ^ e)` for `m > 0`. -/
def lnFixed (w m : Nat) (e : Int) : Int :=
  let l := m.log2
  let f := if l ≤ w then m * 2 ^ (w - l) else m / 2 ^ (l - w)
  lnOfRatio w ((f - 2 ^ w) * 2 ^ w / (f + 2 ^ w)) + (e + l) * ln2Fixed w

/-- `t * 2 ^ e`, rounded down. -/
def shiftInt (t e : Int) : Int := if e < 0 then t / (2 ^ (-e).toNat : Nat) else t * (2 ^ e.toNat : Nat)

/-- `x ^ y = a * 2 ^ (b - w)` with `2 ^ w <= a < 2 ^ (w + 1)`; `b` is kept within ±3000, past which every
result is an infinity or a zero. -/
def powParts (w m : Nat) (e : Int) (ny : Bool) (my : Nat) (ey : Int) : Nat × Int :=
  let t := shiftInt (lnFixed w m e * (if ny then -(my : Int) else my)) ey
  let l2 : Int := ln2Fixed w
  let b := t / l2
  (expSeries w (t % l2).toNat w 1 (2 ^ w), max (-3000) (min 3000 b))

/-- The first precision at which both ends of the enclosure round alike decides; if none does, the result
is a tie, and it is rounded as one. -/
def powSearch (neg : Bool) (m : Nat) (e : Int) (ny : Bool) (my : Nat) (ey : Int) : List Nat → B64
  | [] =>
    let (a, b) := powParts 640 m e ny my ey
    round64 0 (.fin neg ((a + 2 ^ 120) / 2 ^ 121 * 2 ^ 121) (b - 640))
  | p :: ps =>
    let w := p + 128
    let (a, b) := powParts w m e ny my ey
    let lo := round64 0 (.fin neg (a - powError) (b - w))
    let hi := round64 0 (.fin neg (a + powError) (b - w))
    if lo = hi then lo else powSearch neg m e ny my ey ps

/-- Whether `m * 2 ^ e` is an integer. -/
def isInteger (m : Nat) (e : Int) : Bool := decide (0 ≤ e) || m % 2 ^ (-e).toNat == 0

/-- Whether `m * 2 ^ e` is an odd integer. -/
def isOddInteger (m : Nat) (e : Int) : Bool := isInteger m e && truncMag m e % 2 == 1

/-- The default `Pow64` (R91): correctly rounded where `x ^ y` is a real number (`x > 0`, or `x < 0` with an integer
`y`, or `x = 0` with `y > 0`), else a free value of the operands. The sign of a zero result is the one of
`(-1) ^ y` for a negative base, and of a zero base as in IEEE 754 (PRESUMED, log 5). -/
def powDefault (x y : B64) : B64 :=
  match fval64 x, fval64 y with
  | .fin nx mx ex, .fin ny my ey =>
    if mx = 0 then
      if ny || my == 0 then Config.powFree x y else round64 0 (.fin (nx && isOddInteger my ey) 0 0)
    else if nx && !isInteger my ey then Config.powFree x y
    else powSearch (nx && isOddInteger my ey) mx ex ny my ey precisions
  | _, _ => Config.powFree x y

/-! ### The functions of an instance -/

/-- `Tan64` of the instance `q` (R7, R91). -/
def tan64 (q : Params) (x : B64) : B64 := (q.tanTable.lookup x).getD (tanDefault x)

/-- `Pow64` of the instance `q` (R7, R91). -/
def pow64 (q : Params) (x y : B64) : B64 := (q.powTable.lookup (x, y)).getD (powDefault x y)

/-- `Sqrt64` of the instance `q` (R7, R91). -/
def sqrt64 (q : Params) (x : B64) : B64 := (q.sqrtTable.lookup x).getD (sqrtDefault x)

end Sys2Proof.Machine
end

