-- ==== Sys2Proof/Machine/CoefGen.lean ====
section
/-! DEFINITION. `CoefGen`, a parameter of the instance (R104), and its default: the LR4 bilinear formulas of
R105 in the evaluation order of R106. A function of the kind, the cutoff and the rate alone. -/

namespace Sys2Proof.Machine

/-- The default `CoefGen(kind, fc, fs)` (R106), on the instance's `Tan64` and `Sqrt64`. -/
def coefDefault (q : Params) (kind : FilterKind) (fc fs : B64) : CoefSet :=
  let nan (j : Nat) : B64 := quietNaN64 (Config.coefNaN (kind == .hp) fc fs j)
  let wc := fmul64 (nan 0) (fmul64 (nan 1) two64 pi64) fc
  let wc2 := fmul64 (nan 2) wc wc
  let wc3 := fmul64 (nan 3) wc2 wc
  let wc4 := fmul64 (nan 4) wc2 wc2
  let k := fdiv64 (nan 5) wc (tan64 q (fdiv64 (nan 6) (fmul64 (nan 7) pi64 fc) fs))
  let k2 := fmul64 (nan 8) k k
  let k3 := fmul64 (nan 9) k2 k
  let k4 := fmul64 (nan 10) k2 k2
  let s2 := sqrt64 q two64
  let t1 := fmul64 (nan 11) (fmul64 (nan 12) s2 wc3) k
  let t2 := fmul64 (nan 13) (fmul64 (nan 14) s2 wc) k3
  let m := fmul64 (nan 15) (fmul64 (nan 16) four64 wc2) k2
  let twoT1 := fmul64 (nan 17) two64 t1
  let twoT2 := fmul64 (nan 18) two64 t2
  let den :=
    fadd64 (nan 19) (fadd64 (nan 20) (fadd64 (nan 21) (fadd64 (nan 22) m twoT1) k4) twoT2) wc4
  let b1 := fdiv64 (nan 23)
    (fmul64 (nan 24) four64 (fsub64 (nan 25) (fsub64 (nan 26) (fadd64 (nan 27) wc4 t1) k4) t2)) den
  let b2 := fdiv64 (nan 28)
    (fadd64 (nan 29)
      (fsub64 (nan 30) (fmul64 (nan 31) six64 wc4) (fmul64 (nan 32) (fmul64 (nan 33) eight64 wc2) k2))
      (fmul64 (nan 34) six64 k4)) den
  let b3 := fdiv64 (nan 35)
    (fmul64 (nan 36) four64 (fsub64 (nan 37) (fadd64 (nan 38) (fsub64 (nan 39) wc4 t1) t2) k4)) den
  let b4 := fdiv64 (nan 40)
    (fadd64 (nan 41) (fsub64 (nan 42) (fadd64 (nan 43) (fsub64 (nan 44) k4 twoT1) wc4) twoT2) m) den
  let top := match kind with
    | .lp => wc4
    | .hp => k4
  let a0 := fdiv64 (nan 45) top den
  let a1 := fdiv64 (nan 46) (fmul64 (nan 47) (match kind with | .lp => four64 | .hp => minusFour64) top) den
  let a2 := fdiv64 (nan 48) (fmul64 (nan 49) six64 top) den
  ⟨a0, a1, a2, a1, a0, b1, b2, b3, b4⟩

/-- `CoefGen(kind, fc, fs)` of the instance `q` (R7, R104). -/
def coefGen (q : Params) (kind : FilterKind) (fc fs : B64) : CoefSet :=
  (q.coefTable.lookup (kind, fc, fs)).getD (coefDefault q kind fc fs)

/-- The cutoff clamp of the low-pass derivation (R102): `min(fc, 0.475 * fs)`. -/
def clampedCutoff (fc fs : B64) : B64 :=
  let lim := fmul64 (quietNaN64 (Config.coefNaN false fc fs 50)) clampRatio fs
  if fgt64 fc lim then lim else fc

/-- What BQ.LPC computes for the cutoff `fc` (R102). -/
def lowPassSet (q : Params) (fc : B64) (rate : BitVec 32) : CoefSet :=
  coefGen q .lp (clampedCutoff fc (f64OfI32 rate)) (f64OfI32 rate)

/-- What BQ.HPC computes for the cutoff `fc`: no clamp (R103). -/
def highPassSet (q : Params) (fc : B64) (rate : BitVec 32) : CoefSet := coefGen q .hp fc (f64OfI32 rate)

end Sys2Proof.Machine
end

