-- ==== Sys2Proof/Machine/Flags.lean ====
section
/-! DEFINITION. The flag registers: the causes (R166) and how a rejection sets `STATUS` (R14). The machine
has no arithmetic condition codes (R26). -/

namespace Sys2Proof.Machine

/-- The five causes (R166). -/
inductive Cause where
  | eOp
  | eRate
  | eCount
  | eStale
  | eZeroDelay
  deriving DecidableEq, Repr

/-- The code of a cause, which is also its bit position in `STATUS` (R166). -/
def causeCode : Cause → BitVec 3
  | .eOp => 0
  | .eRate => 1
  | .eCount => 2
  | .eStale => 3
  | .eZeroDelay => 4

/-- `STATUS` with the bit of `c` set; no other bit changes (R14, R173). -/
def statusWith (c : Cause) (status : BitVec 5) : BitVec 5 :=
  status ||| (1#5 <<< (causeCode c).toNat)

/-- `SETRATE`'s operand check: `rate <= 0`, signed (R168, R90). -/
def rateRejected (rate : BitVec 32) : Bool := decide (rate.toInt ≤ 0)

/-- `PROCESS`'s operand check: `n < 0`, signed (R169, R90). -/
def countRejected (n : BitVec 32) : Bool := decide (n.toInt < 0)

/-- `PROCESS`'s state check (R170). -/
def State.stale (s : State) : Bool := s.initialized && s.rateDirty

/-- `(SampleRate + 50) div 100`, in exact integers (R131, R90 item 2). -/
def delayQuotient (rate : BitVec 32) : Nat := ((rate.toInt + 50) / 100).toNat

/-- The configuration check of `DL.CFG`: the rounded delay length is 0 (R171). -/
def zeroDelay (rate : BitVec 32) : Bool := delayQuotient rate == 0

end Sys2Proof.Machine
end

