-- ==== Sys2Proof/Machine/Memory.lean ====
section
/-! DEFINITION. The element-addressed spaces of R40: index and element pairs in one canonical form. -/

namespace Sys2Proof.Machine

namespace Memory

variable {α : Type}

/-- The element at index `a`, if one is listed. -/
def peek : Memory α → Nat → Option α
  | [], _ => none
  | (b, v) :: rest, a => if b = a then some v else peek rest a

/-- Element `a` replaced by `v`, every other element kept (R43). -/
def poke : Memory α → Nat → α → Memory α
  | [], a, v => [(a, v)]
  | (b, w) :: rest, a, v =>
    if a < b then (a, v) :: (b, w) :: rest
    else if a = b then (a, v) :: rest
    else (b, w) :: poke rest a v

/-- Element `a` listed no more. -/
def erase : Memory α → Nat → Memory α
  | [], _ => []
  | (b, w) :: rest, a => if b = a then rest else (b, w) :: erase rest a

/-- The elements `vals` from index `a` on. -/
def ofListFrom (a : Nat) : List α → Memory α
  | [] => []
  | v :: vs => (a, v) :: ofListFrom (a + 1) vs

/-- Whether the `n` indices from `a` on are the first listed. -/
def listedFrom (a : Nat) : (n : Nat) → Memory α → Bool
  | 0, _ => true
  | _ + 1, [] => false
  | n + 1, (b, _) :: rest => b == a && listedFrom (a + 1) n rest

/-- Every listed index is above `a`, and each is above the one before it. -/
def risingAbove (a : Nat) : Memory α → Bool
  | [] => true
  | (b, _) :: rest => decide (a < b) && risingAbove b rest

/-- The canonical form of a space whose unlisted elements have no value: indices strictly rise. -/
def wf : Memory α → Bool
  | [] => true
  | (b, _) :: rest => risingAbove b rest

/-- Every listed index is below `n`. -/
def below (n : Nat) (m : Memory α) : Bool := m.all fun e => decide (e.1 < n)

/-- An element of a delay array: an unlisted slot holds `+0.0` (R28, R132). -/
def peekZ (m : Memory B32) (a : Nat) : B32 := (peek m a).getD 0#32

/-- A delay-array write, bit for bit; a slot that comes to hold `+0.0` is listed no more. -/
def pokeZ (m : Memory B32) (a : Nat) (v : B32) : Memory B32 :=
  if v = 0#32 then erase m a else poke m a v

/-- The canonical form of a delay array: indices strictly rise and no listed slot holds `+0.0`. -/
def wfZ (m : Memory B32) : Bool := wf m && m.all fun e => decide (e.2 ≠ 0#32)

end Memory

end Sys2Proof.Machine
end

