-- ==== Sys2Proof/Machine/Ops.lean ====
section
/-! DEFINITION. The named operations over the state: the response to a command and the rejection of one
(the machine's only exception, R165), the buffers, the unit bus and hardware reset. -/

namespace Sys2Proof.Machine

/-! ### Command completion -/

/-- The end of an accepted command: the response `{err = 0, code = 0, status = STATUS}`, and `cpc`
advances by one (R173). -/
def State.accept (s : State) : State :=
  { s with response := some ⟨false, 0#3, s.status⟩, cpc := s.cpc + 1 }

/-- Taking an exception, `raise c` (R173): the sticky bit, the error response with the new `STATUS`, and
`cpc` advances by one. Nothing further of the command is issued (R8), so the unit bus is empty after.
There is no return: the next command runs from the resulting state (R175). -/
def State.raise (c : Cause) (s : State) : State :=
  { s with
    status := statusWith c s.status
    response := some ⟨true, causeCode c, statusWith c s.status⟩
    cpc := s.cpc + 1
    unitBus := [] }

/-! ### Single-register writes -/

/-- `SampleRate <- rate; RateDirty <- 1` (R142). -/
def State.storeRate (rate : BitVec 32) (s : State) : State :=
  { s with sampleRate := rate, rateDirty := true }

/-- `DelayLen <- n`. -/
def State.withDelayLen (n : Nat) (s : State) : State := { s with delayLen := n }

/-- `K[i] <- c`. -/
def State.withCoef (i : Fin 4) (c : CoefSet) (s : State) : State := { s with k := s.k.set i c }

/-- `F[i] <- h`. -/
def State.withFilter (i : Fin 7) (h : FilterState) (s : State) : State := { s with f := s.f.set i h }

/-- `P[i] <- h`. -/
def State.withPhase (i : Fin 4) (h : PhaseState) (s : State) : State := { s with p := s.p.set i h }

/-- `D[i] <- l`. -/
def State.withDelay (i : Fin 2) (l : DelayLine) (s : State) : State := { s with d := s.d.set i l }

/-- `Initialized <- 1; RateDirty <- 0`, the end of `RESET_BODY` (R143). -/
def State.markReset (s : State) : State := { s with initialized := true, rateDirty := false }

/-- `FrameIdx <- i` (R25). -/
def State.atFrame (i : Nat) (s : State) : State := { s with frameIdx := i }

/-! ### The unit bus -/

/-- The sample a micro-operation takes, on `u_in` (R66). -/
def State.drive (u : B32) (s : State) : State := { s with uIn := u }

/-- How many occurrence numbers one operation takes; more than any has places for a draw. -/
def drawStride : Nat := 32

/-- The result of a micro-operation, on `u_out` (R66); its occurrence numbers are used up (R82). -/
def State.answer (u : B32) (s : State) : State := { s with uOut := u, draws := s.draws + drawStride }

/-- The occurrence numbers of the mixer's own operations in a frame are used up (R82). -/
def State.tick (s : State) : State := { s with draws := s.draws + drawStride }

/-! ### The host's buffers -/

/-- `MemRead(IN, idx)` (R43); PROCESS has checked that the element is there (`buffersFit`). -/
def State.readIn (s : State) (idx : Nat) : Sample := (Memory.peek s.inBuf idx).getD 0#16

/-- `MemWrite(OUT, idx, v)` (R43). -/
def State.writeOut (idx : Nat) (v : Sample) (s : State) : State :=
  { s with outBuf := Memory.poke s.outBuf idx v }

/-- Element `idx` of `OUT` as the host reads it; none where nothing has been written. -/
def State.readOut (s : State) (idx : Nat) : Option Sample := Memory.peek s.outBuf idx

/-- The host's premise for `n` frames: `IN[0..2n-1]` defined, `OUT[0..6n-1]` writable (R47). -/
def State.buffersFit (s : State) (n : Nat) : Bool :=
  Memory.listedFrom 0 (2 * n) s.inBuf && decide (6 * n ≤ s.outSize)

/-- Both cursors name a slot of their array, and `DelayLen` is no more than its size (R15, R21). -/
def State.slotsPresent (s : State) : Bool :=
  decide (s.d[0].cursor < s.params.maxDelay) && decide (s.d[1].cursor < s.params.maxDelay)
    && decide (s.delayLen ≤ s.params.maxDelay)

/-! ### What the host does between commands -/

/-- The host fills `IN` (R73). -/
def State.fillIn (vals : List Sample) (s : State) : State := { s with inBuf := Memory.ofListFrom 0 vals }

/-- The host supplies an `OUT` buffer of which nothing is known but its size. -/
def State.provideOut (size : Nat) (s : State) : State := { s with outBuf := [], outSize := size }

/-- Hardware reset of this instance (R190): the same state as its first reset (R192); the buffers and the
words still to come are the host's and stay. -/
def State.hardwareReset (s : State) : State :=
  { State.afterHardwareReset s.params with
    inBuf := s.inBuf
    outBuf := s.outBuf
    outSize := s.outSize
    port := s.port
    draws := s.draws }

/-- What makes an instance (R7, R190): a positive rate and room for 480 frames of delay. -/
def Params.valid (q : Params) : Bool :=
  decide (0 < q.rate0.toInt) && decide (Config.minMaxDelay ≤ q.maxDelay)

/-- `CONSTRUCT` (R73, R190): no instance where the parameters are none. -/
def State.construct (q : Params) : Option State :=
  if q.valid then some (State.afterHardwareReset q) else none

end Sys2Proof.Machine
end

