-- ==== Sys2Proof/Machine/Operands.lean ====
section
/-! DEFINITION. Operand forms: the index field of a micro-operation and the signed operands of the host
commands (R63, R65, R68). -/

namespace Sys2Proof.Machine

/-- The unit an index field names, if there are `n` of them (R68); an index past them makes the operation
a reserved one, refused by name (R70). -/
def withIndex (n : Nat) (i : BitVec 4) (op : Fin n → Host.Outcome State Fault Refusal) :
    Host.Outcome State Fault Refusal :=
  if h : i.toNat < n then op ⟨i.toNat, h⟩ else .refused .reservedMicroOp

/-- The frame count of an accepted PROCESS (R65): its operand is not negative. -/
def frameCount (n : BitVec 32) : Nat := n.toInt.toNat

end Sys2Proof.Machine
end

