-- ==== Sys2Proof/Machine/Biquad.lean ====
section
/-! DEFINITION. The biquad_iir_filter unit (41_biquad.md): BQ.CLR, BQ.LPC, BQ.HPC, BQ.APPLY. -/

namespace Sys2Proof.Machine

/-- The difference equation, left to right, one rounding each (R107). Occurrences `t + 1` to `t + 17`. -/
def biquadSum (t : Nat) (c : CoefSet) (h : FilterState) (x : B64) : B64 :=
  let y := fmul64 (nan64 (t + 1)) c.a0 x
  let y := fadd64 (nan64 (t + 2)) y (fmul64 (nan64 (t + 3)) c.a1 h.x1)
  let y := fadd64 (nan64 (t + 4)) y (fmul64 (nan64 (t + 5)) c.a2 h.x2)
  let y := fadd64 (nan64 (t + 6)) y (fmul64 (nan64 (t + 7)) c.a3 h.x3)
  let y := fadd64 (nan64 (t + 8)) y (fmul64 (nan64 (t + 9)) c.a4 h.x4)
  let y := fsub64 (nan64 (t + 10)) y (fmul64 (nan64 (t + 11)) c.b1 h.y1)
  let y := fsub64 (nan64 (t + 12)) y (fmul64 (nan64 (t + 13)) c.b2 h.y2)
  let y := fsub64 (nan64 (t + 14)) y (fmul64 (nan64 (t + 15)) c.b3 h.y3)
  fsub64 (nan64 (t + 16)) y (fmul64 (nan64 (t + 17)) c.b4 h.y4)

/-- Both histories one place older, the newest the exact input and the unrounded output (R107, R108). -/
def biquadShift (h : FilterState) (x y : B64) : FilterState :=
  ⟨x, h.x1, h.x2, h.x3, y, h.y1, h.y2, h.y3⟩

/-- `Apply` (R107): the new filter state and `u_out`. -/
def biquadApply (t : Nat) (c : CoefSet) (h : FilterState) (u : B32) : FilterState × B32 :=
  let x := f64OfF32 (nan64 t) u
  let y := biquadSum t c h x
  (biquadShift h x y, f32OfF64 (nan32 t) y)

/-- `BQ.CLR f` on the state (R101). -/
def State.bqClr (f : Fin 7) (s : State) : State := s.withFilter f FilterState.zero

/-- `BQ.LPC k` on the state (R102). -/
def State.bqLpc (k : Fin 4) (s : State) : State :=
  s.withCoef k (lowPassSet s.params cutoff[k] s.sampleRate)

/-- `BQ.HPC k` on the state (R103). -/
def State.bqHpc (k : Fin 4) (s : State) : State :=
  s.withCoef k (highPassSet s.params cutoff[k] s.sampleRate)

/-- `BQ.APPLY f, k` on the state (R107). -/
def State.bqApply (f : Fin 7) (k : Fin 4) (s : State) : State :=
  let r := biquadApply s.draws s.k[k] s.f[f] s.uIn
  (s.withFilter f r.1).answer r.2

/-- `BQ.CLR f` (R101). -/
def execBqClr (f : BitVec 4) (s : State) : Host.Outcome State Fault Refusal :=
  withIndex 7 f fun f => .next (s.bqClr f)

/-- `BQ.LPC k` (R102). -/
def execBqLpc (k : BitVec 4) (s : State) : Host.Outcome State Fault Refusal :=
  withIndex 4 k fun k => .next (s.bqLpc k)

/-- `BQ.HPC k` (R103). -/
def execBqHpc (k : BitVec 4) (s : State) : Host.Outcome State Fault Refusal :=
  withIndex 4 k fun k => .next (s.bqHpc k)

/-- `BQ.APPLY f, k` (R107). -/
def execBqApply (f k : BitVec 4) (s : State) : Host.Outcome State Fault Refusal :=
  withIndex 7 f fun f => withIndex 4 k fun k => .next (s.bqApply f k)

end Sys2Proof.Machine
end

