-- ==== Sys2Proof/Machine/DelayUnit.lean ====
section
/-! DEFINITION. The circular_delay_line unit (43_delayline.md): DL.CFG, DL.CLR, DL.PUSH. -/

namespace Sys2Proof.Machine

/-- The delay length for a rate, `min((SampleRate + 50) div 100, MAX_DELAY)` (R131). -/
def delayLength (maxDelay : Nat) (rate : BitVec 32) : Nat := min (delayQuotient rate) maxDelay

/-- `(c + 1) mod DelayLen` (R133). Where `DelayLen = 0` the spec gives the modulus no meaning: a free slot
of the array (log 9). -/
def nextCursor (t len maxDelay c : Nat) : Nat :=
  if len = 0 then Config.freeCursor t % maxDelay else (c + 1) % len

/-- `Push` (R133): the slot is read before it is written; the value moves bit for bit. -/
def delayPush (t len maxDelay : Nat) (l : DelayLine) (u : B32) : DelayLine × B32 :=
  (⟨Memory.pokeZ l.buf l.cursor u, nextCursor t len maxDelay l.cursor⟩, Memory.peekZ l.buf l.cursor)

/-- `DL.CFG` on the state (R131): none where it raises `E_ZERODELAY`. -/
def State.dlCfg (s : State) : Option State :=
  if zeroDelay s.sampleRate then none
  else some (s.withDelayLen (delayLength s.params.maxDelay s.sampleRate))

/-- `DL.CLR d` on the state (R132): every slot `+0.0`, the cursor 0. -/
def State.dlClr (d : Fin 2) (s : State) : State := s.withDelay d DelayLine.zero

/-- `DL.PUSH d` on the state (R133). -/
def State.dlPush (d : Fin 2) (s : State) : State :=
  let r := delayPush s.draws s.delayLen s.params.maxDelay s.d[d] s.uIn
  (s.withDelay d r.1).answer r.2

/-- `DL.CFG` (R131, R171): issued alone, its exception rejects the command at `cpc` (log 8). -/
def execDlCfg (s : State) : Host.Outcome State Fault Refusal :=
  match s.dlCfg with
  | some s' => .next s'
  | none => .next (s.raise .eZeroDelay)

/-- `DL.CLR d` (R132). -/
def execDlClr (d : BitVec 4) (s : State) : Host.Outcome State Fault Refusal :=
  withIndex 2 d fun d => .next (s.dlClr d)

/-- `DL.PUSH d` (R133). A cursor past the array names no slot (R21). -/
def execDlPush (d : BitVec 4) (s : State) : Host.Outcome State Fault Refusal :=
  withIndex 2 d fun d =>
    if s.d[d].cursor < s.params.maxDelay then .next (s.dlPush d) else .fault .delaySlotAbsent

end Sys2Proof.Machine
end

