-- ==== Sys2Proof/Machine/Formats.lean ====
section
/-! DEFINITION. Arithmetic in the format a parameter names (R7: `PS_FMT`, `MIX_FMT`). The rules write the
primitives of the decided formats (D16, D17); what the other format makes of them is the model's choice
(DESIGN CHOICE, unsafe, log 14). A `t` is the occurrence number of a draw. -/

namespace Sys2Proof.Machine

/-! ### The phase-shift unit: `PS_FMT`

A register holds the `b64` of its value, which in `binary32` is a `b32` widened: exact, and zeros, infinities
and NaNs are what they are in the format. -/

/-- The one rounding of a primitive, to the format. -/
def roundIn (F : Fmt) (t : Nat) (v : FVal) : B64 :=
  match F with
  | .b64 => round64 (nan64 t) v
  | .b32 => f64OfF32 (nan64 t) (round32 (nan32 t) v)

/-- `a + b` in the format. -/
def faddIn (F : Fmt) (t : Nat) (a b : B64) : B64 := roundIn F t (fvalAdd (fval64 a) (fval64 b))

/-- `a - b` in the format. -/
def fsubIn (F : Fmt) (t : Nat) (a b : B64) : B64 := roundIn F t (fvalAdd (fval64 a) (fvalNeg (fval64 b)))

/-- `a * b` in the format. -/
def fmulIn (F : Fmt) (t : Nat) (a b : B64) : B64 := roundIn F t (fvalMul (fval64 a) (fval64 b))

/-- `a / b` in the format. -/
def fdivIn (F : Fmt) (t : Nat) (a b : B64) : B64 := roundIn F t (fvalDiv (fval64 a) (fval64 b))

/-- A `b64` brought into the format: a constant, a library result. -/
def fitIn (F : Fmt) (t : Nat) (a : B64) : B64 :=
  match F with
  | .b64 => a
  | .b32 => f64OfF32 (nan64 t) (f32OfF64 (nan32 t) a)

/-! ### The mixer: `MIX_FMT`

Its operands and results are `b32` samples; in `binary64` they are widened, and the result narrowed. -/

/-- `a * b`, a sample times a matrix constant. -/
def mixMul (F : Fmt) (t : Nat) (a b : B32) : B32 :=
  match F with
  | .b32 => fmul32 (nan32 t) a b
  | .b64 => f32OfF64 (nan32 t) (fmul64 (nan64 t) (f64OfF32 (nan64 t) a) (f64OfF32 (nan64 t) b))

/-- `a + b`, two samples. -/
def mixAdd (F : Fmt) (t : Nat) (a b : B32) : B32 :=
  match F with
  | .b32 => fadd32 (nan32 t) a b
  | .b64 => f32OfF64 (nan32 t) (fadd64 (nan64 t) (f64OfF32 (nan64 t) a) (f64OfF32 (nan64 t) b))

/-- `(a + b) * c`, the sum kept in the format. Occurrences `t` (the product) and `t + 1` (the sum). -/
def mixSumMul (F : Fmt) (t : Nat) (a b c : B32) : B32 :=
  match F with
  | .b32 => fmul32 (nan32 t) (fadd32 (nan32 (t + 1)) a b) c
  | .b64 =>
    f32OfF64 (nan32 t)
      (fmul64 (nan64 t)
        (fadd64 (nan64 (t + 1)) (f64OfF32 (nan64 (t + 1)) a) (f64OfF32 (nan64 (t + 1)) b))
        (f64OfF32 (nan64 t) c))

end Sys2Proof.Machine
end

