-- ==== Sys2Proof/Machine/PhaseShift.lean ====
section
/-! DEFINITION. The cascaded_allpass_phaseshift unit (42_phaseshift.md): PS.CLR, PS.APPLY. State and arithmetic
are in the format `PS_FMT` of the instance `q`; in `binary64`, the one D17 decides, the operations are the
rules' own `b64` primitives. -/

namespace Sys2Proof.Machine

/-- The rate in the format (R117); no integer is a NaN. -/
def rateIn (F : Fmt) (t : Nat) (rate : BitVec 32) : B64 := fitIn F t (f64OfI32 rate)

/-- `MinWp` for a rate (R117). -/
def sweepMin (q : Params) (t : Nat) (rate : BitVec 32) : B64 :=
  fdivIn q.psFmt t (fmulIn q.psFmt (t + 1) (fitIn q.psFmt t pi64) delayMs) (rateIn q.psFmt t rate)

/-- `range = 2 ^ depth` (R117). Occurrence `t + 23`. -/
def sweepRange (q : Params) (t : Nat) : B64 := fitIn q.psFmt (t + 23) (pow64 q two64 depth)

/-- `SweepUp` for a rate (R117): the half of the rate is a division. Occurrences `t + 2`, `t + 3`, `t + 24`. -/
def sweepFactor (q : Params) (t : Nat) (rate : BitVec 32) : B64 :=
  fitIn q.psFmt (t + 24)
    (pow64 q (sweepRange q t)
      (fdivIn q.psFmt (t + 2) (fitIn q.psFmt t sweepHz)
        (fdivIn q.psFmt (t + 3) (rateIn q.psFmt t rate) two64)))

/-- Sub-step 1, the lazy set-up, guarded by `Init` (R117). Occurrences `t` to `t + 4`, `t + 23`, `t + 24`. -/
def phaseSetUp (q : Params) (t : Nat) (rate : BitVec 32) (h : PhaseState) : PhaseState :=
  if h.init then h
  else
    { h with
      minWp := sweepMin q t rate
      wp := sweepMin q t rate
      maxWp := fmulIn q.psFmt (t + 4) (sweepMin q t rate) (sweepRange q t)
      sweepUp := sweepFactor q t rate
      sweep := sweepFactor q t rate
      init := true }

/-- The coefficient `(1 - Wp) / (1 + Wp)` (R119). Occurrences `t + 5` to `t + 7`. -/
def phaseCoef (F : Fmt) (t : Nat) (wp : B64) : B64 :=
  fdivIn F (t + 5) (fsubIn F (t + 6) one64 wp) (faddIn F (t + 7) one64 wp)

/-- One all-pass stage, `c (Ly + x) - Lx` (R119). Occurrences `t` to `t + 2`. -/
def allPass (F : Fmt) (t : Nat) (c x lx ly : B64) : B64 :=
  fsubIn F t (fmulIn F (t + 1) c (faddIn F (t + 2) ly x)) lx

/-- Sub-step 2, the four stages (R119). Occurrences `t + 9` to `t + 20`. -/
def phaseStages (F : Fmt) (t : Nat) (c x0 : B64) (h : PhaseState) : PhaseState :=
  let y1 := allPass F (t + 9) c x0 h.lx1 h.ly1
  let y2 := allPass F (t + 12) c y1 h.lx2 h.ly2
  let y3 := allPass F (t + 15) c y2 h.lx3 h.ly3
  let y4 := allPass F (t + 18) c y3 h.lx4 h.ly4
  { h with lx1 := x0, ly1 := y1, lx2 := y1, ly2 := y2, lx3 := y2, ly3 := y3, lx4 := y3, ly4 := y4 }

/-- Sub-step 3, the output, its sign flipped where `v` is set (R120). -/
def phaseOutput (t : Nat) (v : Bool) (y4 : B64) : B32 :=
  f32OfF64 (nan32 t) (if v then fneg64 y4 else y4)

/-- Sub-step 4, the sweep advance; the bounds are soft (R121, R122). Occurrences `t + 21`, `t + 22`. -/
def sweepAdvance (F : Fmt) (t : Nat) (h : PhaseState) : PhaseState :=
  let w := fmulIn F (t + 21) h.wp h.sweep
  { h with
    wp := w
    sweep :=
      if fgt64 w h.maxWp then fdivIn F (t + 22) one64 h.sweepUp
      else if flt64 w h.minWp then h.sweepUp
      else h.sweep }

/-- `Apply` (R118): the four sub-steps in order; the new phase-shift state and `u_out`. -/
def phaseApply (q : Params) (t : Nat) (rate : BitVec 32) (v : Bool) (h : PhaseState) (u : B32) :
    PhaseState × B32 :=
  let h := phaseSetUp q t rate h
  let h := phaseStages q.psFmt t (phaseCoef q.psFmt t h.wp) (f64OfF32 (nan64 (t + 8)) u) h
  (sweepAdvance q.psFmt t h, phaseOutput t v h.ly4)

/-- `PS.CLR p` on the state (R116). -/
def State.psClr (p : Fin 4) (s : State) : State := s.withPhase p PhaseState.zero

/-- `PS.APPLY p, v` on the state (R118). -/
def State.psApply (p : Fin 4) (v : Bool) (s : State) : State :=
  let r := phaseApply s.params s.draws s.sampleRate v s.p[p] s.uIn
  (s.withPhase p r.1).answer r.2

/-- `PS.CLR p` (R116). -/
def execPsClr (p : BitVec 4) (s : State) : Host.Outcome State Fault Refusal :=
  withIndex 4 p fun p => .next (s.psClr p)

/-- `PS.APPLY p, v` (R118). -/
def execPsApply (p : BitVec 4) (v : Bool) (s : State) : Host.Outcome State Fault Refusal :=
  withIndex 4 p fun p => .next (s.psApply p v)

end Sys2Proof.Machine
end

