-- ==== Sys2Proof/Machine/Decoder.lean ====
section
/-! DEFINITION. The surround_matrix_mixer unit and the host commands (44_decoder_commands.md): SETRATE,
RESET, PROCESS, the reset body and the per-frame step. -/

namespace Sys2Proof.Machine

/-- `RESET_BODY` (R143), in the order of R144: none where DL.CFG raises `E_ZERODELAY`, nothing having been
written. -/
def State.resetBody (s : State) : Option State :=
  match s.dlCfg with
  | none => none
  | some s =>
    let s := (((s.bqHpc 0).bqLpc 1).bqHpc 2).bqLpc 3
    let s := ((((((s.bqClr 0).bqClr 1).bqClr 2).bqClr 3).bqClr 4).bqClr 5).bqClr 6
    let s := (((s.psClr 0).psClr 1).psClr 2).psClr 3
    some ((s.dlClr 0).dlClr 1).markReset

/-- `r = BQ.APPLY f, k (u)`: the state after, whose `u_out` is `r` (R147). -/
def State.filter (f : Fin 7) (k : Fin 4) (u : B32) (s : State) : State := (s.drive u).bqApply f k

/-- `r = PS.APPLY p, v (u)` (R147). -/
def State.shift (p : Fin 4) (v : Bool) (u : B32) (s : State) : State := (s.drive u).psApply p v

/-- `r = DL.PUSH d (u)` (R147). -/
def State.delay (d : Fin 2) (u : B32) (s : State) : State := (s.drive u).dlPush d

/-- Step 7: the six results saturated and written in channel order (R154). Draws `t + 10` to `t + 15`. -/
def State.emit (t i : Nat) (fl fr ce lfe sl sr : B32) (s : State) : State :=
  let s := s.writeOut (6 * i) (sat16 (Config.satDraw (t + 10)) fl)
  let s := s.writeOut (6 * i + 1) (sat16 (Config.satDraw (t + 11)) fr)
  let s := s.writeOut (6 * i + 2) (sat16 (Config.satDraw (t + 12)) ce)
  let s := s.writeOut (6 * i + 3) (sat16 (Config.satDraw (t + 13)) lfe)
  let s := s.writeOut (6 * i + 4) (sat16 (Config.satDraw (t + 14)) sl)
  s.writeOut (6 * i + 5) (sat16 (Config.satDraw (t + 15)) sr)

/-- Step 2: the mid signal through the high-pass at 70 Hz and the low-pass at 20 kHz (R149). -/
def State.centre (m : B32) (s : State) : State :=
  let s := s.filter 0 0 m
  s.filter 1 1 s.uOut

/-- Steps 4 and 5: one rear channel from its scaled `L` and `R` components, filter states `fl`, `fr`, phase
shifters `pl` (inverted in both channels) and `pr`, delay line `d` (R151, R152). Occurrence `t` is the sum's. -/
def State.surround (F : Fmt) (t : Nat) (fl fr : Fin 7) (pl pr : Fin 4) (d : Fin 2) (l r : B32) (s : State) :
    State :=
  let s := s.filter fl 2 l
  let s := s.shift pl true s.uOut
  let fromL := s.uOut
  let s := s.filter fr 2 r
  let s := s.shift pr false s.uOut
  s.delay d (mixAdd F t fromL s.uOut)

/-- Step 6: the mid signal through the low-pass at 120 Hz (R153). -/
def State.lowEffects (m : B32) (s : State) : State := s.filter 6 3 m

/-- The mid signal `(L + R) KCENTER` of steps 2 and 6 (R149, R153). Occurrences `t`, `t + 1`. -/
def midSignal (F : Fmt) (t : Nat) (l r : B32) : B32 := mixSumMul F t l r kCenter

/-- Steps 1 to 7 of `FRAME(i)` on the samples `l16`, `r16` (R147): the 13 micro-operations in order. The
mixer's own operations, in the format `MIX_FMT`, have occurrences `t` to `t + 9`. -/
def State.mixFrame (i : Nat) (l16 r16 : Sample) (s : State) : State :=
  let t := s.draws
  let F := s.params.mixFmt
  let l := f32OfI16 l16
  let r := f32OfI16 r16
  let m := midSignal F t l r
  let s2 := s.tick.centre m
  let s4 := s2.surround F (t + 2) 2 3 0 1 0 (mixMul F (t + 3) l kMain) (mixMul F (t + 4) r kCross)
  let s5 := s4.surround F (t + 5) 4 5 2 3 1 (mixMul F (t + 6) l kCross) (mixMul F (t + 7) r kMain)
  let s6 := s5.lowEffects m
  s6.emit t i (mixMul F (t + 8) l half32) (mixMul F (t + 9) r half32) s2.uOut s6.uOut s4.uOut s5.uOut

/-- `FRAME(i)` for `i = FrameIdx`, and the frame counter advances (R147, R90 item 5). -/
def State.frame (s : State) : State :=
  (s.mixFrame s.frameIdx (s.readIn (2 * s.frameIdx)) (s.readIn (2 * s.frameIdx + 1))).atFrame
    (s.frameIdx + 1)

/-- `n` frames from `FrameIdx` on, in increasing order (R145). -/
def State.frames : Nat → State → State
  | 0, s => s
  | n + 1, s => s.frame.frames n

/-- The accepted part of PROCESS (R145): the frames from 0 to `n - 1`, then the response. -/
def State.runFrames (n : Nat) (s : State) : Host.Outcome State Fault Refusal :=
  if s.buffersFit n then
    if s.slotsPresent then .next ((s.atFrame 0).frames n).accept else .fault .delaySlotAbsent
  else .refused .bufferContract

/-- `SETRATE rate` (R142). -/
def execSetrate (rate : BitVec 32) (s : State) : Host.Outcome State Fault Refusal :=
  if rateRejected rate then .next (s.raise .eRate) else .next (s.storeRate rate).accept

/-- `RESET` (R143). -/
def execReset (s : State) : Host.Outcome State Fault Refusal :=
  match s.resetBody with
  | some s' => .next s'.accept
  | none => .next (s.raise .eZeroDelay)

/-- `PROCESS n` (R145): the checks in the order of R172, the implicit reset of R146, the frames. Where the
parameter `P0_RESETS` is false, a count of 0 on a never-reset decoder does nothing (C2). -/
def execProcess (n : BitVec 32) (s : State) : Host.Outcome State Fault Refusal :=
  if countRejected n then .next (s.raise .eCount)
  else if s.stale then .next (s.raise .eStale)
  else if s.initialized then s.runFrames (frameCount n)
  else if frameCount n = 0 ∧ ¬ s.params.p0Resets then .next s.accept
  else
    match s.resetBody with
    | some s' => s'.runFrames (frameCount n)
    | none => .next (s.raise .eZeroDelay)

end Sys2Proof.Machine
end

