-- ==== Sys2Proof/Syntax.lean ====
section
/-! DEFINITION. The instructions: the three host commands (R62) and the nine micro-operations (R67), one
constructor per row of the opcode table. Index operands keep the four bits of their field. -/

namespace Sys2Proof

inductive Instr where
  /-- `SETRATE rate` (R142), `rate` signed. -/
  | setrate (rate : BitVec 32)
  /-- `RESET` (R143). -/
  | reset
  /-- `PROCESS n` (R145), `n` signed. -/
  | process (n : BitVec 32)
  /-- `BQ.CLR f` (R101). -/
  | bqClr (f : BitVec 4)
  /-- `BQ.LPC k` (R102). -/
  | bqLpc (k : BitVec 4)
  /-- `BQ.HPC k` (R103). -/
  | bqHpc (k : BitVec 4)
  /-- `BQ.APPLY f, k` (R107). -/
  | bqApply (f k : BitVec 4)
  /-- `PS.CLR p` (R116). -/
  | psClr (p : BitVec 4)
  /-- `PS.APPLY p, v` (R118), `v` the invert flag. -/
  | psApply (p : BitVec 4) (v : Bool)
  /-- `DL.CLR d` (R132). -/
  | dlClr (d : BitVec 4)
  /-- `DL.CFG` (R131). -/
  | dlCfg
  /-- `DL.PUSH d` (R133). -/
  | dlPush (d : BitVec 4)
  deriving DecidableEq, Repr

/-- A word together with the port it appears on, which alone tells its format (R60). -/
inductive PortWord where
  | h64 (w : CommandWord)
  | u16 (w : UnitWord)
  deriving DecidableEq, Repr

end Sys2Proof
end

