-- ==== Sys2Proof/Machine/Dispatch.lean ====
section
/-! DEFINITION. The dispatch of an instruction to its meaning. -/

namespace Sys2Proof.Machine

def exec (i : Instr) (s : State) : Host.Outcome State Fault Refusal :=
  match i with
  -- the host commands
  | .setrate rate => Sys2Proof.Machine.execSetrate rate s
  | .reset => Sys2Proof.Machine.execReset s
  | .process n => Sys2Proof.Machine.execProcess n s
  -- biquad_iir_filter
  | .bqClr f => Sys2Proof.Machine.execBqClr f s
  | .bqLpc k => Sys2Proof.Machine.execBqLpc k s
  | .bqHpc k => Sys2Proof.Machine.execBqHpc k s
  | .bqApply f k => Sys2Proof.Machine.execBqApply f k s
  -- cascaded_allpass_phaseshift
  | .psClr p => Sys2Proof.Machine.execPsClr p s
  | .psApply p v => Sys2Proof.Machine.execPsApply p v s
  -- circular_delay_line
  | .dlClr d => Sys2Proof.Machine.execDlClr d s
  | .dlCfg => Sys2Proof.Machine.execDlCfg s
  | .dlPush d => Sys2Proof.Machine.execDlPush d s

end Sys2Proof.Machine
end

