-- ==== Sys2Proof/WellFormed.lean ====
section
/-! DEFINITION. Which instructions the encodings generate: the index ranges of R68. Every signed 32-bit
operand of SETRATE and PROCESS is well-formed (R63, R65). -/

namespace Sys2Proof

/-- Number of filter states `F` (R18). -/
def numFilters : Nat := 7

/-- Number of coefficient sets `K` (R16). -/
def numCoefSets : Nat := 4

/-- Number of phase-shift states `P` (R19). -/
def numPhases : Nat := 4

/-- Number of delay lines `D` (R21). -/
def numDelays : Nat := 2

/-- R68: an index field is below the number of its units. -/
def Instr.wellFormed : Instr → Bool
  | .setrate _ => true
  | .reset => true
  | .process _ => true
  | .bqClr f => decide (f.toNat < numFilters)
  | .bqLpc k => decide (k.toNat < numCoefSets)
  | .bqHpc k => decide (k.toNat < numCoefSets)
  | .bqApply f k => decide (f.toNat < numFilters) && decide (k.toNat < numCoefSets)
  | .psClr p => decide (p.toNat < numPhases)
  | .psApply p _ => decide (p.toNat < numPhases)
  | .dlClr d => decide (d.toNat < numDelays)
  | .dlCfg => true
  | .dlPush d => decide (d.toNat < numDelays)

/-- A host command travels in format `H64`, a micro-operation in `U16` (R60). -/
def Instr.isHostCommand : Instr → Bool
  | .setrate _ => true
  | .reset => true
  | .process _ => true
  | .bqClr _ => false
  | .bqLpc _ => false
  | .bqHpc _ => false
  | .bqApply _ _ => false
  | .psClr _ => false
  | .psApply _ _ => false
  | .dlClr _ => false
  | .dlCfg => false
  | .dlPush _ => false

end Sys2Proof
end

