-- ==== Sys2Proof/Decode.lean ====
section
/-! DEFINITION. The decoder of both formats, total, rejecting by name, and after it the encoder, from the
tables of R61, R62, R66, R67 and R68. -/

namespace Sys2Proof

/-- Why a word is no instruction. The first three are R69's illegal `H64` words, the last two R70's
reserved `U16` words. -/
inductive DecodeReject where
  /-- `H64` with `rsv != 0`. -/
  | reservedFieldSet
  /-- `H64` with an `op` other than `0x01`, `0x02`, `0x03`. -/
  | opcodeUnassigned
  /-- `H64` RESET with `imm32 != 0`. -/
  | resetOperandSet
  /-- `U16` that matches no row of R67. -/
  | unitWordUnassigned
  /-- `U16` that matches a row of R67 with an index out of R68's range. -/
  | indexOutOfRange
  deriving DecidableEq, Repr

/-- `op`, bits 63:56 (R61). -/
def opField (w : CommandWord) : BitVec 8 := w.extractLsb' 56 8

/-- `rsv`, bits 55:32 (R61). -/
def rsvField (w : CommandWord) : BitVec 24 := w.extractLsb' 32 24

/-- `imm32`, bits 31:0 (R61). -/
def immField (w : CommandWord) : BitVec 32 := w.extractLsb' 0 32

/-- Decoding a host word (R74). -/
def decodeH64 (w : CommandWord) : Except DecodeReject Instr :=
  if rsvField w ≠ 0#24 then .error .reservedFieldSet
  else if opField w = 0x01#8 then .ok (.setrate (immField w))
  else if opField w = 0x02#8 then
    if immField w = 0#32 then .ok .reset else .error .resetOperandSet
  else if opField w = 0x03#8 then .ok (.process (immField w))
  else .error .opcodeUnassigned

/-- `inst`, bits 7:4 (R66). -/
def instField (w : UnitWord) : BitVec 4 := w.extractLsb' 4 4

/-- `arg`, bits 3:0 (R66). -/
def argField (w : UnitWord) : BitVec 4 := w.extractLsb' 0 4

/-- A row of R67 whose operands are in R68's range, or a reserved word (R70). -/
def ifWellFormed (i : Instr) : Except DecodeReject Instr :=
  if i.wellFormed then .ok i else .error .indexOutOfRange

/-- Decoding a micro-operation word by the match and mask of its row in R67. -/
def decodeU16 (w : UnitWord) : Except DecodeReject Instr :=
  if w &&& 0xFF0F#16 = 0x1000#16 then ifWellFormed (.bqClr (instField w))
  else if w &&& 0xFF0F#16 = 0x1100#16 then ifWellFormed (.bqLpc (instField w))
  else if w &&& 0xFF0F#16 = 0x1200#16 then ifWellFormed (.bqHpc (instField w))
  else if w &&& 0xFF00#16 = 0x1300#16 then ifWellFormed (.bqApply (instField w) (argField w))
  else if w &&& 0xFF0F#16 = 0x2000#16 then ifWellFormed (.psClr (instField w))
  else if w &&& 0xFF0E#16 = 0x2300#16 then ifWellFormed (.psApply (instField w) (w.getLsbD 0))
  else if w &&& 0xFF0F#16 = 0x3000#16 then ifWellFormed (.dlClr (instField w))
  else if w = 0x3100#16 then .ok .dlCfg
  else if w &&& 0xFF0F#16 = 0x3300#16 then ifWellFormed (.dlPush (instField w))
  else .error .unitWordUnassigned

/-- Decoding a word by the port it appears on (R60). -/
def decode : PortWord → Except DecodeReject Instr
  | .h64 w => decodeH64 w
  | .u16 w => decodeU16 w

/-- The instruction the decoder reads from a word of the opcode table: the table's two widths are the two
formats, and a word is whole on its port (R45, R60), so no byte order enters. -/
def decodeTableWord (nbits w : Nat) : Option Instr :=
  match (if nbits = 64 then decode (.h64 (BitVec.ofNat 64 w))
         else if nbits = 16 then decode (.u16 (BitVec.ofNat 16 w))
         else .error .unitWordUnassigned) with
  | .ok i => some i
  | .error _ => none

/-! ### The encoder -/

/-- `{op, rsv = 0, imm32}` (R61). -/
def h64 (op : BitVec 8) (imm : BitVec 32) : CommandWord := op ++ 0#24 ++ imm

/-- `{unit, fn, inst, arg}` (R66). -/
def u16 (unit fn inst arg : BitVec 4) : UnitWord := unit ++ fn ++ inst ++ arg

/-- The word of an instruction (R62, R67, R74). -/
def encode : Instr → PortWord
  | .setrate rate => .h64 (h64 0x01 rate)
  | .reset => .h64 (h64 0x02 0)
  | .process n => .h64 (h64 0x03 n)
  | .bqClr f => .u16 (u16 0x1 0x0 f 0)
  | .bqLpc k => .u16 (u16 0x1 0x1 k 0)
  | .bqHpc k => .u16 (u16 0x1 0x2 k 0)
  | .bqApply f k => .u16 (u16 0x1 0x3 f k)
  | .psClr p => .u16 (u16 0x2 0x0 p 0)
  | .psApply p v => .u16 (u16 0x2 0x3 p (0#3 ++ BitVec.ofBool v))
  | .dlClr d => .u16 (u16 0x3 0x0 d 0)
  | .dlCfg => .u16 (u16 0x3 0x1 0 0)
  | .dlPush d => .u16 (u16 0x3 0x3 d 0)

end Sys2Proof
end

