-- ==== Sys2Proof/Machine/Fetch.lean ====
section
/-! DEFINITION. What the sequencer does next: a micro-operation waiting on the unit bus, else the host's
next action (R6, R60, R140). -/

namespace Sys2Proof.Machine

/-- What a step finds to do. -/
inductive Fetched where
  /-- An instruction, with its word taken off its port. -/
  | run (i : Instr) (s : State)
  /-- Nothing to execute: the state the step ends in. -/
  | done (s : State)
  /-- A reserved micro-operation word (R70). -/
  | reserved
  deriving DecidableEq, Repr

/-- A host action taken off the port. An illegal command word raises `E_OP` (R167). -/
def hostAction (e : HostEvent) (s : State) : Fetched :=
  match e with
  | .command w =>
    match decodeH64 w with
    | .ok i => .run i s
    | .error _ => .done (s.raise .eOp)
  | .fillIn vals => .done (s.fillIn vals)
  | .provideOut size => .done (s.provideOut size)
  | .hardwareReset => .done s.hardwareReset

/-- The fetch. With nothing pending the decoder is idle and keeps all state (R180). -/
def fetch (s : State) : Fetched :=
  match s.unitBus with
  | w :: rest =>
    match decodeU16 w with
    | .ok i => .run i { s with unitBus := rest }
    | .error _ => .reserved
  | [] =>
    match s.port with
    | [] => .done s
    | e :: rest => hostAction e { s with port := rest }

/-- `s` with the instruction of `nbits` bits whose word is `w` put where the fetch takes its next one: a
`U16` word at the head of the unit bus, an `H64` word at the head of the command port with the unit bus
idle. -/
def placeWord (s : State) (nbits w : Nat) : State :=
  if nbits = 16 then { s with unitBus := BitVec.ofNat 16 w :: s.unitBus }
  else { s with unitBus := [], port := .command (BitVec.ofNat 64 w) :: s.port }

end Sys2Proof.Machine
end

