-- ==== Sys2Proof/Machine/Step.lean ====
section
/-! DEFINITION. One step: one host command, one micro-operation or one host action, to completion (R6,
R140). -/

namespace Sys2Proof.Machine

def step (s : State) : Host.Outcome State Fault Refusal :=
  match fetch s with
  | .run i s' => exec i s'
  | .done s' => .next s'
  | .reserved => .refused .reservedMicroOp

/-- The host's probe: the next step runs the instruction whose word is `w` (log 7). -/
def State.withFetchWord (s : State) (nbits w : Nat) : State := placeWord s nbits w

end Sys2Proof.Machine
end

