-- ==== Sys2Proof/Safety.lean ====
section
/-! DEFINITION. The terms in which claims about the machine are stated: what a floating-point datum is worth,
what a state and a run must satisfy, and the invariants of R22. -/

namespace Sys2Proof.Machine

/-! ### What a datum is worth -/

/-- The rational number an exact value is, none for an infinity or a NaN. -/
def fvalRat : FVal → Option ℚ
  | .nan => none
  | .inf _ => none
  | .fin neg m e => some ((if neg then -1 else 1) * (m : ℚ) * (2 : ℚ) ^ e)

/-- The rational number a `b64` is. -/
def rat64 (a : B64) : Option ℚ := fvalRat (fval64 a)

/-- The rational number a `b32` is. -/
def rat32 (a : B32) : Option ℚ := fvalRat (fval32 a)

/-- Neither an infinity nor a NaN. -/
def finite64 (a : B64) : Bool := (rat64 a).isSome

/-- Neither an infinity nor a NaN. -/
def finite32 (a : B32) : Bool := (rat32 a).isSome

/-- A NaN (R82). -/
def isNaN64 (a : B64) : Bool := decide (fval64 a = .nan)

/-- A NaN (R82). -/
def isNaN32 (a : B32) : Bool := decide (fval32 a = .nan)

/-- A quiet NaN: a NaN with the top fraction bit set (R82). -/
def quiet64 (a : B64) : Bool := isNaN64 a && a.getLsbD 51

/-- A quiet NaN: a NaN with the top fraction bit set (R82). -/
def quiet32 (a : B32) : Bool := isNaN32 a && a.getLsbD 22

/-- A zero of either sign. -/
def zero64 (a : B64) : Bool := decide (rat64 a = some 0)

/-- A zero of either sign. -/
def zero32 (a : B32) : Bool := decide (rat32 a = some 0)

/-- `r` is the `b64` that IEEE 754 round-to-nearest, ties-to-even gives for the real number `q`, no
overflow having occurred: no finite `b64` is nearer, and if another is as near, `r` has an even
significand. -/
def NearestEven64 (q : ℚ) (r : B64) : Prop :=
  ∃ v, rat64 r = some v ∧
    ∀ x w, rat64 x = some w → |v - q| ≤ |w - q| ∧ (|v - q| = |w - q| → w ≠ v → r.getLsbD 0 = false)

/-- The same for `b32`. -/
def NearestEven32 (q : ℚ) (r : B32) : Prop :=
  ∃ v, rat32 r = some v ∧
    ∀ x w, rat32 x = some w → |v - q| ≤ |w - q| ∧ (|v - q| = |w - q| → w ≠ v → r.getLsbD 0 = false)

/-- `r` is what rounding the real number `q` to `b64` gives, overflow included (R81): from half a unit past
the largest finite value on, the infinity of the sign. -/
def Rounds64 (q : ℚ) (r : B64) : Prop :=
  if (2 : ℚ) ^ 1024 - 2 ^ 970 ≤ q then r = 0x7FF0000000000000
  else if q ≤ -((2 : ℚ) ^ 1024 - 2 ^ 970) then r = 0xFFF0000000000000
  else NearestEven64 q r

/-- The same for `b32` (R81, R87). -/
def Rounds32 (q : ℚ) (r : B32) : Prop :=
  if (2 : ℚ) ^ 128 - 2 ^ 103 ≤ q then r = 0x7F800000
  else if q ≤ -((2 : ℚ) ^ 128 - 2 ^ 103) then r = 0xFF800000
  else NearestEven32 q r

/-- The two infinities, the negative one for `true`. -/
def infinity64 (neg : Bool) : B64 := if neg then 0xFFF0000000000000 else 0x7FF0000000000000

/-- The two infinities. -/
def infinity32 (neg : Bool) : B32 := if neg then 0xFF800000 else 0x7F800000

/-- The two zeros, the negative one for `true`. -/
def signedZero64 (neg : Bool) : B64 := if neg then 0x8000000000000000 else 0

/-- The two zeros. -/
def signedZero32 (neg : Bool) : B32 := if neg then 0x80000000 else 0

/-! ### Parts of the state -/

/-- Nine finite coefficients. -/
def CoefSet.finite (c : CoefSet) : Bool :=
  finite64 c.a0 && finite64 c.a1 && finite64 c.a2 && finite64 c.a3 && finite64 c.a4
    && finite64 c.b1 && finite64 c.b2 && finite64 c.b3 && finite64 c.b4

/-- Eight history registers that are zeros of either sign (R109). -/
def FilterState.silent (h : FilterState) : Bool :=
  zero64 h.x1 && zero64 h.x2 && zero64 h.x3 && zero64 h.x4
    && zero64 h.y1 && zero64 h.y2 && zero64 h.y3 && zero64 h.y4

/-- An all-pass history of zeros of either sign. -/
def PhaseState.silent (h : PhaseState) : Bool :=
  zero64 h.lx1 && zero64 h.lx2 && zero64 h.lx3 && zero64 h.lx4
    && zero64 h.ly1 && zero64 h.ly2 && zero64 h.ly3 && zero64 h.ly4

/-- A delay line every slot of which holds a zero of either sign. -/
def DelayLine.silent (l : DelayLine) : Bool := l.buf.all fun e => zero32 e.2

/-- The four coefficient sets RESET computes for a rate in the instance `q`, each of its fixed kind and cutoff (R16). -/
def setsForRate (q : Params) (rate : BitVec 32) : Vector CoefSet 4 :=
  #v[highPassSet q cutoff[0] rate, lowPassSet q cutoff[1] rate, highPassSet q cutoff[2] rate,
     lowPassSet q cutoff[3] rate]

/-- The two values that "hold for the default and for every faithful library" (R91): `Pow64(2.0, 4.0)` and
`Sqrt64(2.0)`. -/
def Params.faithful (q : Params) : Bool :=
  pow64 q 0x4000000000000000 0x4010000000000000 == 0x4030000000000000
    && sqrt64 q 0x4000000000000000 == 0x3FF6A09E667F3BCD

/-- The decoder state of R10, less `STATUS` and the host's buffers: what a later PROCESS depends on. -/
structure Decoder where
  sampleRate : BitVec 32
  initialized : Bool
  rateDirty : Bool
  delayLen : Nat
  k : Vector CoefSet 4
  f : Vector FilterState 7
  p : Vector PhaseState 4
  d : Vector DelayLine 2
  deriving DecidableEq, Repr

/-- The decoder state in a machine state. -/
def State.decoder (s : State) : Decoder :=
  ⟨s.sampleRate, s.initialized, s.rateDirty, s.delayLen, s.k, s.f, s.p, s.d⟩

/-! ### Runs -/

/-- R175: no command of the run has been rejected since hardware reset. -/
def State.noFaultRecorded (s : State) : Bool := s.status == 0

/-- The next step is a hardware reset. -/
def State.resetPending (s : State) : Bool := s.unitBus.isEmpty && s.port.head? == some .hardwareReset

/-- The next step executes the command word `w`, `rest` coming after it. -/
def State.commandPending (s : State) (w : CommandWord) (rest : List HostEvent) : Prop :=
  s.unitBus = [] ∧ s.port = .command w :: rest

/-- R22 item 6: the four phase-shift states hold the same flag and, once set up, the same sweep registers. -/
def State.lockstep (s : State) : Prop :=
  ∀ i j : Fin 4, s.p[i].init = s.p[j].init ∧
    (s.p[i].init = true → s.p[i].wp = s.p[j].wp ∧ s.p[i].minWp = s.p[j].minWp ∧
      s.p[i].maxWp = s.p[j].maxWp ∧ s.p[i].sweepUp = s.p[j].sweepUp ∧ s.p[i].sweep = s.p[j].sweep)

/-- The host's premise for `n` frames (R47), in its own words: `IN[0..2n-1]` defined, `OUT[0..6n-1]`
writable. -/
def State.buffersSupplied (s : State) (n : Nat) : Prop :=
  (∀ i, i < 2 * n → (Memory.peek s.inBuf i).isSome = true) ∧ 6 * n ≤ s.outSize

/-- PROCESS is acceptable: `n >= 0`, not stale, and if its implicit reset is due, the rate allows one
(R145, R172). -/
def State.accepts (s : State) (n : BitVec 32) : Prop :=
  0 ≤ n.toInt ∧ (s.initialized = true → s.rateDirty = false) ∧
    (s.initialized = false → 50 ≤ s.sampleRate.toInt)

/-! ### The microprograms -/

/-- The 18 words of RESET, in issue order (R144). -/
def resetWords : List UnitWord :=
  [0x3100, 0x1200, 0x1110, 0x1220, 0x1130, 0x1000, 0x1010, 0x1020, 0x1030, 0x1040, 0x1050, 0x1060,
   0x2000, 0x2010, 0x2020, 0x2030, 0x3000, 0x3010]

/-- The 13 words of a frame, in issue order (R147). -/
def frameWords : List UnitWord :=
  [0x1300, 0x1311, 0x1322, 0x2301, 0x1332, 0x2310, 0x3300, 0x1342, 0x2321, 0x1352, 0x2330, 0x3310, 0x1363]

/-- One step with the word `w` alone on the unit bus; none where it does not answer a next state. -/
def issueWord (s : State) (w : UnitWord) : Option State :=
  match step { s with unitBus := [w] } with
  | .next t => some t
  | .fault _ => none
  | .refused _ => none

/-- The same with `u_in` driven (R147's `OP(u)`). -/
def issueWith (w : UnitWord) (u : B32) (s : State) : Option State := issueWord { s with uIn := u } w

/-- A frame issues its 13 words one by one (R147), each with the sample given here on `u_in`: the mid signal
`m`, the main and cross components of the two inputs, and the sums `sumL`, `sumR` of the rear paths; the
fronts `fl`, `fr` and the results go to `OUT`. -/
def State.frameIssues (s : State) (m lMain rCross lCross rMain fl fr : B32) (sumL sumR : B32 → B32 → B32) :
    Prop :=
  ∃ s1 s2 s3 s4 s5 s6 s7 s8 s9 s10 s11 s12 s13 : State,
    issueWith 0x1300 m { s with draws := s.draws + 32 } = some s1 ∧
    issueWith 0x1311 s1.uOut s1 = some s2 ∧
    issueWith 0x1322 lMain s2 = some s3 ∧
    issueWith 0x2301 s3.uOut s3 = some s4 ∧
    issueWith 0x1332 rCross s4 = some s5 ∧
    issueWith 0x2310 s5.uOut s5 = some s6 ∧
    issueWith 0x3300 (sumL s4.uOut s6.uOut) s6 = some s7 ∧
    issueWith 0x1342 lCross s7 = some s8 ∧
    issueWith 0x2321 s8.uOut s8 = some s9 ∧
    issueWith 0x1352 rMain s9 = some s10 ∧
    issueWith 0x2330 s10.uOut s10 = some s11 ∧
    issueWith 0x3310 (sumR s9.uOut s11.uOut) s11 = some s12 ∧
    issueWith 0x1363 m s12 = some s13 ∧
    s.frame = { s13 with
      frameIdx := s.frameIdx + 1
      outBuf := [
          (0, sat16 (Config.satDraw (s.draws + 10)) fl),
          (1, sat16 (Config.satDraw (s.draws + 11)) fr),
          (2, sat16 (Config.satDraw (s.draws + 12)) s2.uOut),
          (3, sat16 (Config.satDraw (s.draws + 13)) s13.uOut),
          (4, sat16 (Config.satDraw (s.draws + 14)) s7.uOut),
          (5, sat16 (Config.satDraw (s.draws + 15)) s12.uOut)].foldl
        (fun out e => Memory.poke out (6 * s.frameIdx + e.1) e.2) s.outBuf }

/-- The results of a sequence of `DL.PUSH d`, one for each input. -/
def pushAll (d : BitVec 4) : List B32 → State → Option (List B32)
  | [], _ => some []
  | u :: us, s =>
    match exec (.dlPush d) { s with uIn := u } with
    | .next t => (pushAll d us t).map (t.uOut :: ·)
    | .fault _ => none
    | .refused _ => none

/-! ### The invariant -/

/-- The invariants of R22 and of the model's own data (canonical memories, an idle bus between commands). -/
structure State.Inv (s : State) : Prop where
  /-- The instance exists (R7, R190). -/
  instanceValid : s.params.valid = true
  /-- Its library is a faithful one (R91). -/
  libraryFaithful : s.params.faithful = true
  /-- R22 item 1. -/
  delayBounded : s.delayLen ≤ s.params.maxDelay
  /-- R22 item 2. -/
  ready : s.initialized = true →
    1 ≤ s.delayLen ∧ ∀ d : Fin 2, s.d[d].cursor < s.delayLen
  /-- R22 item 3. -/
  setsCurrent : s.initialized = true → s.rateDirty = false →
    s.k = setsForRate s.params s.sampleRate ∧ s.delayLen = delayLength s.params.maxDelay s.sampleRate
  /-- R22 item 4. -/
  ratePositive : 0 < s.sampleRate.toInt
  /-- R22 item 5; the reciprocal of a NaN factor is a drawn NaN. -/
  sweepDirection : ∀ p : Fin 4, s.p[p].init = true →
    s.p[p].sweep = s.p[p].sweepUp ∨ ∃ t, s.p[p].sweep = fdivIn s.params.psFmt t one64 s.p[p].sweepUp
  /-- R22 item 6, for the flags: the sweep registers agree too unless one is a NaN (`State.lockstep`). -/
  initsEqual : ∀ p : Fin 4, s.p[p].init = s.p[0].init
  /-- R135: the two cursors are equal at every command boundary. -/
  cursorsEqual : s.d[0].cursor = s.d[1].cursor
  /-- R21: a cursor names a slot of its array. -/
  cursorInArray : ∀ d : Fin 2, s.d[d].cursor < s.params.maxDelay
  /-- A delay array is in canonical form and within its size. -/
  arraysCanonical : ∀ d : Fin 2,
    Memory.wfZ s.d[d].buf = true ∧ Memory.below s.params.maxDelay s.d[d].buf = true
  /-- `IN` is in canonical form. -/
  inCanonical : Memory.wf s.inBuf = true
  /-- `OUT` is in canonical form and within the writable elements. -/
  outCanonical : Memory.wf s.outBuf = true ∧ Memory.below s.outSize s.outBuf = true
  /-- No micro-operation word waits between commands (R71). -/
  busIdle : s.unitBus = []

end Sys2Proof.Machine
end

