-- ==== Sys2Proof/Certificates/Slice0/Obligations.lean ====
section
/-! DEFINITION. The statements for the provers. Each docstring names the rules it formalises, and any choice
of the model's own it rests on. -/

open Sys2Proof Sys2Proof.Machine

/-! ### Encoding -/

/-- R62, R67, R68, R74: decoding an encoded well-formed instruction gives it back. -/
def Obligations.DecodeEncodeRoundTrip : Prop :=
  ∀ i : Instr, i.wellFormed = true → decode (encode i) = .ok i

/-- R60 to R70: a word that decodes is the encoding of the instruction it decodes to, which is well-formed:
each instruction has one word. -/
def Obligations.DecodedWordIsTheEncoding : Prop :=
  ∀ (w : PortWord) (i : Instr), decode w = .ok i → i.wellFormed = true ∧ encode i = w

/-- R74, whole: the decoding of a host word by its fields, the encoding as its inverse, and the examples. -/
def Obligations.HostWordDecoding : Prop :=
  (∀ w : BitVec 64,
    (w.extractLsb 55 32 ≠ 0#24 → ∃ e, decodeH64 w = .error e) ∧
    (w.extractLsb 55 32 = 0#24 →
      (w.extractLsb 63 56 = 0x01#8 → decodeH64 w = .ok (.setrate (w.extractLsb 31 0))) ∧
      (w.extractLsb 63 56 = 0x02#8 →
        (w.extractLsb 31 0 = 0#32 → decodeH64 w = .ok .reset) ∧
        (w.extractLsb 31 0 ≠ 0#32 → ∃ e, decodeH64 w = .error e)) ∧
      (w.extractLsb 63 56 = 0x03#8 → decodeH64 w = .ok (.process (w.extractLsb 31 0))) ∧
      (w.extractLsb 63 56 ≠ 0x01#8 → w.extractLsb 63 56 ≠ 0x02#8 → w.extractLsb 63 56 ≠ 0x03#8 →
        ∃ e, decodeH64 w = .error e))) ∧
  (∀ r : BitVec 32, encode (.setrate r) = .h64 (0x01#64 <<< 56 ||| r.zeroExtend 64)) ∧
  encode .reset = .h64 0x0200000000000000#64 ∧
  (∀ n : BitVec 32, encode (.process n) = .h64 (0x03#64 <<< 56 ||| n.zeroExtend 64)) ∧
  decodeH64 0x010000000000BB80#64 = .ok (.setrate 48000#32) ∧
  decodeH64 0x0100000000017700#64 = .ok (.setrate 96000#32) ∧
  decodeH64 0x01000000FFFFFFFF#64 = .ok (.setrate (BitVec.ofInt 32 (-1))) ∧
  decodeH64 0x03000000000003E8#64 = .ok (.process 1000#32) ∧
  decodeH64 0x0300000000000000#64 = .ok (.process 0#32) ∧
  decodeH64 0x03000000FFFFFFFF#64 = .ok (.process (BitVec.ofInt 32 (-1)))

/-- R144, R147: the words of the two microprograms, written out in hexadecimal, are the micro-operations
those rules name. -/
def Obligations.MicroprogramWordsDecode : Prop :=
  resetWords.map decodeU16 =
    [.ok .dlCfg, .ok (.bqHpc 0), .ok (.bqLpc 1), .ok (.bqHpc 2), .ok (.bqLpc 3), .ok (.bqClr 0),
     .ok (.bqClr 1), .ok (.bqClr 2), .ok (.bqClr 3), .ok (.bqClr 4), .ok (.bqClr 5), .ok (.bqClr 6),
     .ok (.psClr 0), .ok (.psClr 1), .ok (.psClr 2), .ok (.psClr 3), .ok (.dlClr 0), .ok (.dlClr 1)] ∧
  frameWords.map decodeU16 =
    [.ok (.bqApply 0 0), .ok (.bqApply 1 1), .ok (.bqApply 2 2), .ok (.psApply 0 true), .ok (.bqApply 3 2),
     .ok (.psApply 1 false), .ok (.dlPush 0), .ok (.bqApply 4 2), .ok (.psApply 2 true),
     .ok (.bqApply 5 2), .ok (.psApply 3 false), .ok (.dlPush 1), .ok (.bqApply 6 3)]

/-- R70: a `U16` word that no row of R67 within R68's ranges generates is reserved: a step that finds one is
refused by name; and the two microprograms issue none. -/
def Obligations.ReservedUnitWordRefused : Prop :=
  (∀ (s : State) (w : UnitWord) (rest : List UnitWord), s.unitBus = w :: rest →
    (∀ i : Instr, i.wellFormed = true → encode i ≠ .u16 w) → step s = .refused .reservedMicroOp) ∧
  ∀ w ∈ resetWords ++ frameWords, ∃ i : Instr, i.wellFormed = true ∧ encode i = .u16 w

/-- R68, R70: an instruction with an index out of range, which no word encodes, is refused by name. -/
def Obligations.IndexOutOfRangeRefused : Prop :=
  ∀ (i : Instr) (s : State), i.wellFormed = false → exec i s = .refused .reservedMicroOp

/-! ### The step and the host -/

/-- R60, R140: a step takes the word off its port and runs the instruction it decodes to, and does nothing
around it. That a micro-operation word on the unit bus is a step of its own, and that it goes before the command
port, is the model's choice (DESIGN CHOICE, log 7). -/
def Obligations.StepRunsDecodedInstruction : Prop :=
  (∀ (s : State) (w : CommandWord) (rest : List HostEvent) (i : Instr), s.commandPending w rest →
    decode (.h64 w) = .ok i → step s = exec i { s with port := rest }) ∧
  (∀ (s : State) (w : UnitWord) (rest : List UnitWord) (i : Instr), s.unitBus = w :: rest →
    decode (.u16 w) = .ok i → step s = exec i { s with unitBus := rest })

/-- R167, R69: an illegal command word raises `E_OP`, whatever the state, and has no other effect. -/
def Obligations.IllegalWordRaisesEOp : Prop :=
  ∀ (s : State) (w : CommandWord) (rest : List HostEvent), s.commandPending w rest →
    ((w.extractLsb 63 56 ≠ 0x01#8 ∧ w.extractLsb 63 56 ≠ 0x02#8 ∧ w.extractLsb 63 56 ≠ 0x03#8) ∨
      w.extractLsb 55 32 ≠ 0#24 ∨ (w.extractLsb 63 56 = 0x02#8 ∧ w.extractLsb 31 0 ≠ 0#32)) →
    step s = .next { s with
      port := rest
      status := s.status ||| 0b00001#5
      response := some ⟨true, 0#3, s.status ||| 0b00001#5⟩
      cpc := s.cpc + 1 }

/-- R6, R73, R180: what the host does between commands. An idle decoder keeps all state; FILL supplies `IN`
element by element; either action is then off the port, which is the host's queue (log 7). That a FILL replaces
the whole of `IN`, and that a supplied `OUT` has its size and no content, is the model's choice (DESIGN CHOICE,
log 17). -/
def Obligations.HostActionsBetweenCommands : Prop :=
  (∀ s : State, s.unitBus = [] → s.port = [] → step s = .next s) ∧
  (∀ (s : State) (vals : List Sample) (rest : List HostEvent), s.unitBus = [] →
    s.port = .fillIn vals :: rest →
    ∃ t, step s = .next t ∧ (∀ i, Memory.peek t.inBuf i = vals[i]?) ∧ t.port = rest ∧
      { t with inBuf := s.inBuf, port := s.port } = s) ∧
  (∀ (s : State) (size : Nat) (rest : List HostEvent), s.unitBus = [] →
    s.port = .provideOut size :: rest →
    ∃ t, step s = .next t ∧ t.outSize = size ∧ (∀ i, t.readOut i = none) ∧ t.port = rest ∧
      { t with outBuf := s.outBuf, outSize := s.outSize, port := s.port } = s)

/-- R190, R191, R192: hardware reset loads `RATE0` and clears `Initialized`, `RateDirty`, `STATUS` and `cpc`; a
second one gives the state of the first; and an instance exists exactly where its parameters allow one.
What R190 leaves unspecified is the model's choice (log 3, log 4), and so is that the host's buffers and its
queue of words stay (DEDUCED, log 16; R28 calls `IN` and `OUT` unspecified there). -/
def Obligations.HardwareResetState : Prop :=
  (∀ (s : State) (rest : List HostEvent), s.unitBus = [] → s.port = .hardwareReset :: rest →
    ∃ t, step s = .next t ∧ t.sampleRate = s.params.rate0 ∧ t.initialized = false ∧ t.rateDirty = false ∧
      t.status = 0#5 ∧ t.cpc = 0 ∧ t.params = s.params ∧ t.inBuf = s.inBuf ∧ t.outBuf = s.outBuf ∧
      t.outSize = s.outSize ∧ t.port = rest ∧
      { t with inBuf := [], outBuf := [], outSize := 0, port := [], draws := 0 } =
        State.afterHardwareReset s.params) ∧
  ∀ q : Params,
    (q.rate0.toInt ≤ 0 ∨ q.maxDelay < 480 → State.construct q = none) ∧
    (0 < q.rate0.toInt → 480 ≤ q.maxDelay → State.construct q = some (State.afterHardwareReset q))

/-! ### The invariant -/

/-- R22: the invariants hold right after hardware reset of every instance with a faithful library (R91), and so
at the model's reset (whose values for what R28 leaves unspecified are the model's choice, log 3). -/
def Obligations.InvAtHardwareReset : Prop :=
  State.reset.Inv ∧ ∀ q : Params, q.valid = true → q.faithful = true → (State.afterHardwareReset q).Inv

/-- R22, R124, R135: every step keeps the invariants of R22 (items 1 to 5, and of item 6 that the four flags
agree), a faithful library (R91), equal cursors inside their arrays, canonical memories and an idle unit bus. -/
def Obligations.EveryStepKeepsInv : Prop :=
  ∀ s t : State, s.Inv → step s = .next t → t.Inv

/-- R175, U2: from a state that meets the invariants, a step stops only where the host broke the buffer
contract of an acceptable PROCESS. -/
def Obligations.NothingStopsWithinTheContract : Prop :=
  ∀ s : State, s.Inv →
    (∀ w rest n, s.commandPending w rest → decode (.h64 w) = .ok (.process n) → 0 ≤ n.toInt →
      s.buffersFit n.toInt.toNat = true) →
    ∃ t, step s = .next t

/-! ### SETRATE and RESET -/

/-- R142, R168: SETRATE with a positive operand stores it and sets `RateDirty`, and touches nothing else;
otherwise it is rejected with `E_RATE`. That a rejection leaves the unit bus empty, which it is between
commands, is the model's reading (DEDUCED, log 8). -/
def Obligations.SetrateStoresOrRejects : Prop :=
  ∀ (rate : BitVec 32) (s : State),
    (0 < rate.toInt → exec (.setrate rate) s = .next { s with
      sampleRate := rate
      rateDirty := true
      response := some ⟨false, 0#3, s.status⟩
      cpc := s.cpc + 1 }) ∧
    (rate.toInt ≤ 0 → exec (.setrate rate) s = .next { s with
      status := s.status ||| 0b00010#5
      response := some ⟨true, 1#3, s.status ||| 0b00010#5⟩
      cpc := s.cpc + 1
      unitBus := [] })

/-- R143, R131: RESET at a rate of at least 50 Hz leaves every piece of derived state as the RESET column of
R28 says, and every other register as it was; a second RESET changes nothing more. -/
def Obligations.ResetInitialisesDerivedState : Prop :=
  ∀ s : State, 50 ≤ s.sampleRate.toInt →
    exec .reset s = .next { s with
      delayLen := min ((s.sampleRate.toInt + 50) / 100).toNat s.params.maxDelay
      k := setsForRate s.params s.sampleRate
      f := Vector.replicate 7 FilterState.zero
      p := Vector.replicate 4 PhaseState.zero
      d := Vector.replicate 2 DelayLine.zero
      initialized := true
      rateDirty := false
      response := some ⟨false, 0#3, s.status⟩
      cpc := s.cpc + 1 } ∧
    ∀ t, exec .reset s = .next t → exec .reset t = .next { t with cpc := t.cpc + 1 }

/-- R143, R144: RESET is its 18 micro-operation words issued one by one, then the two flags and the response.
The clause below 50 Hz is the model's reading: a DL.CFG alone on the unit bus takes the whole exception entry,
as RESET does (DEDUCED, log 8), and the rates from 0 down, which no run holds, are treated as 1 to 49 are
(DESIGN CHOICE, log 20). -/
def Obligations.ResetRunsItsMicroprogram : Prop :=
  ∀ s : State, s.unitBus = [] →
    (50 ≤ s.sampleRate.toInt →
      ∃ u, resetWords.foldlM issueWord s = some u ∧
        exec .reset s = .next { u with
          initialized := true
          rateDirty := false
          response := some ⟨false, 0#3, s.status⟩
          cpc := s.cpc + 1 }) ∧
    (s.sampleRate.toInt < 50 → exec .reset s = step { s with unitBus := [0x3100#16] })

/-- R171: at a rate below 50 Hz an explicit RESET, and a PROCESS that is due its implicit one, is rejected
with `E_ZERODELAY`, nothing having been written. R171 speaks of the rates 1 to 49: that the rates from 0 down,
which no run holds, are rejected too is the model's choice (DESIGN CHOICE, log 20); so is the empty unit bus
after a rejection (DEDUCED, log 8). -/
def Obligations.ZeroDelayRejected : Prop :=
  ∀ s : State, s.sampleRate.toInt < 50 →
    exec .reset s = .next { s with
      status := s.status ||| 0b10000#5
      response := some ⟨true, 4#3, s.status ||| 0b10000#5⟩
      cpc := s.cpc + 1
      unitBus := [] } ∧
    ∀ n : BitVec 32, s.initialized = false → 0 ≤ n.toInt → (n ≠ 0#32 ∨ s.params.p0Resets = true) →
      exec (.process n) s = .next { s with
        status := s.status ||| 0b10000#5
        response := some ⟨true, 4#3, s.status ||| 0b10000#5⟩
        cpc := s.cpc + 1
        unitBus := [] }

/-! ### PROCESS -/

/-- R169, R170: PROCESS with a negative count is rejected with `E_COUNT`, whatever the state; otherwise, between
an accepted SETRATE and the RESET it calls for, with `E_STALE`. The empty unit bus after a rejection is the
model's reading (DEDUCED, log 8). -/
def Obligations.NegativeOrStaleProcessRejected : Prop :=
  ∀ (n : BitVec 32) (s : State),
    (n.toInt < 0 → exec (.process n) s = .next { s with
      status := s.status ||| 0b00100#5
      response := some ⟨true, 2#3, s.status ||| 0b00100#5⟩
      cpc := s.cpc + 1
      unitBus := [] }) ∧
    (0 ≤ n.toInt → s.initialized = true → s.rateDirty = true → exec (.process n) s = .next { s with
      status := s.status ||| 0b01000#5
      response := some ⟨true, 3#3, s.status ||| 0b01000#5⟩
      cpc := s.cpc + 1
      unitBus := [] })

/-- R146: the first PROCESS of a never-reset decoder behaves as RESET then PROCESS, the extra response and
the extra count of `cpc` apart. -/
def Obligations.FirstProcessActsAsResetThenProcess : Prop :=
  ∀ (n : BitVec 32) (s r : State), s.initialized = false → 0 ≤ n.toInt →
    (n ≠ 0#32 ∨ s.params.p0Resets = true) → 50 ≤ s.sampleRate.toInt → exec .reset s = .next r →
    exec (.process n) s = exec (.process n) { r with response := s.response, cpc := s.cpc }

/-- R155: `PROCESS 0` runs no frame. On a decoder that is reset and not stale it changes only the response
and the counters; on a never-reset one it leaves what RESET leaves, unless the instance has
`P0_RESETS = false`. What it does there is the model's reading (DEDUCED, log 2), and that the frame counter
ends at 0 is the model's choice (DESIGN CHOICE, log 18). -/
def Obligations.ProcessZeroRunsNoFrame : Prop :=
  ∀ s : State,
    (s.initialized = true → s.rateDirty = false → s.slotsPresent = true →
      exec (.process 0#32) s = .next { s with
        frameIdx := 0
        response := some ⟨false, 0#3, s.status⟩
        cpc := s.cpc + 1 }) ∧
    (s.initialized = false → s.params.p0Resets = true → s.params.valid = true →
      50 ≤ s.sampleRate.toInt →
      ∃ r, exec .reset s = .next r ∧ exec (.process 0#32) s = .next { r with frameIdx := 0 }) ∧
    (s.initialized = false → s.params.p0Resets = false →
      exec (.process 0#32) s = .next { s with
        response := some ⟨false, 0#3, s.status⟩
        cpc := s.cpc + 1 })

/-- R48, R145, R146: an acceptable PROCESS of `n > 0` frames with its buffers supplied completes. It runs FRAME(0) to
FRAME(n-1) in order and answers, from the state itself or, on a never-reset decoder, from the one RESET leaves
with its response and count taken back. (FRAME is `State.frame`, of which FrameIssuesItsMicroprogram and
FrameInDoublePrecisionMixer say what it does at the frame counter.) So it writes each of `OUT[0..6n-1]`, leaves
every element from `6n` on as it was, does not change `IN`, and leaves the decoder reset and not stale. Its frame:
the rate, `STATUS`, the parameters, the ports and the buffer size. That the frame counter ends at `n` is the
model's choice (DESIGN CHOICE, log 18). -/
def Obligations.ProcessWritesExactlyItsFrames : Prop :=
  ∀ (n : BitVec 32) (s : State), s.accepts n → n ≠ 0#32 → s.buffersFit n.toInt.toNat = true →
    (s.initialized = true → s.slotsPresent = true) → s.params.valid = true →
    ∃ s0 t, exec (.process n) s = .next t ∧
      (s.initialized = true → s0 = s) ∧
      (s.initialized = false → ∃ r, exec .reset s = .next r ∧
        s0 = { r with response := s.response, cpc := s.cpc }) ∧
      t = { State.frame^[n.toInt.toNat] { s0 with frameIdx := 0 } with
        response := some ⟨false, 0#3, s.status⟩
        cpc := s.cpc + 1 } ∧
      (∀ j, j < 6 * n.toInt.toNat → (t.readOut j).isSome = true) ∧
      (∀ j, 6 * n.toInt.toNat ≤ j → t.readOut j = s.readOut j) ∧
      t.inBuf = s.inBuf ∧ t.outSize = s.outSize ∧ t.initialized = true ∧ t.rateDirty = false ∧
      t.sampleRate = s.sampleRate ∧ t.status = s.status ∧ t.params = s.params ∧ t.port = s.port ∧
      t.unitBus = s.unitBus ∧ t.response = some ⟨false, 0#3, s.status⟩ ∧ t.cpc = s.cpc + 1 ∧
      t.frameIdx = n.toInt.toNat ∧
      (s.initialized = true → t.k = s.k ∧ t.delayLen = s.delayLen) ∧
      (s.initialized = false → t.k = setsForRate s.params s.sampleRate ∧
        t.delayLen = min ((s.sampleRate.toInt + 50) / 100).toNat s.params.maxDelay)

/-- R47, U2: an acceptable PROCESS whose buffers the host did not supply is refused by name: no claim is made
of such a run. -/
def Obligations.ShortBuffersRefused : Prop :=
  ∀ (n : BitVec 32) (s : State), s.accepts n → n ≠ 0#32 → ¬ s.buffersSupplied n.toInt.toNat →
    exec (.process n) s = .refused .bufferContract

/-- R147, in the decided format `MIX_FMT` = binary32: the per-frame step reads `IN[2i]` and `IN[2i+1]`, issues its
13 micro-operation words, each with the sample the rule gives it on `u_in`, and writes the six results,
saturated, to `OUT[6i..6i+5]` in channel order; then the frame counter advances (`State.frameIssues`). The
occurrence numbers only say which draw a NaN takes (log 6). -/
def Obligations.FrameIssuesItsMicroprogram : Prop :=
  ∀ (s : State) (t : Nat) (l r : B32), s.unitBus = [] → s.slotsPresent = true → s.params.mixFmt = .b32 →
    t = s.draws → l = f32OfI16 (s.readIn (2 * s.frameIdx)) → r = f32OfI16 (s.readIn (2 * s.frameIdx + 1)) →
    s.frameIssues (fmul32 (nan32 t) (fadd32 (nan32 (t + 1)) l r) kCenter)
      (fmul32 (nan32 (t + 3)) l kMain) (fmul32 (nan32 (t + 4)) r kCross)
      (fmul32 (nan32 (t + 6)) l kCross) (fmul32 (nan32 (t + 7)) r kMain)
      (fmul32 (nan32 (t + 8)) l half32) (fmul32 (nan32 (t + 9)) r half32)
      (fadd32 (nan32 (t + 2))) (fadd32 (nan32 (t + 5)))

/-- R7: the same frame in an instance with `MIX_FMT` = binary64. What that format makes of the mixer's own
products and sums is the model's choice (DESIGN CHOICE, log 14): each is taken on the operands widened, and
narrowed where it becomes a `b32` sample, the mid signal's sum staying a `b64`. Any quiet NaN may stand where
one arises. -/
def Obligations.FrameInDoublePrecisionMixer : Prop :=
  ∀ (s : State) (l r : B32), s.unitBus = [] → s.slotsPresent = true → s.params.mixFmt = .b64 →
    l = f32OfI16 (s.readIn (2 * s.frameIdx)) → r = f32OfI16 (s.readIn (2 * s.frameIdx + 1)) →
    ∃ (q : Nat → B64) (e : Nat → B32), (∀ j, quiet64 (q j) = true) ∧ (∀ j, quiet32 (e j) = true) ∧
      let wide (j : Nat) : B32 → B64 := f64OfF32 (q j)
      let mul (j : Nat) (a b : B32) : B32 := f32OfF64 (e j) (fmul64 (q j) (wide j a) (wide j b))
      let add (j : Nat) (a b : B32) : B32 := f32OfF64 (e j) (fadd64 (q j) (wide j a) (wide j b))
      s.frameIssues
        (f32OfF64 (e 0) (fmul64 (q 0) (fadd64 (q 1) (wide 1 l) (wide 1 r)) (wide 0 kCenter)))
        (mul 3 l kMain) (mul 4 r kCross) (mul 6 l kCross) (mul 7 r kMain) (mul 8 l half32) (mul 9 r half32)
        (add 2) (add 5)

/-- R150: the fronts are half the inputs, truncated toward zero, in every frame of every accepted PROCESS. -/
def Obligations.FrontsAreHalvedInputs : Prop :=
  ∀ (n : BitVec 32) (s t : State), s.accepts n → exec (.process n) s = .next t →
    ∀ i, i < n.toInt.toNat →
      t.readOut (6 * i) = some (BitVec.ofInt 16 ((s.readIn (2 * i)).toInt.tdiv 2)) ∧
      t.readOut (6 * i + 1) = some (BitVec.ofInt 16 ((s.readIn (2 * i + 1)).toInt.tdiv 2))

/-- R158: with `F[0]`, `F[1]`, `F[6]` silent (as RESET leaves them), finite `K[0]`, `K[1]`, `K[3]` and an input
whose channels cancel in every frame, the centre and LFE outputs are 0 in every frame and the three
filters stay silent. -/
def Obligations.OutOfPhaseInputSilencesCentre : Prop :=
  ∀ (n : BitVec 32) (s t : State), s.initialized = true → s.rateDirty = false → 0 ≤ n.toInt →
    exec (.process n) s = .next t →
    s.f[0].silent = true → s.f[1].silent = true → s.f[6].silent = true →
    s.k[0].finite = true → s.k[1].finite = true → s.k[3].finite = true →
    (∀ i, i < n.toInt.toNat → (s.readIn (2 * i)).toInt + (s.readIn (2 * i + 1)).toInt = 0) →
    (∀ i, i < n.toInt.toNat →
      t.readOut (6 * i + 2) = some 0#16 ∧ t.readOut (6 * i + 3) = some 0#16) ∧
    t.f[0].silent = true ∧ t.f[1].silent = true ∧ t.f[6].silent = true

/-- R159: from silent histories and delay lines (as RESET leaves them), finite coefficient sets, and finite
phase-shift coefficients in every frame, all-zero input gives all-zero output from the first frame on,
and everything stays silent. -/
def Obligations.SilenceStaysSilent : Prop :=
  ∀ (n : BitVec 32) (s t : State), s.initialized = true → s.rateDirty = false → 0 ≤ n.toInt →
    exec (.process n) s = .next t →
    (∀ i : Fin 7, s.f[i].silent = true) → (∀ i : Fin 4, s.p[i].silent = true) →
    (∀ i : Fin 2, s.d[i].silent = true) → (∀ i : Fin 4, s.k[i].finite = true) →
    (∀ j, j < 2 * n.toInt.toNat → s.readIn j = 0#16) →
    (∀ j, j < n.toInt.toNat → ∀ (i : Fin 4) (q : Nat),
      finite64 (phaseCoef s.params.psFmt q
        (phaseSetUp s.params q s.sampleRate ((s.atFrame 0).frames j).p[i]).wp) = true) →
    (∀ j, j < 6 * n.toInt.toNat → t.readOut j = some 0#16) ∧
    (∀ i : Fin 7, t.f[i].silent = true) ∧ (∀ i : Fin 4, t.p[i].silent = true) ∧
    (∀ i : Fin 2, t.d[i].silent = true)

/-- R134, R147, S6: on cleared delay lines the rear outputs of the first `DelayLen` frames are 0, whatever the
input. -/
def Obligations.RearSilentUntilDelayLen : Prop :=
  ∀ (n : BitVec 32) (s t : State), s.initialized = true → s.rateDirty = false → 0 ≤ n.toInt →
    exec (.process n) s = .next t → s.d[0] = DelayLine.zero → s.d[1] = DelayLine.zero →
    ∀ i, i < n.toInt.toNat → i < s.delayLen →
      t.readOut (6 * i + 4) = some 0#16 ∧ t.readOut (6 * i + 5) = some 0#16

/-- R156: `PROCESS a` then `PROCESS b` on the rest of the input write the frames that one `PROCESS (a + b)`
writes and leave the same decoder state. That this holds of NaNs too rests on the model's numbering of the
draws by operation, not by command (log 6). -/
def Obligations.StreamingSplit : Prop :=
  ∀ (a b c : BitVec 32) (xs ys : List Sample) (size : Nat) (s s1 t : State),
    s.initialized = true → s.rateDirty = false → 0 ≤ a.toInt → 0 ≤ b.toInt →
    c.toInt = a.toInt + b.toInt → xs.length = 2 * a.toInt.toNat → ys.length = 2 * b.toInt.toNat →
    6 * b.toInt.toNat ≤ size → s.inBuf = Memory.ofListFrom 0 (xs ++ ys) →
    exec (.process a) s = .next s1 → exec (.process c) s = .next t →
    ∃ u, exec (.process b)
          { s1 with inBuf := Memory.ofListFrom 0 ys, outBuf := [], outSize := size } = .next u ∧
      u.decoder = t.decoder ∧
      (∀ j, j < 6 * a.toInt.toNat → t.readOut j = s1.readOut j) ∧
      (∀ j, j < 6 * b.toInt.toNat → t.readOut (6 * a.toInt.toNat + j) = u.readOut j)

/-- R157: after RESET, PROCESS depends on the rate, the parameters, `IN` and the draws alone: two machines
that agree on these give the same outputs and the same decoder state, whatever went before. The draws agree
where the model's count of them does (log 6). -/
def Obligations.ResetErasesHistory : Prop :=
  ∀ (n : BitVec 32) (s s' r r' t : State), s'.sampleRate = s.sampleRate → s'.params = s.params →
    s'.inBuf = s.inBuf → s'.outSize = s.outSize → s'.draws = s.draws →
    50 ≤ s.sampleRate.toInt → exec .reset s = .next r → exec .reset s' = .next r' →
    exec (.process n) r = .next t →
    ∃ t', exec (.process n) r' = .next t' ∧ t'.decoder = t.decoder ∧
      ∀ j, j < 6 * n.toInt.toNat → t'.readOut j = t.readOut j

/-! ### biquad_iir_filter -/

/-- R101: BQ.CLR zeroes the eight registers of `F[f]` and touches nothing else. -/
def Obligations.BqClrZeroesOneFilter : Prop :=
  ∀ (f : BitVec 4) (s : State) (_ : f.toNat < 7),
    exec (.bqClr f) s = .next { s with f := s.f.set f.toNat ⟨0, 0, 0, 0, 0, 0, 0, 0⟩ }

/-- R102, R27: BQ.LPC computes `K[k]` by the instance's `CoefGen`, whichever it is, at `CUTOFF[k]` (70, 20000, 100 and
120 Hz) clamped to 0.475 of the rate, and touches nothing else. The product cannot be a NaN, so the NaN it is
given does not matter. -/
def Obligations.BqLpcComputesClampedLowPass : Prop :=
  ∀ (k : BitVec 4) (s : State) (nan : B64) (_ : k.toNat < 4),
    let fs := f64OfI32 s.sampleRate
    let lim := fmul64 nan 0x3FDE666666666666 fs
    let cut : Vector B64 4 :=
      #v[0x4051800000000000, 0x40D3880000000000, 0x4059000000000000, 0x405E000000000000]
    let fc := if fgt64 cut[k.toNat] lim then lim else cut[k.toNat]
    exec (.bqLpc k) s = .next { s with k := s.k.set k.toNat (coefGen s.params .lp fc fs) }

/-- R103, R27: BQ.HPC computes `K[k]` by the instance's `CoefGen` at `CUTOFF[k]` (70, 20000, 100 and 120 Hz), with no
clamp, and touches nothing else. -/
def Obligations.BqHpcComputesHighPass : Prop :=
  ∀ (k : BitVec 4) (s : State) (_ : k.toNat < 4),
    let cut : Vector B64 4 :=
      #v[0x4051800000000000, 0x40D3880000000000, 0x4059000000000000, 0x405E000000000000]
    exec (.bqHpc k) s =
      .next { s with
        k := s.k.set k.toNat (coefGen s.params .hp cut[k.toNat] (f64OfI32 s.sampleRate)) }

/-- R107, R108: BQ.APPLY evaluates the difference equation left to right, shifts both histories of `F[f]`,
keeps the unrounded sum in `Y[1]` and returns it rounded to `b32`; nothing else changes but the model's
count of draws. Any quiet NaN may stand where one arises. -/
def Obligations.BqApplyFiltersOneSample : Prop :=
  ∀ (f k : BitVec 4) (s : State) (_ : f.toNat < 7) (_ : k.toNat < 4),
    ∃ (q : Nat → B64) (e : B32), (∀ j, quiet64 (q j) = true) ∧ quiet32 e = true ∧
      let h := s.f[f.toNat]
      let c := s.k[k.toNat]
      let x := f64OfF32 (q 0) s.uIn
      let y := fmul64 (q 1) c.a0 x
      let y := fadd64 (q 2) y (fmul64 (q 3) c.a1 h.x1)
      let y := fadd64 (q 4) y (fmul64 (q 5) c.a2 h.x2)
      let y := fadd64 (q 6) y (fmul64 (q 7) c.a3 h.x3)
      let y := fadd64 (q 8) y (fmul64 (q 9) c.a4 h.x4)
      let y := fsub64 (q 10) y (fmul64 (q 11) c.b1 h.y1)
      let y := fsub64 (q 12) y (fmul64 (q 13) c.b2 h.y2)
      let y := fsub64 (q 14) y (fmul64 (q 15) c.b3 h.y3)
      let y := fsub64 (q 16) y (fmul64 (q 17) c.b4 h.y4)
      exec (.bqApply f k) s = .next { s with
        f := s.f.set f.toNat ⟨x, h.x1, h.x2, h.x3, y, h.y1, h.y2, h.y3⟩
        uOut := f32OfF64 e y
        draws := s.draws + 32 }

/-- R109: a zero into a filter with a zero history and a finite coefficient set gives a zero, of either sign,
and leaves the history zero. -/
def Obligations.ZeroIntoSilentFilter : Prop :=
  ∀ (f k : BitVec 4) (s : State) (_ : f.toNat < 7) (_ : k.toNat < 4),
    zero32 s.uIn = true → s.f[f.toNat].silent = true → s.k[k.toNat].finite = true →
    ∃ t, exec (.bqApply f k) s = .next t ∧ zero32 t.uOut = true ∧ t.f[f.toNat].silent = true

/-! ### cascaded_allpass_phaseshift -/

/-- R116: PS.CLR zeroes the thirteen registers of `P[p]`, clears its flag and touches nothing else. -/
def Obligations.PsClrZeroesOnePhase : Prop :=
  ∀ (p : BitVec 4) (s : State) (_ : p.toNat < 4),
    exec (.psClr p) s = .next { s with
      p := s.p.set p.toNat ⟨0, 0, 0, 0, 0, 0, 0, 0, 0, 0, 0, 0, 0, false⟩ }

/-- R117 to R121, in the decided format `PS_FMT` = binary64: PS.APPLY sets the sweep registers up if the flag is
clear, runs the four all-pass stages with the coefficient of the `Wp` in force, returns stage 4's value, negated
if `v`, and advances the sweep; no other `P[q]` and nothing else changes but the model's count of draws. Any
quiet NaN may stand where one arises. -/
def Obligations.PsApplyShiftsOneSample : Prop :=
  ∀ (p : BitVec 4) (v : Bool) (s : State) (_ : p.toNat < 4),
    s.params.psFmt = .b64 →
    ∃ (q : Nat → B64) (e : B32), (∀ j, quiet64 (q j) = true) ∧ quiet32 e = true ∧
      let fs := f64OfI32 s.sampleRate
      let range := pow64 s.params 0x4000000000000000 0x4010000000000000
      let low := fdiv64 (q 0) (fmul64 (q 1) 0x400921FB54442D18 0x4059000000000000) fs
      let up := pow64 s.params range (fdiv64 (q 2) 0x3FB999999999999A (fdiv64 (q 3) fs 0x4000000000000000))
      let h := s.p[p.toNat]
      let h := if h.init then h else
        { h with
          minWp := low, wp := low, maxWp := fmul64 (q 4) low range, sweepUp := up, sweep := up,
          init := true }
      let one : B64 := 0x3FF0000000000000
      let c := fdiv64 (q 5) (fsub64 (q 6) one h.wp) (fadd64 (q 7) one h.wp)
      let x0 := f64OfF32 (q 8) s.uIn
      let y1 := fsub64 (q 9) (fmul64 (q 10) c (fadd64 (q 11) h.ly1 x0)) h.lx1
      let y2 := fsub64 (q 12) (fmul64 (q 13) c (fadd64 (q 14) h.ly2 y1)) h.lx2
      let y3 := fsub64 (q 15) (fmul64 (q 16) c (fadd64 (q 17) h.ly3 y2)) h.lx3
      let y4 := fsub64 (q 18) (fmul64 (q 19) c (fadd64 (q 20) h.ly4 y3)) h.lx4
      let w := fmul64 (q 21) h.wp h.sweep
      exec (.psApply p v) s = .next { s with
        p := s.p.set p.toNat
          { h with
            lx1 := x0, lx2 := y1, lx3 := y2, lx4 := y3, ly1 := y1, ly2 := y2, ly3 := y3, ly4 := y4,
            wp := w,
            sweep := if fgt64 w h.maxWp then fdiv64 (q 22) one h.sweepUp
              else if flt64 w h.minWp then h.sweepUp else h.sweep }
        uOut := f32OfF64 e (if v then fneg64 y4 else y4)
        draws := s.draws + 32 }

/-- R7: PS.APPLY in an instance with `PS_FMT` = binary32. What that format makes of the unit is the model's choice
(DESIGN CHOICE, log 14): a register holds the `b64` of its value, every operation is computed exactly and
rounded once to `b32` (`rnd`), the constants and the results of `Pow64` are narrowed, and the steps are those of
binary64. Any quiet NaN may stand where one arises. -/
def Obligations.PsApplyInSinglePrecision : Prop :=
  ∀ (p : BitVec 4) (v : Bool) (s : State) (_ : p.toNat < 4), s.params.psFmt = .b32 →
    ∃ (q : Nat → B64) (e : Nat → B32), (∀ j, quiet64 (q j) = true) ∧ (∀ j, quiet32 (e j) = true) ∧
      let rnd (j : Nat) (x : FVal) : B64 := f64OfF32 (q j) (round32 (e j) x)
      let add (j : Nat) (a b : B64) := rnd j (fvalAdd (fval64 a) (fval64 b))
      let sub (j : Nat) (a b : B64) := rnd j (fvalAdd (fval64 a) (fvalNeg (fval64 b)))
      let mul (j : Nat) (a b : B64) := rnd j (fvalMul (fval64 a) (fval64 b))
      let div (j : Nat) (a b : B64) := rnd j (fvalDiv (fval64 a) (fval64 b))
      let fs := rnd 0 (fval64 (f64OfI32 s.sampleRate))
      let range := rnd 23 (fval64 (pow64 s.params 0x4000000000000000 0x4010000000000000))
      let low := div 0 (mul 1 0x400921FB60000000 0x4059000000000000) fs
      let up := rnd 24 (fval64
        (pow64 s.params range (div 2 0x3FB99999A0000000 (div 3 fs 0x4000000000000000))))
      let h := s.p[p.toNat]
      let h := if h.init then h else
        { h with
          minWp := low, wp := low, maxWp := mul 4 low range, sweepUp := up, sweep := up, init := true }
      let one : B64 := 0x3FF0000000000000
      let c := div 5 (sub 6 one h.wp) (add 7 one h.wp)
      let x0 := f64OfF32 (q 8) s.uIn
      let y1 := sub 9 (mul 10 c (add 11 h.ly1 x0)) h.lx1
      let y2 := sub 12 (mul 13 c (add 14 h.ly2 y1)) h.lx2
      let y3 := sub 15 (mul 16 c (add 17 h.ly3 y2)) h.lx3
      let y4 := sub 18 (mul 19 c (add 20 h.ly4 y3)) h.lx4
      let w := mul 21 h.wp h.sweep
      exec (.psApply p v) s = .next { s with
        p := s.p.set p.toNat
          { h with
            lx1 := x0, lx2 := y1, lx3 := y2, lx4 := y3, ly1 := y1, ly2 := y2, ly3 := y3, ly4 := y4,
            wp := w,
            sweep := if fgt64 w h.maxWp then div 22 one h.sweepUp
              else if flt64 w h.minWp then h.sweepUp else h.sweep }
        uOut := f32OfF64 (e 0) (if v then fneg64 y4 else y4)
        draws := s.draws + 32 }

/-- R124, R22 item 6: the four phase-shift states are in lock-step at every command boundary, unless a sweep
register of the first comes out a NaN, whose bits are drawn apart; and each frame keeps them so, with the
flags set. -/
def Obligations.StepKeepsPhasesInLockstep : Prop :=
  (∀ s t : State, s.Inv → s.lockstep → step s = .next t →
    isNaN64 t.p[0].wp = false → isNaN64 t.p[0].sweep = false → t.lockstep) ∧
  ∀ (i : Nat) (l r : Sample) (s : State), s.lockstep → s.params.faithful = true →
    isNaN64 (s.mixFrame i l r).p[0].wp = false → isNaN64 (s.mixFrame i l r).p[0].sweep = false →
    (s.mixFrame i l r).lockstep ∧ ∀ j : Fin 4, (s.mixFrame i l r).p[j].init = true

/-! ### circular_delay_line -/

/-- R131, R171: DL.CFG sets `DelayLen` to the rounded hundredth of the rate, clamped to `MAX_DELAY`, and
touches nothing else; below 50 Hz it raises `E_ZERODELAY` and writes no `DelayLen`. That it rejects the command at
`cpc` when it is alone on the unit bus, and leaves that bus empty, is the model's reading (DEDUCED, log 8); that
the rates from 0 down, which no run holds, raise too is its choice (DESIGN CHOICE, log 20). -/
def Obligations.DlCfgSetsDelayLength : Prop :=
  ∀ s : State,
    (50 ≤ s.sampleRate.toInt → exec .dlCfg s = .next { s with
      delayLen := min ((s.sampleRate.toInt + 50) / 100).toNat s.params.maxDelay }) ∧
    (s.sampleRate.toInt < 50 → exec .dlCfg s = .next { s with
      status := s.status ||| 0b10000#5
      response := some ⟨true, 4#3, s.status ||| 0b10000#5⟩
      cpc := s.cpc + 1
      unitBus := [] })

/-- R132: after DL.CLR every slot of line `d` holds `+0.0` and its cursor is 0; the other line and everything
else are as they were. -/
def Obligations.DlClrZeroesOneLine : Prop :=
  ∀ (d : BitVec 4) (s : State) (_ : d.toNat < 2),
    ∃ t, exec (.dlClr d) s = .next t ∧ (∀ c, Memory.peekZ t.d[d.toNat].buf c = 0#32) ∧
      t.d[d.toNat].cursor = 0 ∧ t.d[1 - d.toNat] = s.d[1 - d.toNat] ∧ { t with d := s.d } = s

/-- R133: DL.PUSH returns the slot at the cursor, overwrites that slot bit for bit, and advances the cursor,
back to 0 from the last slot in use; every other slot, the other line and everything else are as they
were but the model's count of draws. -/
def Obligations.DlPushMovesOneSample : Prop :=
  ∀ (d : BitVec 4) (s : State) (_ : d.toNat < 2), 1 ≤ s.delayLen → s.delayLen ≤ s.params.maxDelay →
    s.d[d.toNat].cursor < s.delayLen → Memory.wf s.d[d.toNat].buf = true →
    ∃ t, exec (.dlPush d) s = .next t ∧
      t.uOut = Memory.peekZ s.d[d.toNat].buf s.d[d.toNat].cursor ∧
      Memory.peekZ t.d[d.toNat].buf s.d[d.toNat].cursor = s.uIn ∧
      (∀ c, c ≠ s.d[d.toNat].cursor →
        Memory.peekZ t.d[d.toNat].buf c = Memory.peekZ s.d[d.toNat].buf c) ∧
      t.d[d.toNat].cursor =
        (if s.d[d.toNat].cursor + 1 = s.delayLen then 0 else s.d[d.toNat].cursor + 1) ∧
      t.d[1 - d.toNat] = s.d[1 - d.toNat] ∧
      { t with d := s.d, uOut := s.uOut, draws := s.draws } = s

/-- The model's choices where R133's premise `Cursor < DelayLen` fails, which no run reaches (the statement
EveryStepKeepsInv). With `DelayLen = 0`, where the spec gives `mod 0` no meaning, DL.PUSH still moves its
sample and the new cursor is some slot of the array (log 9). A cursor that names no slot makes it fault, and
so does a PROCESS that would push (log 13). -/
def Obligations.DlPushOutsideItsPremise : Prop :=
  (∀ (d : BitVec 4) (s : State) (_ : d.toNat < 2), s.delayLen = 0 →
    s.d[d.toNat].cursor < s.params.maxDelay → Memory.wf s.d[d.toNat].buf = true →
    ∃ t, exec (.dlPush d) s = .next t ∧
      t.uOut = Memory.peekZ s.d[d.toNat].buf s.d[d.toNat].cursor ∧
      Memory.peekZ t.d[d.toNat].buf s.d[d.toNat].cursor = s.uIn ∧
      t.d[d.toNat].cursor < s.params.maxDelay ∧ t.d[1 - d.toNat] = s.d[1 - d.toNat] ∧
      { t with d := s.d, uOut := s.uOut, draws := s.draws } = s) ∧
  (∀ (d : BitVec 4) (s : State) (_ : d.toNat < 2), s.params.maxDelay ≤ s.d[d.toNat].cursor →
    exec (.dlPush d) s = .fault .delaySlotAbsent) ∧
  (∀ (n : BitVec 32) (s : State), 0 ≤ n.toInt → s.initialized = true → s.rateDirty = false →
    s.buffersFit n.toInt.toNat = true → s.slotsPresent = false →
    exec (.process n) s = .fault .delaySlotAbsent)

/-- R134: after DL.CLR the pushes on a line return `+0.0` for the first `DelayLen`, and then the inputs in
order: the delay is exactly `DelayLen`. -/
def Obligations.DelayIsExactlyDelayLen : Prop :=
  ∀ (d : BitVec 4) (s t : State) (us : List B32), d.toNat < 2 → 1 ≤ s.delayLen →
    s.delayLen ≤ s.params.maxDelay → exec (.dlClr d) s = .next t →
    pushAll d us t = some ((List.replicate s.delayLen 0#32 ++ us).take us.length)

/-! ### Numeric primitives -/

/-- R81, R83: a `b64` sum, difference or product of finite operands is the exact result rounded to nearest,
ties to even, overflow going to the infinity of the result's sign. A sum or difference that is zero is
`-0.0` only where both terms carry a minus sign; a product has the exclusive or of the signs. An infinite
operand gives an infinity. The invalid operations are in NaNResultIsTheDraw. -/
def Obligations.DoubleArithmeticRoundsToNearestEven : Prop :=
  (∀ (nan a b : B64) (p q : ℚ), rat64 a = some p → rat64 b = some q →
    Rounds64 (p + q) (fadd64 nan a b) ∧ Rounds64 (p - q) (fsub64 nan a b) ∧
    Rounds64 (p * q) (fmul64 nan a b) ∧
    (p + q = 0 → fadd64 nan a b = signedZero64 (a.msb && b.msb)) ∧
    (p - q = 0 → fsub64 nan a b = signedZero64 (a.msb && !b.msb)) ∧
    (fmul64 nan a b).msb = (a.msb ^^ b.msb)) ∧
  ∀ (nan b : B64) (n : Bool), isNaN64 b = false →
    (b ≠ infinity64 (!n) →
      fadd64 nan (infinity64 n) b = infinity64 n ∧ fadd64 nan b (infinity64 n) = infinity64 n ∧
      fsub64 nan b (infinity64 (!n)) = infinity64 n) ∧
    (b ≠ infinity64 n → fsub64 nan (infinity64 n) b = infinity64 n) ∧
    (zero64 b = false →
      fmul64 nan (infinity64 n) b = infinity64 (n ^^ b.msb) ∧
      fmul64 nan b (infinity64 n) = infinity64 (n ^^ b.msb))

/-- R81, R83: a `b64` quotient of finite operands, the divisor not zero, is the exact quotient rounded to
nearest, ties to even, overflow going to the infinity of the result's sign; its sign is the exclusive or of
the signs. A finite value over a zero is an infinity unless it is a zero itself, an infinity over a finite
value is an infinity, a finite value over an infinity is a zero, each of that sign. The invalid operations are
in NaNResultIsTheDraw. -/
def Obligations.DoubleDivisionRoundsToNearestEven : Prop :=
  (∀ (nan a b : B64) (p q : ℚ), rat64 a = some p → rat64 b = some q →
    (q ≠ 0 → Rounds64 (p / q) (fdiv64 nan a b) ∧ (fdiv64 nan a b).msb = (a.msb ^^ b.msb)) ∧
    (q = 0 → p ≠ 0 → fdiv64 nan a b = infinity64 (a.msb ^^ b.msb))) ∧
  ∀ (nan a : B64) (n : Bool), finite64 a = true →
    fdiv64 nan (infinity64 n) a = infinity64 (n ^^ a.msb) ∧
    fdiv64 nan a (infinity64 n) = signedZero64 (a.msb ^^ n)

/-- R81, R87: the same of `b32` sums, differences and products, and of the narrowing of a `b64`, which keeps the
sign, also of a zero, and the infinities. -/
def Obligations.SingleArithmeticRoundsToNearestEven : Prop :=
  (∀ (nan a b : B32) (p q : ℚ), rat32 a = some p → rat32 b = some q →
    Rounds32 (p + q) (fadd32 nan a b) ∧ Rounds32 (p - q) (fsub32 nan a b) ∧
    Rounds32 (p * q) (fmul32 nan a b) ∧
    (p + q = 0 → fadd32 nan a b = signedZero32 (a.msb && b.msb)) ∧
    (p - q = 0 → fsub32 nan a b = signedZero32 (a.msb && !b.msb)) ∧
    (fmul32 nan a b).msb = (a.msb ^^ b.msb)) ∧
  (∀ (nan b : B32) (n : Bool), isNaN32 b = false →
    (b ≠ infinity32 (!n) →
      fadd32 nan (infinity32 n) b = infinity32 n ∧ fadd32 nan b (infinity32 n) = infinity32 n ∧
      fsub32 nan b (infinity32 (!n)) = infinity32 n) ∧
    (b ≠ infinity32 n → fsub32 nan (infinity32 n) b = infinity32 n) ∧
    (zero32 b = false →
      fmul32 nan (infinity32 n) b = infinity32 (n ^^ b.msb) ∧
      fmul32 nan b (infinity32 n) = infinity32 (n ^^ b.msb))) ∧
  (∀ (nan : B32) (a : B64) (p : ℚ), rat64 a = some p → Rounds32 p (f32OfF64 nan a)) ∧
  (∀ (nan : B32) (a : B64), isNaN64 a = false → (f32OfF64 nan a).msb = a.msb) ∧
  ∀ (nan : B32) (n : Bool), f32OfF64 nan (infinity64 n) = infinity32 n

/-- R81, R82: an operand that is a NaN, and the invalid operations `inf - inf`, `0 * inf`, `0 / 0` and
`inf / inf`, make the result the drawn NaN; a draw is a quiet NaN, and every quiet NaN can be drawn. -/
def Obligations.NaNResultIsTheDraw : Prop :=
  (∀ nan a b : B64, isNaN64 a = true ∨ isNaN64 b = true →
    fadd64 nan a b = nan ∧ fsub64 nan a b = nan ∧ fmul64 nan a b = nan ∧ fdiv64 nan a b = nan) ∧
  (∀ nan a b : B32, isNaN32 a = true ∨ isNaN32 b = true →
    fadd32 nan a b = nan ∧ fsub32 nan a b = nan ∧ fmul32 nan a b = nan) ∧
  (∀ (nan : B64) (a : B32), isNaN32 a = true → f64OfF32 nan a = nan) ∧
  (∀ (nan : B32) (a : B64), isNaN64 a = true → f32OfF64 nan a = nan) ∧
  (∀ (nan : B64) (n m : Bool),
    fadd64 nan (infinity64 n) (infinity64 (!n)) = nan ∧ fsub64 nan (infinity64 n) (infinity64 n) = nan ∧
    fmul64 nan (signedZero64 n) (infinity64 m) = nan ∧ fmul64 nan (infinity64 n) (signedZero64 m) = nan ∧
    fdiv64 nan (signedZero64 n) (signedZero64 m) = nan ∧
    fdiv64 nan (infinity64 n) (infinity64 m) = nan) ∧
  (∀ (nan : B32) (n m : Bool),
    fadd32 nan (infinity32 n) (infinity32 (!n)) = nan ∧ fsub32 nan (infinity32 n) (infinity32 n) = nan ∧
    fmul32 nan (signedZero32 n) (infinity32 m) = nan ∧
    fmul32 nan (infinity32 n) (signedZero32 m) = nan) ∧
  (∀ x : B64, quiet64 x = true ↔ ∃ d, quietNaN64 d = x) ∧
  (∀ x : B32, quiet32 x = true ↔ ∃ d, quietNaN32 d = x)

/-- R85, R86: the widening conversions are exact; `f64_of_f32` keeps the sign and the infinities, and a NaN
gives the drawn NaN. -/
def Obligations.WideningIsExact : Prop :=
  (∀ v : Sample, rat32 (f32OfI16 v) = some (v.toInt : ℚ)) ∧ f32OfI16 0 = 0x00000000#32 ∧
  f32OfI16 (BitVec.ofInt 16 10000) = 0x461C4000#32 ∧
  f32OfI16 (BitVec.ofInt 16 (-32768)) = 0xC7000000#32 ∧
  f32OfI16 (BitVec.ofInt 16 32767) = 0x46FFFE00#32 ∧
  (∀ v : BitVec 32, rat64 (f64OfI32 v) = some (v.toInt : ℚ)) ∧
  f64OfI32 0 = 0x0000000000000000#64 ∧ f64OfI32 48000#32 = 0x40E7700000000000#64 ∧
  (∀ (nan : B64) (v : B32) (q : ℚ), rat32 v = some q → rat64 (f64OfF32 nan v) = some q) ∧
  (∀ (nan : B64) (v : B32), isNaN32 v = false → (f64OfF32 nan v).msb = v.msb) ∧
  (∀ (nan : B64) (v : B32), isNaN32 v = true → f64OfF32 nan v = nan) ∧
  (∀ nan : B64, f64OfF32 nan 0x7F800000#32 = 0x7FF0000000000000#64 ∧
    f64OfF32 nan 0xFF800000#32 = 0xFFF0000000000000#64)

/-- R89: `SAT16` clamps to the `int16` range and truncates toward zero; an infinity clamps to its end; a NaN
gives the draw. -/
def Obligations.SaturationClampsThenTruncates : Prop :=
  (∀ (draw : Sample) (v : B32) (q : ℚ), rat32 v = some q →
    (sat16 draw v).toInt = max (-32768) (min 32767 (q.num.tdiv q.den))) ∧
  (∀ draw : Sample, (sat16 draw 0x7F800000#32).toInt = 32767 ∧
    (sat16 draw 0xFF800000#32).toInt = -32768) ∧
  (∀ (draw : Sample) (v : B32), isNaN32 v = true → sat16 draw v = draw)

/-- R92: `fgt64` compares as real numbers, with an infinity beyond every finite value and zeros equal, and is
false on a NaN; `flt64` is its converse. -/
def Obligations.ComparisonsAreOfRealNumbers : Prop :=
  (∀ (a b : B64) (p q : ℚ), rat64 a = some p → rat64 b = some q → (fgt64 a b = true ↔ q < p)) ∧
  (∀ a b : B64, isNaN64 a = true ∨ isNaN64 b = true → fgt64 a b = false ∧ flt64 a b = false) ∧
  (∀ b : B64, isNaN64 b = false →
    (fgt64 0x7FF0000000000000 b = true ↔ b ≠ 0x7FF0000000000000) ∧
    fgt64 b 0x7FF0000000000000 = false ∧
    (fgt64 b 0xFFF0000000000000 = true ↔ b ≠ 0xFFF0000000000000) ∧
    fgt64 0xFFF0000000000000 b = false) ∧
  (∀ a b : B64, flt64 a b = fgt64 b a)

/-- R81, R120: `fneg64` inverts the sign bit alone, and negation and narrowing commute, so an inverted
PS.APPLY returns the same bits whichever comes first. -/
def Obligations.NegationCommutesWithNarrowing : Prop :=
  (∀ a : B64, (fneg64 a).msb = !a.msb ∧ (fneg64 a).setWidth 63 = a.setWidth 63) ∧
  ∀ (nan : B32) (a : B64), isNaN64 a = false →
    f32OfF64 nan (fneg64 a) = f32OfF64 nan a ^^^ 0x80000000#32

/-- R91, R104, R106: the functions of an instance. The two values of the library functions that other rules rely on
hold for the default functions, and so for every instance whose functions do not differ there; where nothing
is listed, `CoefGen` is R106's sequence of primitives on the instance's `Tan64` and `Sqrt64`, and any quiet NaN
may stand where one arises (log 6). Where a table lists operands, the function has the table's value: the
representation is the model's (DEDUCED, log 21). -/
def Obligations.ParameterFunctionsAndDefaults : Prop :=
  (∀ q : Params,
    (q.powTable.lookup (0x4000000000000000, 0x4010000000000000) = none →
      pow64 q 0x4000000000000000 0x4010000000000000 = 0x4030000000000000#64) ∧
    (q.sqrtTable.lookup 0x4000000000000000 = none →
      sqrt64 q 0x4000000000000000 = 0x3FF6A09E667F3BCD#64) ∧
    (∀ x y z, q.powTable.lookup (x, y) = some z → pow64 q x y = z) ∧
    (∀ x z, q.sqrtTable.lookup x = some z → sqrt64 q x = z) ∧
    (∀ x z, q.tanTable.lookup x = some z → tan64 q x = z) ∧
    (∀ kind fc fs c, q.coefTable.lookup (kind, fc, fs) = some c → coefGen q kind fc fs = c)) ∧
  (∀ (q : Params) (kind : FilterKind) (fc fs : B64), q.coefTable.lookup (kind, fc, fs) = none →
    ∃ n : Nat → B64, (∀ j, quiet64 (n j) = true) ∧
      let two : B64 := 0x4000000000000000
      let four : B64 := 0x4010000000000000
      let six : B64 := 0x4018000000000000
      let eight : B64 := 0x4020000000000000
      let minusFour : B64 := 0xC010000000000000
      let pi : B64 := 0x400921FB54442D18
      let wc := fmul64 (n 0) (fmul64 (n 1) two pi) fc
      let wc2 := fmul64 (n 2) wc wc
      let wc3 := fmul64 (n 3) wc2 wc
      let wc4 := fmul64 (n 4) wc2 wc2
      let k := fdiv64 (n 5) wc (tan64 q (fdiv64 (n 6) (fmul64 (n 7) pi fc) fs))
      let k2 := fmul64 (n 8) k k
      let k3 := fmul64 (n 9) k2 k
      let k4 := fmul64 (n 10) k2 k2
      let s2 := sqrt64 q two
      let t1 := fmul64 (n 11) (fmul64 (n 12) s2 wc3) k
      let t2 := fmul64 (n 13) (fmul64 (n 14) s2 wc) k3
      let m := fmul64 (n 15) (fmul64 (n 16) four wc2) k2
      let at0 := fadd64 (n 22) m (fmul64 (n 17) two t1)
      let den := fadd64 (n 19) (fadd64 (n 20) (fadd64 (n 21) at0 k4) (fmul64 (n 18) two t2)) wc4
      let top := match kind with
        | .lp => wc4
        | .hp => k4
      let a0 := fdiv64 (n 45) top den
      let a1 := fdiv64 (n 46)
        (fmul64 (n 47) (match kind with | .lp => four | .hp => minusFour) top) den
      let a2 := fdiv64 (n 48) (fmul64 (n 49) six top) den
      let b1 := fdiv64 (n 23)
        (fmul64 (n 24) four (fsub64 (n 25) (fsub64 (n 26) (fadd64 (n 27) wc4 t1) k4) t2)) den
      let b2 := fdiv64 (n 28)
        (fadd64 (n 29)
          (fsub64 (n 30) (fmul64 (n 31) six wc4) (fmul64 (n 32) (fmul64 (n 33) eight wc2) k2))
          (fmul64 (n 34) six k4)) den
      let b3 := fdiv64 (n 35)
        (fmul64 (n 36) four (fsub64 (n 37) (fadd64 (n 38) (fsub64 (n 39) wc4 t1) t2) k4)) den
      let b4 := fdiv64 (n 40)
        (fadd64 (n 41)
          (fsub64 (n 42) (fadd64 (n 43) (fsub64 (n 44) k4 (fmul64 (n 17) two t1)) wc4)
            (fmul64 (n 18) two t2)) m) den
      coefGen q kind fc fs = ⟨a0, a1, a2, a1, a0, b1, b2, b3, b4⟩) ∧
  State.reset.params.faithful = true

/-- R93: each matrix constant is nearer to its exact expression (`1/(2 sqrt 2)`, `sqrt 19 / 10`,
`sqrt 6 / 10`) than the next `b32` on either side: the expression's square lies between the squares of the
two midpoints. -/
def Obligations.MatrixConstantsAreNearest : Prop :=
  (∃ a b c : ℚ, rat32 (kCenter - 1) = some a ∧ rat32 kCenter = some b ∧ rat32 (kCenter + 1) = some c ∧
    8 * ((a + b) / 2) ^ 2 < 1 ∧ 1 < 8 * ((b + c) / 2) ^ 2) ∧
  (∃ a b c : ℚ, rat32 (kMain - 1) = some a ∧ rat32 kMain = some b ∧ rat32 (kMain + 1) = some c ∧
    100 * ((a + b) / 2) ^ 2 < 19 ∧ 19 < 100 * ((b + c) / 2) ^ 2) ∧
  (∃ a b c : ℚ, rat32 (kCross - 1) = some a ∧ rat32 kCross = some b ∧ rat32 (kCross + 1) = some c ∧
    100 * ((a + b) / 2) ^ 2 < 6 ∧ 6 < 100 * ((b + c) / 2) ^ 2) ∧
  rat32 half32 = some (1 / 2)

/-! ### Whole-machine rules -/

/-- R14, R175: no step but hardware reset clears a bit of `STATUS`; so a state with no fault recorded comes
only from one with none. -/
def Obligations.StatusBitsAreSticky : Prop :=
  ∀ s t : State, step s = .next t → s.resetPending = false →
    s.status &&& t.status = s.status ∧ (t.noFaultRecorded = true → s.noFaultRecorded = true)

/-- R14, R175: no step's behaviour depends on `STATUS`: with another value in it, the step ends the same way
and in the same state but for `STATUS` itself and the copy of it in the response. -/
def Obligations.StatusDecidesNothing : Prop :=
  ∀ (s : State) (x : BitVec 5),
    match step s, step { s with status := x } with
    | .next t, .next u =>
      { u with status := t.status, response := t.response } = t ∧
        u.response.map (fun r => (r.err, r.code)) = t.response.map (fun r => (r.err, r.code))
    | .fault a, .fault b => a = b
    | .refused a, .refused b => a = b
    | _, _ => False

/-- R11, R12: only an accepted SETRATE and hardware reset change `SampleRate`; only a RESET, explicit or inside
PROCESS, sets `Initialized`, and only hardware reset clears it. -/
def Obligations.OnlyTheirCommandsWriteRateAndInitialized : Prop :=
  ∀ s t : State, step s = .next t →
    (t.sampleRate ≠ s.sampleRate →
      s.resetPending = true ∨
      ∃ w rest, s.commandPending w rest ∧ decode (.h64 w) = .ok (.setrate t.sampleRate) ∧
        0 < t.sampleRate.toInt) ∧
    (t.initialized ≠ s.initialized →
      (t.initialized = false ∧ s.resetPending = true) ∨
      (t.initialized = true ∧ ∃ w rest, s.commandPending w rest ∧
        (decode (.h64 w) = .ok .reset ∨ ∃ n, decode (.h64 w) = .ok (.process n))))

/-- R16, R110: only a RESET, a PROCESS that runs the implicit one, BQ.LPC, BQ.HPC and hardware reset change a
coefficient set. -/
def Obligations.OnlyCoefficientOperationsWriteK : Prop :=
  ∀ s t : State, step s = .next t → t.k ≠ s.k →
    s.resetPending = true ∨
    (∃ w rest, s.commandPending w rest ∧
      (decode (.h64 w) = .ok .reset ∨
        (s.initialized = false ∧ ∃ n, decode (.h64 w) = .ok (.process n)))) ∨
    (∃ w rest, s.unitBus = w :: rest ∧
      ∃ i, decode (.u16 w) = .ok (.bqLpc i) ∨ decode (.u16 w) = .ok (.bqHpc i))

/-- R25, R166, R173, R174: a command word, legal or not, accepted or rejected, advances `cpc` by exactly one and
issues a response that carries the `STATUS` it leaves, with code 0 if it was accepted. A command whose
response is an error has changed nothing but one bit of `STATUS`, the response and `cpc`; the code is one of 0
to 4 and names the bit. -/
def Obligations.EveryCommandRespondsPrecisely : Prop :=
  ∀ (s t : State) (w : CommandWord) (rest : List HostEvent), s.commandPending w rest →
    step s = .next t →
    (t.cpc = s.cpc + 1 ∧ t.port = rest ∧
      ∃ r, t.response = some r ∧ r.status = t.status ∧ (r.err = false → r.code = 0#3)) ∧
    (t.response.map (fun r => r.err) = some true →
      ∃ c : BitVec 3, c.toNat ≤ 4 ∧ t = { s with
        port := rest
        status := s.status ||| 1#5 <<< c.toNat
        response := some ⟨true, c, s.status ||| 1#5 <<< c.toNat⟩
        cpc := s.cpc + 1 })

/-- R7, R10, R43: no step changes an instance's parameters, and none but the host's FILL changes `IN`. That a
hardware reset leaves `IN` as it was is the model's reading (DEDUCED, log 16; R28 calls `IN` unspecified
there). -/
def Obligations.ParametersStayAndOnlyFillChangesInput : Prop :=
  ∀ s t : State, step s = .next t →
    t.params = s.params ∧
    (t.inBuf ≠ s.inBuf → s.unitBus = [] ∧ ∃ vals rest, s.port = .fillIn vals :: rest)
end

