-- ==== Sys2Proof/Laws/Memory.lean ====
section
/-! SUPPORT. The element-addressed spaces: read after write, and every operation keeps the canonical form. -/

namespace Sys2Proof.Machine.Memory

variable {α : Type}

/-! ### Read after write (R43, R50) -/

theorem peek_poke_same (m : Memory α) (a : Nat) (v : α) : peek (poke m a v) a = some v := by
  induction m with
  | nil => simp [poke, peek]
  | cons e rest ih =>
    obtain ⟨b, w⟩ := e
    by_cases h : a < b
    · simp [poke, peek, h]
    · by_cases h' : a = b
      · simp [poke, peek, h']
      · simp [poke, peek, h, h', ih, Ne.symm h']

theorem peek_poke_other (m : Memory α) {a c : Nat} (v : α) (hc : c ≠ a) :
    peek (poke m a v) c = peek m c := by
  induction m with
  | nil => simp [poke, peek, Ne.symm hc]
  | cons e rest ih =>
    obtain ⟨b, w⟩ := e
    by_cases h : a < b
    · simp [poke, peek, h, Ne.symm hc]
    · by_cases h' : a = b
      · subst h'
        simp [poke, peek, Ne.symm hc]
      · simp only [poke, peek, h, h', if_false, ih]

theorem peek_erase_other (m : Memory α) {a c : Nat} (hc : c ≠ a) : peek (erase m a) c = peek m c := by
  induction m with
  | nil => rfl
  | cons e rest ih =>
    obtain ⟨b, w⟩ := e
    by_cases h : b = a
    · subst h
      simp [erase, peek, Ne.symm hc]
    · simp only [erase, peek, h, if_false, ih]

/-- An index at or below the bound is not listed above it. -/
theorem peek_none_of_risingAbove {m : Memory α} {b a : Nat} (h : risingAbove b m = true) (ha : a ≤ b) :
    peek m a = none := by
  induction m generalizing b with
  | nil => rfl
  | cons e rest ih =>
    obtain ⟨c, w⟩ := e
    simp only [risingAbove, Bool.and_eq_true, decide_eq_true_eq] at h
    have hca : c ≠ a := by omega
    simpa [peek, hca] using ih h.2 (by omega)

theorem peek_erase_same {m : Memory α} (a : Nat) (h : wf m = true) : peek (erase m a) a = none := by
  induction m with
  | nil => rfl
  | cons e rest ih =>
    obtain ⟨b, w⟩ := e
    simp only [wf] at h
    by_cases hb : b = a
    · subst hb
      simpa [erase] using peek_none_of_risingAbove h (Nat.le_refl b)
    · have hrest : wf rest = true := by
        cases rest with
        | nil => rfl
        | cons e' r' =>
          simp only [risingAbove, Bool.and_eq_true] at h
          simpa [wf] using h.2
      simp [erase, peek, hb, ih hrest]

/-! ### The canonical form is kept -/

theorem risingAbove_mono {m : Memory α} {a b : Nat} (hab : a ≤ b) (h : risingAbove b m = true) :
    risingAbove a m = true := by
  cases m with
  | nil => rfl
  | cons e rest =>
    obtain ⟨c, w⟩ := e
    simp only [risingAbove, Bool.and_eq_true, decide_eq_true_eq] at h ⊢
    exact ⟨by omega, h.2⟩

theorem risingAbove_poke {m : Memory α} {b a : Nat} (v : α) (hba : b < a) (h : risingAbove b m = true) :
    risingAbove b (poke m a v) = true := by
  induction m generalizing b with
  | nil => simp [poke, risingAbove, hba]
  | cons e rest ih =>
    obtain ⟨c, w⟩ := e
    simp only [risingAbove, Bool.and_eq_true, decide_eq_true_eq] at h
    by_cases h1 : a < c
    · simp [poke, h1, risingAbove, hba, h.2]
    · by_cases h2 : a = c
      · subst h2
        simp [poke, risingAbove, hba, h.2]
      · simp [poke, h1, h2, risingAbove, h.1, ih (by omega) h.2]

theorem wf_of_risingAbove {m : Memory α} {b : Nat} (h : risingAbove b m = true) : wf m = true := by
  cases m with
  | nil => rfl
  | cons e rest =>
    simp only [risingAbove, Bool.and_eq_true] at h
    exact h.2

/-- A write keeps the canonical form. -/
theorem wf_poke {m : Memory α} (a : Nat) (v : α) (h : wf m = true) : wf (poke m a v) = true := by
  cases m with
  | nil => rfl
  | cons e rest =>
    obtain ⟨b, w⟩ := e
    simp only [wf] at h
    by_cases h1 : a < b
    · simp [poke, h1, wf, risingAbove, h]
    · by_cases h2 : a = b
      · subst h2
        simpa [poke, wf] using h
      · simpa [poke, h1, h2, wf] using risingAbove_poke v (by omega) h

theorem risingAbove_erase {m : Memory α} {b : Nat} (a : Nat) (h : risingAbove b m = true) :
    risingAbove b (erase m a) = true := by
  induction m generalizing b with
  | nil => rfl
  | cons e rest ih =>
    obtain ⟨c, w⟩ := e
    simp only [risingAbove, Bool.and_eq_true, decide_eq_true_eq] at h
    by_cases hc : c = a
    · simpa [erase, hc] using risingAbove_mono (by omega) h.2
    · simp [erase, hc, risingAbove, h.1, ih h.2]

/-- Taking an element out keeps the canonical form. -/
theorem wf_erase {m : Memory α} (a : Nat) (h : wf m = true) : wf (erase m a) = true := by
  cases m with
  | nil => rfl
  | cons e rest =>
    obtain ⟨b, w⟩ := e
    simp only [wf] at h
    by_cases hb : b = a
    · simpa [erase, hb] using wf_of_risingAbove h
    · simpa [erase, hb, wf] using risingAbove_erase a h

theorem risingAbove_ofListFrom (vs : List α) {a b : Nat} (h : b < a) :
    risingAbove b (ofListFrom a vs) = true := by
  induction vs generalizing a b with
  | nil => rfl
  | cons v vs ih => simp [ofListFrom, risingAbove, h, ih (Nat.lt_succ_self a)]

/-- A buffer the host fills is in canonical form. -/
theorem wf_ofListFrom (a : Nat) (vs : List α) : wf (ofListFrom a vs) = true := by
  cases vs with
  | nil => rfl
  | cons v vs => simpa [ofListFrom, wf] using risingAbove_ofListFrom vs (Nat.lt_succ_self a)

theorem all_poke {m : Memory α} {q : Nat × α → Bool} {a : Nat} {v : α} (hq : q (a, v) = true)
    (h : m.all q = true) : (poke m a v).all q = true := by
  induction m with
  | nil => simpa [poke] using hq
  | cons e rest ih =>
    obtain ⟨b, w⟩ := e
    simp only [List.all_cons, Bool.and_eq_true] at h
    by_cases h1 : a < b
    · simp [poke, h1, hq, h.1, h.2]
    · by_cases h2 : a = b
      · simp [poke, h2, h2 ▸ hq, h.2]
      · simp [poke, h1, h2, h.1, ih h.2]

theorem all_erase {m : Memory α} {q : Nat × α → Bool} (a : Nat) (h : m.all q = true) :
    (erase m a).all q = true := by
  induction m with
  | nil => rfl
  | cons e rest ih =>
    obtain ⟨b, w⟩ := e
    simp only [List.all_cons, Bool.and_eq_true] at h
    by_cases hb : b = a
    · simp [erase, hb, h.2]
    · simp [erase, hb, h.1, ih h.2]

/-- A delay-array write keeps the canonical form: no listed slot holds `+0.0`. -/
theorem wfZ_pokeZ {m : Memory B32} (a : Nat) (v : B32) (h : wfZ m = true) : wfZ (pokeZ m a v) = true := by
  simp only [wfZ, Bool.and_eq_true] at h ⊢
  by_cases hv : v = 0#32
  · simp only [pokeZ, hv, if_true]
    exact ⟨wf_erase a h.1, all_erase a h.2⟩
  · simp only [pokeZ, hv, if_false]
    exact ⟨wf_poke a v h.1, all_poke (by simpa using hv) h.2⟩

/-- A write inside the bound keeps every listed index inside it. -/
theorem below_poke {m : Memory α} {n a : Nat} (v : α) (ha : a < n) (h : below n m = true) :
    below n (poke m a v) = true :=
  all_poke (by simpa using ha) h

theorem below_pokeZ {m : Memory B32} {n a : Nat} (v : B32) (ha : a < n) (h : below n m = true) :
    below n (pokeZ m a v) = true := by
  by_cases hv : v = 0#32
  · simp only [pokeZ, hv, if_true]
    exact all_erase a h
  · simpa only [pokeZ, hv, if_false] using below_poke v ha h

/-- A delay-array slot holds what was last written to it. -/
theorem peekZ_pokeZ_same {m : Memory B32} (a : Nat) (v : B32) (h : wf m = true) :
    peekZ (pokeZ m a v) a = v := by
  by_cases hv : v = 0#32
  · simp [pokeZ, peekZ, hv, peek_erase_same a h]
  · simp only [pokeZ, peekZ, hv, if_false, peek_poke_same, Option.getD_some]

/-- Only the slot written changes. -/
theorem peekZ_pokeZ_other (m : Memory B32) {a c : Nat} (v : B32) (hc : c ≠ a) :
    peekZ (pokeZ m a v) c = peekZ m c := by
  by_cases hv : v = 0#32
  · simp [pokeZ, peekZ, hv, peek_erase_other m hc]
  · simp only [pokeZ, peekZ, hv, if_false, peek_poke_other m v hc]

/-! ### Buffers the host fills -/

theorem peek_ofListFrom (vs : List α) (a i : Nat) : peek (ofListFrom a vs) (a + i) = vs[i]? := by
  induction vs generalizing a i with
  | nil => simp [ofListFrom, peek]
  | cons v vs ih =>
    cases i with
    | zero => simp [ofListFrom, peek]
    | succ i =>
      have h : a ≠ a + (i + 1) := by omega
      simpa [ofListFrom, peek, h, Nat.add_assoc, Nat.add_comm 1 i] using ih (a + 1) i

/-- Every index of a run that is listed has an element. -/
theorem peek_isSome_of_listedFrom {m : Memory α} {a n i : Nat} (h : listedFrom a n m = true) (hi : i < n) :
    (peek m (a + i)).isSome = true := by
  induction n generalizing m a i with
  | zero => omega
  | succ n ih =>
    cases m with
    | nil => simp [listedFrom] at h
    | cons e rest =>
      obtain ⟨b, w⟩ := e
      simp only [listedFrom, Bool.and_eq_true, beq_iff_eq] at h
      obtain ⟨rfl, h⟩ := h
      cases i with
      | zero => simp [peek]
      | succ i =>
        have hne : b ≠ b + (i + 1) := by omega
        have := ih h (i := i) (by omega)
        simpa [peek, hne, Nat.add_assoc, Nat.add_comm 1 i] using this

end Sys2Proof.Machine.Memory
end

