-- ==== Sys2Proof/Laws/State.lean ====
section
/-! SUPPORT. What each single update of Machine/Ops.lean leaves in each field of the state. -/

namespace Sys2Proof.Machine

variable (s : State)

/-! ### accept -/

@[simp] theorem State.accept_params : (s.accept).params = s.params := (rfl)
@[simp] theorem State.accept_sampleRate : (s.accept).sampleRate = s.sampleRate := (rfl)
@[simp] theorem State.accept_initialized : (s.accept).initialized = s.initialized := (rfl)
@[simp] theorem State.accept_rateDirty : (s.accept).rateDirty = s.rateDirty := (rfl)
@[simp] theorem State.accept_status : (s.accept).status = s.status := (rfl)
@[simp] theorem State.accept_delayLen : (s.accept).delayLen = s.delayLen := (rfl)
@[simp] theorem State.accept_k : (s.accept).k = s.k := (rfl)
@[simp] theorem State.accept_f : (s.accept).f = s.f := (rfl)
@[simp] theorem State.accept_p : (s.accept).p = s.p := (rfl)
@[simp] theorem State.accept_d : (s.accept).d = s.d := (rfl)
@[simp] theorem State.accept_inBuf : (s.accept).inBuf = s.inBuf := (rfl)
@[simp] theorem State.accept_outBuf : (s.accept).outBuf = s.outBuf := (rfl)
@[simp] theorem State.accept_outSize : (s.accept).outSize = s.outSize := (rfl)
@[simp] theorem State.accept_cpc : (s.accept).cpc = s.cpc + 1 := (rfl)
@[simp] theorem State.accept_frameIdx : (s.accept).frameIdx = s.frameIdx := (rfl)
@[simp] theorem State.accept_response : (s.accept).response = some ⟨false, 0#3, s.status⟩ := (rfl)
@[simp] theorem State.accept_uIn : (s.accept).uIn = s.uIn := (rfl)
@[simp] theorem State.accept_uOut : (s.accept).uOut = s.uOut := (rfl)
@[simp] theorem State.accept_unitBus : (s.accept).unitBus = s.unitBus := (rfl)
@[simp] theorem State.accept_port : (s.accept).port = s.port := (rfl)
@[simp] theorem State.accept_draws : (s.accept).draws = s.draws := (rfl)

/-! ### raise -/

@[simp] theorem State.raise_params (c : Cause) : (s.raise c).params = s.params := (rfl)
@[simp] theorem State.raise_sampleRate (c : Cause) : (s.raise c).sampleRate = s.sampleRate := (rfl)
@[simp] theorem State.raise_initialized (c : Cause) : (s.raise c).initialized = s.initialized := (rfl)
@[simp] theorem State.raise_rateDirty (c : Cause) : (s.raise c).rateDirty = s.rateDirty := (rfl)
@[simp] theorem State.raise_status (c : Cause) : (s.raise c).status = statusWith c s.status := (rfl)
@[simp] theorem State.raise_delayLen (c : Cause) : (s.raise c).delayLen = s.delayLen := (rfl)
@[simp] theorem State.raise_k (c : Cause) : (s.raise c).k = s.k := (rfl)
@[simp] theorem State.raise_f (c : Cause) : (s.raise c).f = s.f := (rfl)
@[simp] theorem State.raise_p (c : Cause) : (s.raise c).p = s.p := (rfl)
@[simp] theorem State.raise_d (c : Cause) : (s.raise c).d = s.d := (rfl)
@[simp] theorem State.raise_inBuf (c : Cause) : (s.raise c).inBuf = s.inBuf := (rfl)
@[simp] theorem State.raise_outBuf (c : Cause) : (s.raise c).outBuf = s.outBuf := (rfl)
@[simp] theorem State.raise_outSize (c : Cause) : (s.raise c).outSize = s.outSize := (rfl)
@[simp] theorem State.raise_cpc (c : Cause) : (s.raise c).cpc = s.cpc + 1 := (rfl)
@[simp] theorem State.raise_frameIdx (c : Cause) : (s.raise c).frameIdx = s.frameIdx := (rfl)
@[simp] theorem State.raise_response (c : Cause) : (s.raise c).response = some ⟨true, causeCode c, statusWith c s.status⟩ := (rfl)
@[simp] theorem State.raise_uIn (c : Cause) : (s.raise c).uIn = s.uIn := (rfl)
@[simp] theorem State.raise_uOut (c : Cause) : (s.raise c).uOut = s.uOut := (rfl)
@[simp] theorem State.raise_unitBus (c : Cause) : (s.raise c).unitBus = [] := (rfl)
@[simp] theorem State.raise_port (c : Cause) : (s.raise c).port = s.port := (rfl)
@[simp] theorem State.raise_draws (c : Cause) : (s.raise c).draws = s.draws := (rfl)

/-! ### storeRate -/

@[simp] theorem State.storeRate_params (r : BitVec 32) : (s.storeRate r).params = s.params := (rfl)
@[simp] theorem State.storeRate_sampleRate (r : BitVec 32) : (s.storeRate r).sampleRate = r := (rfl)
@[simp] theorem State.storeRate_initialized (r : BitVec 32) : (s.storeRate r).initialized = s.initialized := (rfl)
@[simp] theorem State.storeRate_rateDirty (r : BitVec 32) : (s.storeRate r).rateDirty = true := (rfl)
@[simp] theorem State.storeRate_status (r : BitVec 32) : (s.storeRate r).status = s.status := (rfl)
@[simp] theorem State.storeRate_delayLen (r : BitVec 32) : (s.storeRate r).delayLen = s.delayLen := (rfl)
@[simp] theorem State.storeRate_k (r : BitVec 32) : (s.storeRate r).k = s.k := (rfl)
@[simp] theorem State.storeRate_f (r : BitVec 32) : (s.storeRate r).f = s.f := (rfl)
@[simp] theorem State.storeRate_p (r : BitVec 32) : (s.storeRate r).p = s.p := (rfl)
@[simp] theorem State.storeRate_d (r : BitVec 32) : (s.storeRate r).d = s.d := (rfl)
@[simp] theorem State.storeRate_inBuf (r : BitVec 32) : (s.storeRate r).inBuf = s.inBuf := (rfl)
@[simp] theorem State.storeRate_outBuf (r : BitVec 32) : (s.storeRate r).outBuf = s.outBuf := (rfl)
@[simp] theorem State.storeRate_outSize (r : BitVec 32) : (s.storeRate r).outSize = s.outSize := (rfl)
@[simp] theorem State.storeRate_cpc (r : BitVec 32) : (s.storeRate r).cpc = s.cpc := (rfl)
@[simp] theorem State.storeRate_frameIdx (r : BitVec 32) : (s.storeRate r).frameIdx = s.frameIdx := (rfl)
@[simp] theorem State.storeRate_response (r : BitVec 32) : (s.storeRate r).response = s.response := (rfl)
@[simp] theorem State.storeRate_uIn (r : BitVec 32) : (s.storeRate r).uIn = s.uIn := (rfl)
@[simp] theorem State.storeRate_uOut (r : BitVec 32) : (s.storeRate r).uOut = s.uOut := (rfl)
@[simp] theorem State.storeRate_unitBus (r : BitVec 32) : (s.storeRate r).unitBus = s.unitBus := (rfl)
@[simp] theorem State.storeRate_port (r : BitVec 32) : (s.storeRate r).port = s.port := (rfl)
@[simp] theorem State.storeRate_draws (r : BitVec 32) : (s.storeRate r).draws = s.draws := (rfl)

/-! ### withDelayLen -/

@[simp] theorem State.withDelayLen_params (n : Nat) : (s.withDelayLen n).params = s.params := (rfl)
@[simp] theorem State.withDelayLen_sampleRate (n : Nat) : (s.withDelayLen n).sampleRate = s.sampleRate := (rfl)
@[simp] theorem State.withDelayLen_initialized (n : Nat) : (s.withDelayLen n).initialized = s.initialized := (rfl)
@[simp] theorem State.withDelayLen_rateDirty (n : Nat) : (s.withDelayLen n).rateDirty = s.rateDirty := (rfl)
@[simp] theorem State.withDelayLen_status (n : Nat) : (s.withDelayLen n).status = s.status := (rfl)
@[simp] theorem State.withDelayLen_delayLen (n : Nat) : (s.withDelayLen n).delayLen = n := (rfl)
@[simp] theorem State.withDelayLen_k (n : Nat) : (s.withDelayLen n).k = s.k := (rfl)
@[simp] theorem State.withDelayLen_f (n : Nat) : (s.withDelayLen n).f = s.f := (rfl)
@[simp] theorem State.withDelayLen_p (n : Nat) : (s.withDelayLen n).p = s.p := (rfl)
@[simp] theorem State.withDelayLen_d (n : Nat) : (s.withDelayLen n).d = s.d := (rfl)
@[simp] theorem State.withDelayLen_inBuf (n : Nat) : (s.withDelayLen n).inBuf = s.inBuf := (rfl)
@[simp] theorem State.withDelayLen_outBuf (n : Nat) : (s.withDelayLen n).outBuf = s.outBuf := (rfl)
@[simp] theorem State.withDelayLen_outSize (n : Nat) : (s.withDelayLen n).outSize = s.outSize := (rfl)
@[simp] theorem State.withDelayLen_cpc (n : Nat) : (s.withDelayLen n).cpc = s.cpc := (rfl)
@[simp] theorem State.withDelayLen_frameIdx (n : Nat) : (s.withDelayLen n).frameIdx = s.frameIdx := (rfl)
@[simp] theorem State.withDelayLen_response (n : Nat) : (s.withDelayLen n).response = s.response := (rfl)
@[simp] theorem State.withDelayLen_uIn (n : Nat) : (s.withDelayLen n).uIn = s.uIn := (rfl)
@[simp] theorem State.withDelayLen_uOut (n : Nat) : (s.withDelayLen n).uOut = s.uOut := (rfl)
@[simp] theorem State.withDelayLen_unitBus (n : Nat) : (s.withDelayLen n).unitBus = s.unitBus := (rfl)
@[simp] theorem State.withDelayLen_port (n : Nat) : (s.withDelayLen n).port = s.port := (rfl)
@[simp] theorem State.withDelayLen_draws (n : Nat) : (s.withDelayLen n).draws = s.draws := (rfl)

/-! ### withCoef -/

@[simp] theorem State.withCoef_params (i : Fin 4) (c : CoefSet) : (s.withCoef i c).params = s.params := (rfl)
@[simp] theorem State.withCoef_sampleRate (i : Fin 4) (c : CoefSet) : (s.withCoef i c).sampleRate = s.sampleRate := (rfl)
@[simp] theorem State.withCoef_initialized (i : Fin 4) (c : CoefSet) : (s.withCoef i c).initialized = s.initialized := (rfl)
@[simp] theorem State.withCoef_rateDirty (i : Fin 4) (c : CoefSet) : (s.withCoef i c).rateDirty = s.rateDirty := (rfl)
@[simp] theorem State.withCoef_status (i : Fin 4) (c : CoefSet) : (s.withCoef i c).status = s.status := (rfl)
@[simp] theorem State.withCoef_delayLen (i : Fin 4) (c : CoefSet) : (s.withCoef i c).delayLen = s.delayLen := (rfl)
@[simp] theorem State.withCoef_k (i : Fin 4) (c : CoefSet) : (s.withCoef i c).k = s.k.set i c := (rfl)
@[simp] theorem State.withCoef_f (i : Fin 4) (c : CoefSet) : (s.withCoef i c).f = s.f := (rfl)
@[simp] theorem State.withCoef_p (i : Fin 4) (c : CoefSet) : (s.withCoef i c).p = s.p := (rfl)
@[simp] theorem State.withCoef_d (i : Fin 4) (c : CoefSet) : (s.withCoef i c).d = s.d := (rfl)
@[simp] theorem State.withCoef_inBuf (i : Fin 4) (c : CoefSet) : (s.withCoef i c).inBuf = s.inBuf := (rfl)
@[simp] theorem State.withCoef_outBuf (i : Fin 4) (c : CoefSet) : (s.withCoef i c).outBuf = s.outBuf := (rfl)
@[simp] theorem State.withCoef_outSize (i : Fin 4) (c : CoefSet) : (s.withCoef i c).outSize = s.outSize := (rfl)
@[simp] theorem State.withCoef_cpc (i : Fin 4) (c : CoefSet) : (s.withCoef i c).cpc = s.cpc := (rfl)
@[simp] theorem State.withCoef_frameIdx (i : Fin 4) (c : CoefSet) : (s.withCoef i c).frameIdx = s.frameIdx := (rfl)
@[simp] theorem State.withCoef_response (i : Fin 4) (c : CoefSet) : (s.withCoef i c).response = s.response := (rfl)
@[simp] theorem State.withCoef_uIn (i : Fin 4) (c : CoefSet) : (s.withCoef i c).uIn = s.uIn := (rfl)
@[simp] theorem State.withCoef_uOut (i : Fin 4) (c : CoefSet) : (s.withCoef i c).uOut = s.uOut := (rfl)
@[simp] theorem State.withCoef_unitBus (i : Fin 4) (c : CoefSet) : (s.withCoef i c).unitBus = s.unitBus := (rfl)
@[simp] theorem State.withCoef_port (i : Fin 4) (c : CoefSet) : (s.withCoef i c).port = s.port := (rfl)
@[simp] theorem State.withCoef_draws (i : Fin 4) (c : CoefSet) : (s.withCoef i c).draws = s.draws := (rfl)

/-! ### withFilter -/

@[simp] theorem State.withFilter_params (i : Fin 7) (h : FilterState) : (s.withFilter i h).params = s.params := (rfl)
@[simp] theorem State.withFilter_sampleRate (i : Fin 7) (h : FilterState) : (s.withFilter i h).sampleRate = s.sampleRate := (rfl)
@[simp] theorem State.withFilter_initialized (i : Fin 7) (h : FilterState) : (s.withFilter i h).initialized = s.initialized := (rfl)
@[simp] theorem State.withFilter_rateDirty (i : Fin 7) (h : FilterState) : (s.withFilter i h).rateDirty = s.rateDirty := (rfl)
@[simp] theorem State.withFilter_status (i : Fin 7) (h : FilterState) : (s.withFilter i h).status = s.status := (rfl)
@[simp] theorem State.withFilter_delayLen (i : Fin 7) (h : FilterState) : (s.withFilter i h).delayLen = s.delayLen := (rfl)
@[simp] theorem State.withFilter_k (i : Fin 7) (h : FilterState) : (s.withFilter i h).k = s.k := (rfl)
@[simp] theorem State.withFilter_f (i : Fin 7) (h : FilterState) : (s.withFilter i h).f = s.f.set i h := (rfl)
@[simp] theorem State.withFilter_p (i : Fin 7) (h : FilterState) : (s.withFilter i h).p = s.p := (rfl)
@[simp] theorem State.withFilter_d (i : Fin 7) (h : FilterState) : (s.withFilter i h).d = s.d := (rfl)
@[simp] theorem State.withFilter_inBuf (i : Fin 7) (h : FilterState) : (s.withFilter i h).inBuf = s.inBuf := (rfl)
@[simp] theorem State.withFilter_outBuf (i : Fin 7) (h : FilterState) : (s.withFilter i h).outBuf = s.outBuf := (rfl)
@[simp] theorem State.withFilter_outSize (i : Fin 7) (h : FilterState) : (s.withFilter i h).outSize = s.outSize := (rfl)
@[simp] theorem State.withFilter_cpc (i : Fin 7) (h : FilterState) : (s.withFilter i h).cpc = s.cpc := (rfl)
@[simp] theorem State.withFilter_frameIdx (i : Fin 7) (h : FilterState) : (s.withFilter i h).frameIdx = s.frameIdx := (rfl)
@[simp] theorem State.withFilter_response (i : Fin 7) (h : FilterState) : (s.withFilter i h).response = s.response := (rfl)
@[simp] theorem State.withFilter_uIn (i : Fin 7) (h : FilterState) : (s.withFilter i h).uIn = s.uIn := (rfl)
@[simp] theorem State.withFilter_uOut (i : Fin 7) (h : FilterState) : (s.withFilter i h).uOut = s.uOut := (rfl)
@[simp] theorem State.withFilter_unitBus (i : Fin 7) (h : FilterState) : (s.withFilter i h).unitBus = s.unitBus := (rfl)
@[simp] theorem State.withFilter_port (i : Fin 7) (h : FilterState) : (s.withFilter i h).port = s.port := (rfl)
@[simp] theorem State.withFilter_draws (i : Fin 7) (h : FilterState) : (s.withFilter i h).draws = s.draws := (rfl)

/-! ### withPhase -/

@[simp] theorem State.withPhase_params (i : Fin 4) (h : PhaseState) : (s.withPhase i h).params = s.params := (rfl)
@[simp] theorem State.withPhase_sampleRate (i : Fin 4) (h : PhaseState) : (s.withPhase i h).sampleRate = s.sampleRate := (rfl)
@[simp] theorem State.withPhase_initialized (i : Fin 4) (h : PhaseState) : (s.withPhase i h).initialized = s.initialized := (rfl)
@[simp] theorem State.withPhase_rateDirty (i : Fin 4) (h : PhaseState) : (s.withPhase i h).rateDirty = s.rateDirty := (rfl)
@[simp] theorem State.withPhase_status (i : Fin 4) (h : PhaseState) : (s.withPhase i h).status = s.status := (rfl)
@[simp] theorem State.withPhase_delayLen (i : Fin 4) (h : PhaseState) : (s.withPhase i h).delayLen = s.delayLen := (rfl)
@[simp] theorem State.withPhase_k (i : Fin 4) (h : PhaseState) : (s.withPhase i h).k = s.k := (rfl)
@[simp] theorem State.withPhase_f (i : Fin 4) (h : PhaseState) : (s.withPhase i h).f = s.f := (rfl)
@[simp] theorem State.withPhase_p (i : Fin 4) (h : PhaseState) : (s.withPhase i h).p = s.p.set i h := (rfl)
@[simp] theorem State.withPhase_d (i : Fin 4) (h : PhaseState) : (s.withPhase i h).d = s.d := (rfl)
@[simp] theorem State.withPhase_inBuf (i : Fin 4) (h : PhaseState) : (s.withPhase i h).inBuf = s.inBuf := (rfl)
@[simp] theorem State.withPhase_outBuf (i : Fin 4) (h : PhaseState) : (s.withPhase i h).outBuf = s.outBuf := (rfl)
@[simp] theorem State.withPhase_outSize (i : Fin 4) (h : PhaseState) : (s.withPhase i h).outSize = s.outSize := (rfl)
@[simp] theorem State.withPhase_cpc (i : Fin 4) (h : PhaseState) : (s.withPhase i h).cpc = s.cpc := (rfl)
@[simp] theorem State.withPhase_frameIdx (i : Fin 4) (h : PhaseState) : (s.withPhase i h).frameIdx = s.frameIdx := (rfl)
@[simp] theorem State.withPhase_response (i : Fin 4) (h : PhaseState) : (s.withPhase i h).response = s.response := (rfl)
@[simp] theorem State.withPhase_uIn (i : Fin 4) (h : PhaseState) : (s.withPhase i h).uIn = s.uIn := (rfl)
@[simp] theorem State.withPhase_uOut (i : Fin 4) (h : PhaseState) : (s.withPhase i h).uOut = s.uOut := (rfl)
@[simp] theorem State.withPhase_unitBus (i : Fin 4) (h : PhaseState) : (s.withPhase i h).unitBus = s.unitBus := (rfl)
@[simp] theorem State.withPhase_port (i : Fin 4) (h : PhaseState) : (s.withPhase i h).port = s.port := (rfl)
@[simp] theorem State.withPhase_draws (i : Fin 4) (h : PhaseState) : (s.withPhase i h).draws = s.draws := (rfl)

/-! ### withDelay -/

@[simp] theorem State.withDelay_params (i : Fin 2) (l : DelayLine) : (s.withDelay i l).params = s.params := (rfl)
@[simp] theorem State.withDelay_sampleRate (i : Fin 2) (l : DelayLine) : (s.withDelay i l).sampleRate = s.sampleRate := (rfl)
@[simp] theorem State.withDelay_initialized (i : Fin 2) (l : DelayLine) : (s.withDelay i l).initialized = s.initialized := (rfl)
@[simp] theorem State.withDelay_rateDirty (i : Fin 2) (l : DelayLine) : (s.withDelay i l).rateDirty = s.rateDirty := (rfl)
@[simp] theorem State.withDelay_status (i : Fin 2) (l : DelayLine) : (s.withDelay i l).status = s.status := (rfl)
@[simp] theorem State.withDelay_delayLen (i : Fin 2) (l : DelayLine) : (s.withDelay i l).delayLen = s.delayLen := (rfl)
@[simp] theorem State.withDelay_k (i : Fin 2) (l : DelayLine) : (s.withDelay i l).k = s.k := (rfl)
@[simp] theorem State.withDelay_f (i : Fin 2) (l : DelayLine) : (s.withDelay i l).f = s.f := (rfl)
@[simp] theorem State.withDelay_p (i : Fin 2) (l : DelayLine) : (s.withDelay i l).p = s.p := (rfl)
@[simp] theorem State.withDelay_d (i : Fin 2) (l : DelayLine) : (s.withDelay i l).d = s.d.set i l := (rfl)
@[simp] theorem State.withDelay_inBuf (i : Fin 2) (l : DelayLine) : (s.withDelay i l).inBuf = s.inBuf := (rfl)
@[simp] theorem State.withDelay_outBuf (i : Fin 2) (l : DelayLine) : (s.withDelay i l).outBuf = s.outBuf := (rfl)
@[simp] theorem State.withDelay_outSize (i : Fin 2) (l : DelayLine) : (s.withDelay i l).outSize = s.outSize := (rfl)
@[simp] theorem State.withDelay_cpc (i : Fin 2) (l : DelayLine) : (s.withDelay i l).cpc = s.cpc := (rfl)
@[simp] theorem State.withDelay_frameIdx (i : Fin 2) (l : DelayLine) : (s.withDelay i l).frameIdx = s.frameIdx := (rfl)
@[simp] theorem State.withDelay_response (i : Fin 2) (l : DelayLine) : (s.withDelay i l).response = s.response := (rfl)
@[simp] theorem State.withDelay_uIn (i : Fin 2) (l : DelayLine) : (s.withDelay i l).uIn = s.uIn := (rfl)
@[simp] theorem State.withDelay_uOut (i : Fin 2) (l : DelayLine) : (s.withDelay i l).uOut = s.uOut := (rfl)
@[simp] theorem State.withDelay_unitBus (i : Fin 2) (l : DelayLine) : (s.withDelay i l).unitBus = s.unitBus := (rfl)
@[simp] theorem State.withDelay_port (i : Fin 2) (l : DelayLine) : (s.withDelay i l).port = s.port := (rfl)
@[simp] theorem State.withDelay_draws (i : Fin 2) (l : DelayLine) : (s.withDelay i l).draws = s.draws := (rfl)

/-! ### markReset -/

@[simp] theorem State.markReset_params : (s.markReset).params = s.params := (rfl)
@[simp] theorem State.markReset_sampleRate : (s.markReset).sampleRate = s.sampleRate := (rfl)
@[simp] theorem State.markReset_initialized : (s.markReset).initialized = true := (rfl)
@[simp] theorem State.markReset_rateDirty : (s.markReset).rateDirty = false := (rfl)
@[simp] theorem State.markReset_status : (s.markReset).status = s.status := (rfl)
@[simp] theorem State.markReset_delayLen : (s.markReset).delayLen = s.delayLen := (rfl)
@[simp] theorem State.markReset_k : (s.markReset).k = s.k := (rfl)
@[simp] theorem State.markReset_f : (s.markReset).f = s.f := (rfl)
@[simp] theorem State.markReset_p : (s.markReset).p = s.p := (rfl)
@[simp] theorem State.markReset_d : (s.markReset).d = s.d := (rfl)
@[simp] theorem State.markReset_inBuf : (s.markReset).inBuf = s.inBuf := (rfl)
@[simp] theorem State.markReset_outBuf : (s.markReset).outBuf = s.outBuf := (rfl)
@[simp] theorem State.markReset_outSize : (s.markReset).outSize = s.outSize := (rfl)
@[simp] theorem State.markReset_cpc : (s.markReset).cpc = s.cpc := (rfl)
@[simp] theorem State.markReset_frameIdx : (s.markReset).frameIdx = s.frameIdx := (rfl)
@[simp] theorem State.markReset_response : (s.markReset).response = s.response := (rfl)
@[simp] theorem State.markReset_uIn : (s.markReset).uIn = s.uIn := (rfl)
@[simp] theorem State.markReset_uOut : (s.markReset).uOut = s.uOut := (rfl)
@[simp] theorem State.markReset_unitBus : (s.markReset).unitBus = s.unitBus := (rfl)
@[simp] theorem State.markReset_port : (s.markReset).port = s.port := (rfl)
@[simp] theorem State.markReset_draws : (s.markReset).draws = s.draws := (rfl)

/-! ### atFrame -/

@[simp] theorem State.atFrame_params (i : Nat) : (s.atFrame i).params = s.params := (rfl)
@[simp] theorem State.atFrame_sampleRate (i : Nat) : (s.atFrame i).sampleRate = s.sampleRate := (rfl)
@[simp] theorem State.atFrame_initialized (i : Nat) : (s.atFrame i).initialized = s.initialized := (rfl)
@[simp] theorem State.atFrame_rateDirty (i : Nat) : (s.atFrame i).rateDirty = s.rateDirty := (rfl)
@[simp] theorem State.atFrame_status (i : Nat) : (s.atFrame i).status = s.status := (rfl)
@[simp] theorem State.atFrame_delayLen (i : Nat) : (s.atFrame i).delayLen = s.delayLen := (rfl)
@[simp] theorem State.atFrame_k (i : Nat) : (s.atFrame i).k = s.k := (rfl)
@[simp] theorem State.atFrame_f (i : Nat) : (s.atFrame i).f = s.f := (rfl)
@[simp] theorem State.atFrame_p (i : Nat) : (s.atFrame i).p = s.p := (rfl)
@[simp] theorem State.atFrame_d (i : Nat) : (s.atFrame i).d = s.d := (rfl)
@[simp] theorem State.atFrame_inBuf (i : Nat) : (s.atFrame i).inBuf = s.inBuf := (rfl)
@[simp] theorem State.atFrame_outBuf (i : Nat) : (s.atFrame i).outBuf = s.outBuf := (rfl)
@[simp] theorem State.atFrame_outSize (i : Nat) : (s.atFrame i).outSize = s.outSize := (rfl)
@[simp] theorem State.atFrame_cpc (i : Nat) : (s.atFrame i).cpc = s.cpc := (rfl)
@[simp] theorem State.atFrame_frameIdx (i : Nat) : (s.atFrame i).frameIdx = i := (rfl)
@[simp] theorem State.atFrame_response (i : Nat) : (s.atFrame i).response = s.response := (rfl)
@[simp] theorem State.atFrame_uIn (i : Nat) : (s.atFrame i).uIn = s.uIn := (rfl)
@[simp] theorem State.atFrame_uOut (i : Nat) : (s.atFrame i).uOut = s.uOut := (rfl)
@[simp] theorem State.atFrame_unitBus (i : Nat) : (s.atFrame i).unitBus = s.unitBus := (rfl)
@[simp] theorem State.atFrame_port (i : Nat) : (s.atFrame i).port = s.port := (rfl)
@[simp] theorem State.atFrame_draws (i : Nat) : (s.atFrame i).draws = s.draws := (rfl)

/-! ### drive -/

@[simp] theorem State.drive_params (u : B32) : (s.drive u).params = s.params := (rfl)
@[simp] theorem State.drive_sampleRate (u : B32) : (s.drive u).sampleRate = s.sampleRate := (rfl)
@[simp] theorem State.drive_initialized (u : B32) : (s.drive u).initialized = s.initialized := (rfl)
@[simp] theorem State.drive_rateDirty (u : B32) : (s.drive u).rateDirty = s.rateDirty := (rfl)
@[simp] theorem State.drive_status (u : B32) : (s.drive u).status = s.status := (rfl)
@[simp] theorem State.drive_delayLen (u : B32) : (s.drive u).delayLen = s.delayLen := (rfl)
@[simp] theorem State.drive_k (u : B32) : (s.drive u).k = s.k := (rfl)
@[simp] theorem State.drive_f (u : B32) : (s.drive u).f = s.f := (rfl)
@[simp] theorem State.drive_p (u : B32) : (s.drive u).p = s.p := (rfl)
@[simp] theorem State.drive_d (u : B32) : (s.drive u).d = s.d := (rfl)
@[simp] theorem State.drive_inBuf (u : B32) : (s.drive u).inBuf = s.inBuf := (rfl)
@[simp] theorem State.drive_outBuf (u : B32) : (s.drive u).outBuf = s.outBuf := (rfl)
@[simp] theorem State.drive_outSize (u : B32) : (s.drive u).outSize = s.outSize := (rfl)
@[simp] theorem State.drive_cpc (u : B32) : (s.drive u).cpc = s.cpc := (rfl)
@[simp] theorem State.drive_frameIdx (u : B32) : (s.drive u).frameIdx = s.frameIdx := (rfl)
@[simp] theorem State.drive_response (u : B32) : (s.drive u).response = s.response := (rfl)
@[simp] theorem State.drive_uIn (u : B32) : (s.drive u).uIn = u := (rfl)
@[simp] theorem State.drive_uOut (u : B32) : (s.drive u).uOut = s.uOut := (rfl)
@[simp] theorem State.drive_unitBus (u : B32) : (s.drive u).unitBus = s.unitBus := (rfl)
@[simp] theorem State.drive_port (u : B32) : (s.drive u).port = s.port := (rfl)
@[simp] theorem State.drive_draws (u : B32) : (s.drive u).draws = s.draws := (rfl)

/-! ### answer -/

@[simp] theorem State.answer_params (u : B32) : (s.answer u).params = s.params := (rfl)
@[simp] theorem State.answer_sampleRate (u : B32) : (s.answer u).sampleRate = s.sampleRate := (rfl)
@[simp] theorem State.answer_initialized (u : B32) : (s.answer u).initialized = s.initialized := (rfl)
@[simp] theorem State.answer_rateDirty (u : B32) : (s.answer u).rateDirty = s.rateDirty := (rfl)
@[simp] theorem State.answer_status (u : B32) : (s.answer u).status = s.status := (rfl)
@[simp] theorem State.answer_delayLen (u : B32) : (s.answer u).delayLen = s.delayLen := (rfl)
@[simp] theorem State.answer_k (u : B32) : (s.answer u).k = s.k := (rfl)
@[simp] theorem State.answer_f (u : B32) : (s.answer u).f = s.f := (rfl)
@[simp] theorem State.answer_p (u : B32) : (s.answer u).p = s.p := (rfl)
@[simp] theorem State.answer_d (u : B32) : (s.answer u).d = s.d := (rfl)
@[simp] theorem State.answer_inBuf (u : B32) : (s.answer u).inBuf = s.inBuf := (rfl)
@[simp] theorem State.answer_outBuf (u : B32) : (s.answer u).outBuf = s.outBuf := (rfl)
@[simp] theorem State.answer_outSize (u : B32) : (s.answer u).outSize = s.outSize := (rfl)
@[simp] theorem State.answer_cpc (u : B32) : (s.answer u).cpc = s.cpc := (rfl)
@[simp] theorem State.answer_frameIdx (u : B32) : (s.answer u).frameIdx = s.frameIdx := (rfl)
@[simp] theorem State.answer_response (u : B32) : (s.answer u).response = s.response := (rfl)
@[simp] theorem State.answer_uIn (u : B32) : (s.answer u).uIn = s.uIn := (rfl)
@[simp] theorem State.answer_uOut (u : B32) : (s.answer u).uOut = u := (rfl)
@[simp] theorem State.answer_unitBus (u : B32) : (s.answer u).unitBus = s.unitBus := (rfl)
@[simp] theorem State.answer_port (u : B32) : (s.answer u).port = s.port := (rfl)
@[simp] theorem State.answer_draws (u : B32) : (s.answer u).draws = s.draws + drawStride := (rfl)

/-! ### tick -/

@[simp] theorem State.tick_params : (s.tick).params = s.params := (rfl)
@[simp] theorem State.tick_sampleRate : (s.tick).sampleRate = s.sampleRate := (rfl)
@[simp] theorem State.tick_initialized : (s.tick).initialized = s.initialized := (rfl)
@[simp] theorem State.tick_rateDirty : (s.tick).rateDirty = s.rateDirty := (rfl)
@[simp] theorem State.tick_status : (s.tick).status = s.status := (rfl)
@[simp] theorem State.tick_delayLen : (s.tick).delayLen = s.delayLen := (rfl)
@[simp] theorem State.tick_k : (s.tick).k = s.k := (rfl)
@[simp] theorem State.tick_f : (s.tick).f = s.f := (rfl)
@[simp] theorem State.tick_p : (s.tick).p = s.p := (rfl)
@[simp] theorem State.tick_d : (s.tick).d = s.d := (rfl)
@[simp] theorem State.tick_inBuf : (s.tick).inBuf = s.inBuf := (rfl)
@[simp] theorem State.tick_outBuf : (s.tick).outBuf = s.outBuf := (rfl)
@[simp] theorem State.tick_outSize : (s.tick).outSize = s.outSize := (rfl)
@[simp] theorem State.tick_cpc : (s.tick).cpc = s.cpc := (rfl)
@[simp] theorem State.tick_frameIdx : (s.tick).frameIdx = s.frameIdx := (rfl)
@[simp] theorem State.tick_response : (s.tick).response = s.response := (rfl)
@[simp] theorem State.tick_uIn : (s.tick).uIn = s.uIn := (rfl)
@[simp] theorem State.tick_uOut : (s.tick).uOut = s.uOut := (rfl)
@[simp] theorem State.tick_unitBus : (s.tick).unitBus = s.unitBus := (rfl)
@[simp] theorem State.tick_port : (s.tick).port = s.port := (rfl)
@[simp] theorem State.tick_draws : (s.tick).draws = s.draws + drawStride := (rfl)

/-! ### writeOut -/

@[simp] theorem State.writeOut_params (i : Nat) (v : Sample) : (s.writeOut i v).params = s.params := (rfl)
@[simp] theorem State.writeOut_sampleRate (i : Nat) (v : Sample) : (s.writeOut i v).sampleRate = s.sampleRate := (rfl)
@[simp] theorem State.writeOut_initialized (i : Nat) (v : Sample) : (s.writeOut i v).initialized = s.initialized := (rfl)
@[simp] theorem State.writeOut_rateDirty (i : Nat) (v : Sample) : (s.writeOut i v).rateDirty = s.rateDirty := (rfl)
@[simp] theorem State.writeOut_status (i : Nat) (v : Sample) : (s.writeOut i v).status = s.status := (rfl)
@[simp] theorem State.writeOut_delayLen (i : Nat) (v : Sample) : (s.writeOut i v).delayLen = s.delayLen := (rfl)
@[simp] theorem State.writeOut_k (i : Nat) (v : Sample) : (s.writeOut i v).k = s.k := (rfl)
@[simp] theorem State.writeOut_f (i : Nat) (v : Sample) : (s.writeOut i v).f = s.f := (rfl)
@[simp] theorem State.writeOut_p (i : Nat) (v : Sample) : (s.writeOut i v).p = s.p := (rfl)
@[simp] theorem State.writeOut_d (i : Nat) (v : Sample) : (s.writeOut i v).d = s.d := (rfl)
@[simp] theorem State.writeOut_inBuf (i : Nat) (v : Sample) : (s.writeOut i v).inBuf = s.inBuf := (rfl)
@[simp] theorem State.writeOut_outBuf (i : Nat) (v : Sample) : (s.writeOut i v).outBuf = Memory.poke s.outBuf i v := (rfl)
@[simp] theorem State.writeOut_outSize (i : Nat) (v : Sample) : (s.writeOut i v).outSize = s.outSize := (rfl)
@[simp] theorem State.writeOut_cpc (i : Nat) (v : Sample) : (s.writeOut i v).cpc = s.cpc := (rfl)
@[simp] theorem State.writeOut_frameIdx (i : Nat) (v : Sample) : (s.writeOut i v).frameIdx = s.frameIdx := (rfl)
@[simp] theorem State.writeOut_response (i : Nat) (v : Sample) : (s.writeOut i v).response = s.response := (rfl)
@[simp] theorem State.writeOut_uIn (i : Nat) (v : Sample) : (s.writeOut i v).uIn = s.uIn := (rfl)
@[simp] theorem State.writeOut_uOut (i : Nat) (v : Sample) : (s.writeOut i v).uOut = s.uOut := (rfl)
@[simp] theorem State.writeOut_unitBus (i : Nat) (v : Sample) : (s.writeOut i v).unitBus = s.unitBus := (rfl)
@[simp] theorem State.writeOut_port (i : Nat) (v : Sample) : (s.writeOut i v).port = s.port := (rfl)
@[simp] theorem State.writeOut_draws (i : Nat) (v : Sample) : (s.writeOut i v).draws = s.draws := (rfl)

/-! ### fillIn -/

@[simp] theorem State.fillIn_params (vs : List Sample) : (s.fillIn vs).params = s.params := (rfl)
@[simp] theorem State.fillIn_sampleRate (vs : List Sample) : (s.fillIn vs).sampleRate = s.sampleRate := (rfl)
@[simp] theorem State.fillIn_initialized (vs : List Sample) : (s.fillIn vs).initialized = s.initialized := (rfl)
@[simp] theorem State.fillIn_rateDirty (vs : List Sample) : (s.fillIn vs).rateDirty = s.rateDirty := (rfl)
@[simp] theorem State.fillIn_status (vs : List Sample) : (s.fillIn vs).status = s.status := (rfl)
@[simp] theorem State.fillIn_delayLen (vs : List Sample) : (s.fillIn vs).delayLen = s.delayLen := (rfl)
@[simp] theorem State.fillIn_k (vs : List Sample) : (s.fillIn vs).k = s.k := (rfl)
@[simp] theorem State.fillIn_f (vs : List Sample) : (s.fillIn vs).f = s.f := (rfl)
@[simp] theorem State.fillIn_p (vs : List Sample) : (s.fillIn vs).p = s.p := (rfl)
@[simp] theorem State.fillIn_d (vs : List Sample) : (s.fillIn vs).d = s.d := (rfl)
@[simp] theorem State.fillIn_inBuf (vs : List Sample) : (s.fillIn vs).inBuf = Memory.ofListFrom 0 vs := (rfl)
@[simp] theorem State.fillIn_outBuf (vs : List Sample) : (s.fillIn vs).outBuf = s.outBuf := (rfl)
@[simp] theorem State.fillIn_outSize (vs : List Sample) : (s.fillIn vs).outSize = s.outSize := (rfl)
@[simp] theorem State.fillIn_cpc (vs : List Sample) : (s.fillIn vs).cpc = s.cpc := (rfl)
@[simp] theorem State.fillIn_frameIdx (vs : List Sample) : (s.fillIn vs).frameIdx = s.frameIdx := (rfl)
@[simp] theorem State.fillIn_response (vs : List Sample) : (s.fillIn vs).response = s.response := (rfl)
@[simp] theorem State.fillIn_uIn (vs : List Sample) : (s.fillIn vs).uIn = s.uIn := (rfl)
@[simp] theorem State.fillIn_uOut (vs : List Sample) : (s.fillIn vs).uOut = s.uOut := (rfl)
@[simp] theorem State.fillIn_unitBus (vs : List Sample) : (s.fillIn vs).unitBus = s.unitBus := (rfl)
@[simp] theorem State.fillIn_port (vs : List Sample) : (s.fillIn vs).port = s.port := (rfl)
@[simp] theorem State.fillIn_draws (vs : List Sample) : (s.fillIn vs).draws = s.draws := (rfl)

/-! ### provideOut -/

@[simp] theorem State.provideOut_params (n : Nat) : (s.provideOut n).params = s.params := (rfl)
@[simp] theorem State.provideOut_sampleRate (n : Nat) : (s.provideOut n).sampleRate = s.sampleRate := (rfl)
@[simp] theorem State.provideOut_initialized (n : Nat) : (s.provideOut n).initialized = s.initialized := (rfl)
@[simp] theorem State.provideOut_rateDirty (n : Nat) : (s.provideOut n).rateDirty = s.rateDirty := (rfl)
@[simp] theorem State.provideOut_status (n : Nat) : (s.provideOut n).status = s.status := (rfl)
@[simp] theorem State.provideOut_delayLen (n : Nat) : (s.provideOut n).delayLen = s.delayLen := (rfl)
@[simp] theorem State.provideOut_k (n : Nat) : (s.provideOut n).k = s.k := (rfl)
@[simp] theorem State.provideOut_f (n : Nat) : (s.provideOut n).f = s.f := (rfl)
@[simp] theorem State.provideOut_p (n : Nat) : (s.provideOut n).p = s.p := (rfl)
@[simp] theorem State.provideOut_d (n : Nat) : (s.provideOut n).d = s.d := (rfl)
@[simp] theorem State.provideOut_inBuf (n : Nat) : (s.provideOut n).inBuf = s.inBuf := (rfl)
@[simp] theorem State.provideOut_outBuf (n : Nat) : (s.provideOut n).outBuf = [] := (rfl)
@[simp] theorem State.provideOut_outSize (n : Nat) : (s.provideOut n).outSize = n := (rfl)
@[simp] theorem State.provideOut_cpc (n : Nat) : (s.provideOut n).cpc = s.cpc := (rfl)
@[simp] theorem State.provideOut_frameIdx (n : Nat) : (s.provideOut n).frameIdx = s.frameIdx := (rfl)
@[simp] theorem State.provideOut_response (n : Nat) : (s.provideOut n).response = s.response := (rfl)
@[simp] theorem State.provideOut_uIn (n : Nat) : (s.provideOut n).uIn = s.uIn := (rfl)
@[simp] theorem State.provideOut_uOut (n : Nat) : (s.provideOut n).uOut = s.uOut := (rfl)
@[simp] theorem State.provideOut_unitBus (n : Nat) : (s.provideOut n).unitBus = s.unitBus := (rfl)
@[simp] theorem State.provideOut_port (n : Nat) : (s.provideOut n).port = s.port := (rfl)
@[simp] theorem State.provideOut_draws (n : Nat) : (s.provideOut n).draws = s.draws := (rfl)

/-! ### hardwareReset -/

@[simp] theorem State.hardwareReset_params : (s.hardwareReset).params = s.params := (rfl)
@[simp] theorem State.hardwareReset_sampleRate : (s.hardwareReset).sampleRate = s.params.rate0 := (rfl)
@[simp] theorem State.hardwareReset_initialized : (s.hardwareReset).initialized = false := (rfl)
@[simp] theorem State.hardwareReset_rateDirty : (s.hardwareReset).rateDirty = false := (rfl)
@[simp] theorem State.hardwareReset_status : (s.hardwareReset).status = 0#5 := (rfl)
@[simp] theorem State.hardwareReset_delayLen : (s.hardwareReset).delayLen = 0 := (rfl)
@[simp] theorem State.hardwareReset_k : (s.hardwareReset).k = Vector.replicate 4 CoefSet.zero := (rfl)
@[simp] theorem State.hardwareReset_f : (s.hardwareReset).f = Vector.replicate 7 FilterState.zero := (rfl)
@[simp] theorem State.hardwareReset_p : (s.hardwareReset).p = Vector.replicate 4 PhaseState.zero := (rfl)
@[simp] theorem State.hardwareReset_d : (s.hardwareReset).d = Vector.replicate 2 DelayLine.zero := (rfl)
@[simp] theorem State.hardwareReset_inBuf : (s.hardwareReset).inBuf = s.inBuf := (rfl)
@[simp] theorem State.hardwareReset_outBuf : (s.hardwareReset).outBuf = s.outBuf := (rfl)
@[simp] theorem State.hardwareReset_outSize : (s.hardwareReset).outSize = s.outSize := (rfl)
@[simp] theorem State.hardwareReset_cpc : (s.hardwareReset).cpc = 0 := (rfl)
@[simp] theorem State.hardwareReset_frameIdx : (s.hardwareReset).frameIdx = 0 := (rfl)
@[simp] theorem State.hardwareReset_response : (s.hardwareReset).response = none := (rfl)
@[simp] theorem State.hardwareReset_uIn : (s.hardwareReset).uIn = 0#32 := (rfl)
@[simp] theorem State.hardwareReset_uOut : (s.hardwareReset).uOut = 0#32 := (rfl)
@[simp] theorem State.hardwareReset_unitBus : (s.hardwareReset).unitBus = [] := (rfl)
@[simp] theorem State.hardwareReset_port : (s.hardwareReset).port = s.port := (rfl)
@[simp] theorem State.hardwareReset_draws : (s.hardwareReset).draws = s.draws := (rfl)

/-! ### The frame's operations (R147) -/

@[simp] theorem State.filter_params (i : Fin 7) (j : Fin 4) (u : B32) :
    (s.filter i j u).params = s.params := by simp [State.filter, State.bqApply]
@[simp] theorem State.filter_sampleRate (i : Fin 7) (j : Fin 4) (u : B32) :
    (s.filter i j u).sampleRate = s.sampleRate := by simp [State.filter, State.bqApply]
@[simp] theorem State.filter_initialized (i : Fin 7) (j : Fin 4) (u : B32) :
    (s.filter i j u).initialized = s.initialized := by simp [State.filter, State.bqApply]
@[simp] theorem State.filter_rateDirty (i : Fin 7) (j : Fin 4) (u : B32) :
    (s.filter i j u).rateDirty = s.rateDirty := by simp [State.filter, State.bqApply]
@[simp] theorem State.filter_status (i : Fin 7) (j : Fin 4) (u : B32) :
    (s.filter i j u).status = s.status := by simp [State.filter, State.bqApply]
@[simp] theorem State.filter_delayLen (i : Fin 7) (j : Fin 4) (u : B32) :
    (s.filter i j u).delayLen = s.delayLen := by simp [State.filter, State.bqApply]
@[simp] theorem State.filter_k (i : Fin 7) (j : Fin 4) (u : B32) :
    (s.filter i j u).k = s.k := by simp [State.filter, State.bqApply]
@[simp] theorem State.filter_f (i : Fin 7) (j : Fin 4) (u : B32) :
    (s.filter i j u).f = s.f.set i (biquadApply s.draws s.k[j] s.f[i] u).1 := by simp [State.filter, State.bqApply]
@[simp] theorem State.filter_p (i : Fin 7) (j : Fin 4) (u : B32) :
    (s.filter i j u).p = s.p := by simp [State.filter, State.bqApply]
@[simp] theorem State.filter_d (i : Fin 7) (j : Fin 4) (u : B32) :
    (s.filter i j u).d = s.d := by simp [State.filter, State.bqApply]
@[simp] theorem State.filter_inBuf (i : Fin 7) (j : Fin 4) (u : B32) :
    (s.filter i j u).inBuf = s.inBuf := by simp [State.filter, State.bqApply]
@[simp] theorem State.filter_outBuf (i : Fin 7) (j : Fin 4) (u : B32) :
    (s.filter i j u).outBuf = s.outBuf := by simp [State.filter, State.bqApply]
@[simp] theorem State.filter_outSize (i : Fin 7) (j : Fin 4) (u : B32) :
    (s.filter i j u).outSize = s.outSize := by simp [State.filter, State.bqApply]
@[simp] theorem State.filter_cpc (i : Fin 7) (j : Fin 4) (u : B32) :
    (s.filter i j u).cpc = s.cpc := by simp [State.filter, State.bqApply]
@[simp] theorem State.filter_frameIdx (i : Fin 7) (j : Fin 4) (u : B32) :
    (s.filter i j u).frameIdx = s.frameIdx := by simp [State.filter, State.bqApply]
@[simp] theorem State.filter_response (i : Fin 7) (j : Fin 4) (u : B32) :
    (s.filter i j u).response = s.response := by simp [State.filter, State.bqApply]
@[simp] theorem State.filter_uIn (i : Fin 7) (j : Fin 4) (u : B32) :
    (s.filter i j u).uIn = u := by simp [State.filter, State.bqApply]
@[simp] theorem State.filter_uOut (i : Fin 7) (j : Fin 4) (u : B32) :
    (s.filter i j u).uOut = (biquadApply s.draws s.k[j] s.f[i] u).2 := by simp [State.filter, State.bqApply]
@[simp] theorem State.filter_unitBus (i : Fin 7) (j : Fin 4) (u : B32) :
    (s.filter i j u).unitBus = s.unitBus := by simp [State.filter, State.bqApply]
@[simp] theorem State.filter_port (i : Fin 7) (j : Fin 4) (u : B32) :
    (s.filter i j u).port = s.port := by simp [State.filter, State.bqApply]
@[simp] theorem State.filter_draws (i : Fin 7) (j : Fin 4) (u : B32) :
    (s.filter i j u).draws = s.draws + drawStride := by simp [State.filter, State.bqApply]

@[simp] theorem State.shift_params (i : Fin 4) (v : Bool) (u : B32) :
    (s.shift i v u).params = s.params := by simp [State.shift, State.psApply]
@[simp] theorem State.shift_sampleRate (i : Fin 4) (v : Bool) (u : B32) :
    (s.shift i v u).sampleRate = s.sampleRate := by simp [State.shift, State.psApply]
@[simp] theorem State.shift_initialized (i : Fin 4) (v : Bool) (u : B32) :
    (s.shift i v u).initialized = s.initialized := by simp [State.shift, State.psApply]
@[simp] theorem State.shift_rateDirty (i : Fin 4) (v : Bool) (u : B32) :
    (s.shift i v u).rateDirty = s.rateDirty := by simp [State.shift, State.psApply]
@[simp] theorem State.shift_status (i : Fin 4) (v : Bool) (u : B32) :
    (s.shift i v u).status = s.status := by simp [State.shift, State.psApply]
@[simp] theorem State.shift_delayLen (i : Fin 4) (v : Bool) (u : B32) :
    (s.shift i v u).delayLen = s.delayLen := by simp [State.shift, State.psApply]
@[simp] theorem State.shift_k (i : Fin 4) (v : Bool) (u : B32) :
    (s.shift i v u).k = s.k := by simp [State.shift, State.psApply]
@[simp] theorem State.shift_f (i : Fin 4) (v : Bool) (u : B32) :
    (s.shift i v u).f = s.f := by simp [State.shift, State.psApply]
@[simp] theorem State.shift_p (i : Fin 4) (v : Bool) (u : B32) :
    (s.shift i v u).p = s.p.set i (phaseApply s.params s.draws s.sampleRate v s.p[i] u).1 := by simp [State.shift, State.psApply]
@[simp] theorem State.shift_d (i : Fin 4) (v : Bool) (u : B32) :
    (s.shift i v u).d = s.d := by simp [State.shift, State.psApply]
@[simp] theorem State.shift_inBuf (i : Fin 4) (v : Bool) (u : B32) :
    (s.shift i v u).inBuf = s.inBuf := by simp [State.shift, State.psApply]
@[simp] theorem State.shift_outBuf (i : Fin 4) (v : Bool) (u : B32) :
    (s.shift i v u).outBuf = s.outBuf := by simp [State.shift, State.psApply]
@[simp] theorem State.shift_outSize (i : Fin 4) (v : Bool) (u : B32) :
    (s.shift i v u).outSize = s.outSize := by simp [State.shift, State.psApply]
@[simp] theorem State.shift_cpc (i : Fin 4) (v : Bool) (u : B32) :
    (s.shift i v u).cpc = s.cpc := by simp [State.shift, State.psApply]
@[simp] theorem State.shift_frameIdx (i : Fin 4) (v : Bool) (u : B32) :
    (s.shift i v u).frameIdx = s.frameIdx := by simp [State.shift, State.psApply]
@[simp] theorem State.shift_response (i : Fin 4) (v : Bool) (u : B32) :
    (s.shift i v u).response = s.response := by simp [State.shift, State.psApply]
@[simp] theorem State.shift_uIn (i : Fin 4) (v : Bool) (u : B32) :
    (s.shift i v u).uIn = u := by simp [State.shift, State.psApply]
@[simp] theorem State.shift_uOut (i : Fin 4) (v : Bool) (u : B32) :
    (s.shift i v u).uOut = (phaseApply s.params s.draws s.sampleRate v s.p[i] u).2 := by simp [State.shift, State.psApply]
@[simp] theorem State.shift_unitBus (i : Fin 4) (v : Bool) (u : B32) :
    (s.shift i v u).unitBus = s.unitBus := by simp [State.shift, State.psApply]
@[simp] theorem State.shift_port (i : Fin 4) (v : Bool) (u : B32) :
    (s.shift i v u).port = s.port := by simp [State.shift, State.psApply]
@[simp] theorem State.shift_draws (i : Fin 4) (v : Bool) (u : B32) :
    (s.shift i v u).draws = s.draws + drawStride := by simp [State.shift, State.psApply]

@[simp] theorem State.delay_params (i : Fin 2) (u : B32) :
    (s.delay i u).params = s.params := by simp [State.delay, State.dlPush]
@[simp] theorem State.delay_sampleRate (i : Fin 2) (u : B32) :
    (s.delay i u).sampleRate = s.sampleRate := by simp [State.delay, State.dlPush]
@[simp] theorem State.delay_initialized (i : Fin 2) (u : B32) :
    (s.delay i u).initialized = s.initialized := by simp [State.delay, State.dlPush]
@[simp] theorem State.delay_rateDirty (i : Fin 2) (u : B32) :
    (s.delay i u).rateDirty = s.rateDirty := by simp [State.delay, State.dlPush]
@[simp] theorem State.delay_status (i : Fin 2) (u : B32) :
    (s.delay i u).status = s.status := by simp [State.delay, State.dlPush]
@[simp] theorem State.delay_delayLen (i : Fin 2) (u : B32) :
    (s.delay i u).delayLen = s.delayLen := by simp [State.delay, State.dlPush]
@[simp] theorem State.delay_k (i : Fin 2) (u : B32) :
    (s.delay i u).k = s.k := by simp [State.delay, State.dlPush]
@[simp] theorem State.delay_f (i : Fin 2) (u : B32) :
    (s.delay i u).f = s.f := by simp [State.delay, State.dlPush]
@[simp] theorem State.delay_p (i : Fin 2) (u : B32) :
    (s.delay i u).p = s.p := by simp [State.delay, State.dlPush]
@[simp] theorem State.delay_d (i : Fin 2) (u : B32) :
    (s.delay i u).d = s.d.set i (delayPush s.draws s.delayLen s.params.maxDelay s.d[i] u).1 := by simp [State.delay, State.dlPush]
@[simp] theorem State.delay_inBuf (i : Fin 2) (u : B32) :
    (s.delay i u).inBuf = s.inBuf := by simp [State.delay, State.dlPush]
@[simp] theorem State.delay_outBuf (i : Fin 2) (u : B32) :
    (s.delay i u).outBuf = s.outBuf := by simp [State.delay, State.dlPush]
@[simp] theorem State.delay_outSize (i : Fin 2) (u : B32) :
    (s.delay i u).outSize = s.outSize := by simp [State.delay, State.dlPush]
@[simp] theorem State.delay_cpc (i : Fin 2) (u : B32) :
    (s.delay i u).cpc = s.cpc := by simp [State.delay, State.dlPush]
@[simp] theorem State.delay_frameIdx (i : Fin 2) (u : B32) :
    (s.delay i u).frameIdx = s.frameIdx := by simp [State.delay, State.dlPush]
@[simp] theorem State.delay_response (i : Fin 2) (u : B32) :
    (s.delay i u).response = s.response := by simp [State.delay, State.dlPush]
@[simp] theorem State.delay_uIn (i : Fin 2) (u : B32) :
    (s.delay i u).uIn = u := by simp [State.delay, State.dlPush]
@[simp] theorem State.delay_uOut (i : Fin 2) (u : B32) :
    (s.delay i u).uOut = (delayPush s.draws s.delayLen s.params.maxDelay s.d[i] u).2 := by simp [State.delay, State.dlPush]
@[simp] theorem State.delay_unitBus (i : Fin 2) (u : B32) :
    (s.delay i u).unitBus = s.unitBus := by simp [State.delay, State.dlPush]
@[simp] theorem State.delay_port (i : Fin 2) (u : B32) :
    (s.delay i u).port = s.port := by simp [State.delay, State.dlPush]
@[simp] theorem State.delay_draws (i : Fin 2) (u : B32) :
    (s.delay i u).draws = s.draws + drawStride := by simp [State.delay, State.dlPush]

@[simp] theorem State.centre_params (m : B32) :
    (s.centre m).params = s.params := by simp [State.centre]
@[simp] theorem State.centre_sampleRate (m : B32) :
    (s.centre m).sampleRate = s.sampleRate := by simp [State.centre]
@[simp] theorem State.centre_initialized (m : B32) :
    (s.centre m).initialized = s.initialized := by simp [State.centre]
@[simp] theorem State.centre_rateDirty (m : B32) :
    (s.centre m).rateDirty = s.rateDirty := by simp [State.centre]
@[simp] theorem State.centre_status (m : B32) :
    (s.centre m).status = s.status := by simp [State.centre]
@[simp] theorem State.centre_delayLen (m : B32) :
    (s.centre m).delayLen = s.delayLen := by simp [State.centre]
@[simp] theorem State.centre_k (m : B32) :
    (s.centre m).k = s.k := by simp [State.centre]
@[simp] theorem State.centre_p (m : B32) :
    (s.centre m).p = s.p := by simp [State.centre]
@[simp] theorem State.centre_d (m : B32) :
    (s.centre m).d = s.d := by simp [State.centre]
@[simp] theorem State.centre_inBuf (m : B32) :
    (s.centre m).inBuf = s.inBuf := by simp [State.centre]
@[simp] theorem State.centre_outBuf (m : B32) :
    (s.centre m).outBuf = s.outBuf := by simp [State.centre]
@[simp] theorem State.centre_outSize (m : B32) :
    (s.centre m).outSize = s.outSize := by simp [State.centre]
@[simp] theorem State.centre_cpc (m : B32) :
    (s.centre m).cpc = s.cpc := by simp [State.centre]
@[simp] theorem State.centre_frameIdx (m : B32) :
    (s.centre m).frameIdx = s.frameIdx := by simp [State.centre]
@[simp] theorem State.centre_response (m : B32) :
    (s.centre m).response = s.response := by simp [State.centre]
@[simp] theorem State.centre_unitBus (m : B32) :
    (s.centre m).unitBus = s.unitBus := by simp [State.centre]
@[simp] theorem State.centre_port (m : B32) :
    (s.centre m).port = s.port := by simp [State.centre]
@[simp] theorem State.centre_draws (m : B32) :
    (s.centre m).draws = s.draws + 2 * drawStride := by
  simp only [State.centre, State.filter_draws]
  omega

@[simp] theorem State.surround_params (F : Fmt) (t : Nat) (fl fr : Fin 7) (pl pr : Fin 4) (i : Fin 2) (l r : B32) :
    (s.surround F t fl fr pl pr i l r).params = s.params := by simp [State.surround]
@[simp] theorem State.surround_sampleRate (F : Fmt) (t : Nat) (fl fr : Fin 7) (pl pr : Fin 4) (i : Fin 2) (l r : B32) :
    (s.surround F t fl fr pl pr i l r).sampleRate = s.sampleRate := by simp [State.surround]
@[simp] theorem State.surround_initialized (F : Fmt) (t : Nat) (fl fr : Fin 7) (pl pr : Fin 4) (i : Fin 2) (l r : B32) :
    (s.surround F t fl fr pl pr i l r).initialized = s.initialized := by simp [State.surround]
@[simp] theorem State.surround_rateDirty (F : Fmt) (t : Nat) (fl fr : Fin 7) (pl pr : Fin 4) (i : Fin 2) (l r : B32) :
    (s.surround F t fl fr pl pr i l r).rateDirty = s.rateDirty := by simp [State.surround]
@[simp] theorem State.surround_status (F : Fmt) (t : Nat) (fl fr : Fin 7) (pl pr : Fin 4) (i : Fin 2) (l r : B32) :
    (s.surround F t fl fr pl pr i l r).status = s.status := by simp [State.surround]
@[simp] theorem State.surround_delayLen (F : Fmt) (t : Nat) (fl fr : Fin 7) (pl pr : Fin 4) (i : Fin 2) (l r : B32) :
    (s.surround F t fl fr pl pr i l r).delayLen = s.delayLen := by simp [State.surround]
@[simp] theorem State.surround_k (F : Fmt) (t : Nat) (fl fr : Fin 7) (pl pr : Fin 4) (i : Fin 2) (l r : B32) :
    (s.surround F t fl fr pl pr i l r).k = s.k := by simp [State.surround]
@[simp] theorem State.surround_inBuf (F : Fmt) (t : Nat) (fl fr : Fin 7) (pl pr : Fin 4) (i : Fin 2) (l r : B32) :
    (s.surround F t fl fr pl pr i l r).inBuf = s.inBuf := by simp [State.surround]
@[simp] theorem State.surround_outBuf (F : Fmt) (t : Nat) (fl fr : Fin 7) (pl pr : Fin 4) (i : Fin 2) (l r : B32) :
    (s.surround F t fl fr pl pr i l r).outBuf = s.outBuf := by simp [State.surround]
@[simp] theorem State.surround_outSize (F : Fmt) (t : Nat) (fl fr : Fin 7) (pl pr : Fin 4) (i : Fin 2) (l r : B32) :
    (s.surround F t fl fr pl pr i l r).outSize = s.outSize := by simp [State.surround]
@[simp] theorem State.surround_cpc (F : Fmt) (t : Nat) (fl fr : Fin 7) (pl pr : Fin 4) (i : Fin 2) (l r : B32) :
    (s.surround F t fl fr pl pr i l r).cpc = s.cpc := by simp [State.surround]
@[simp] theorem State.surround_frameIdx (F : Fmt) (t : Nat) (fl fr : Fin 7) (pl pr : Fin 4) (i : Fin 2) (l r : B32) :
    (s.surround F t fl fr pl pr i l r).frameIdx = s.frameIdx := by simp [State.surround]
@[simp] theorem State.surround_response (F : Fmt) (t : Nat) (fl fr : Fin 7) (pl pr : Fin 4) (i : Fin 2) (l r : B32) :
    (s.surround F t fl fr pl pr i l r).response = s.response := by simp [State.surround]
@[simp] theorem State.surround_unitBus (F : Fmt) (t : Nat) (fl fr : Fin 7) (pl pr : Fin 4) (i : Fin 2) (l r : B32) :
    (s.surround F t fl fr pl pr i l r).unitBus = s.unitBus := by simp [State.surround]
@[simp] theorem State.surround_port (F : Fmt) (t : Nat) (fl fr : Fin 7) (pl pr : Fin 4) (i : Fin 2) (l r : B32) :
    (s.surround F t fl fr pl pr i l r).port = s.port := by simp [State.surround]
@[simp] theorem State.surround_draws (F : Fmt) (t : Nat) (fl fr : Fin 7) (pl pr : Fin 4) (i : Fin 2) (l r : B32) :
    (s.surround F t fl fr pl pr i l r).draws = s.draws + 5 * drawStride := by
  simp only [State.surround, State.filter_draws, State.shift_draws, State.delay_draws]
  omega

@[simp] theorem State.lowEffects_params (m : B32) :
    (s.lowEffects m).params = s.params := by simp [State.lowEffects]
@[simp] theorem State.lowEffects_sampleRate (m : B32) :
    (s.lowEffects m).sampleRate = s.sampleRate := by simp [State.lowEffects]
@[simp] theorem State.lowEffects_initialized (m : B32) :
    (s.lowEffects m).initialized = s.initialized := by simp [State.lowEffects]
@[simp] theorem State.lowEffects_rateDirty (m : B32) :
    (s.lowEffects m).rateDirty = s.rateDirty := by simp [State.lowEffects]
@[simp] theorem State.lowEffects_status (m : B32) :
    (s.lowEffects m).status = s.status := by simp [State.lowEffects]
@[simp] theorem State.lowEffects_delayLen (m : B32) :
    (s.lowEffects m).delayLen = s.delayLen := by simp [State.lowEffects]
@[simp] theorem State.lowEffects_k (m : B32) :
    (s.lowEffects m).k = s.k := by simp [State.lowEffects]
@[simp] theorem State.lowEffects_p (m : B32) :
    (s.lowEffects m).p = s.p := by simp [State.lowEffects]
@[simp] theorem State.lowEffects_d (m : B32) :
    (s.lowEffects m).d = s.d := by simp [State.lowEffects]
@[simp] theorem State.lowEffects_inBuf (m : B32) :
    (s.lowEffects m).inBuf = s.inBuf := by simp [State.lowEffects]
@[simp] theorem State.lowEffects_outBuf (m : B32) :
    (s.lowEffects m).outBuf = s.outBuf := by simp [State.lowEffects]
@[simp] theorem State.lowEffects_outSize (m : B32) :
    (s.lowEffects m).outSize = s.outSize := by simp [State.lowEffects]
@[simp] theorem State.lowEffects_cpc (m : B32) :
    (s.lowEffects m).cpc = s.cpc := by simp [State.lowEffects]
@[simp] theorem State.lowEffects_frameIdx (m : B32) :
    (s.lowEffects m).frameIdx = s.frameIdx := by simp [State.lowEffects]
@[simp] theorem State.lowEffects_response (m : B32) :
    (s.lowEffects m).response = s.response := by simp [State.lowEffects]
@[simp] theorem State.lowEffects_uIn (m : B32) :
    (s.lowEffects m).uIn = m := by simp [State.lowEffects]
@[simp] theorem State.lowEffects_unitBus (m : B32) :
    (s.lowEffects m).unitBus = s.unitBus := by simp [State.lowEffects]
@[simp] theorem State.lowEffects_port (m : B32) :
    (s.lowEffects m).port = s.port := by simp [State.lowEffects]
@[simp] theorem State.lowEffects_draws (m : B32) :
    (s.lowEffects m).draws = s.draws + drawStride := by simp [State.lowEffects]

@[simp] theorem State.emit_params (t i : Nat) (fl fr ce lfe sl sr : B32) :
    (s.emit t i fl fr ce lfe sl sr).params = s.params := by simp [State.emit]
@[simp] theorem State.emit_sampleRate (t i : Nat) (fl fr ce lfe sl sr : B32) :
    (s.emit t i fl fr ce lfe sl sr).sampleRate = s.sampleRate := by simp [State.emit]
@[simp] theorem State.emit_initialized (t i : Nat) (fl fr ce lfe sl sr : B32) :
    (s.emit t i fl fr ce lfe sl sr).initialized = s.initialized := by simp [State.emit]
@[simp] theorem State.emit_rateDirty (t i : Nat) (fl fr ce lfe sl sr : B32) :
    (s.emit t i fl fr ce lfe sl sr).rateDirty = s.rateDirty := by simp [State.emit]
@[simp] theorem State.emit_status (t i : Nat) (fl fr ce lfe sl sr : B32) :
    (s.emit t i fl fr ce lfe sl sr).status = s.status := by simp [State.emit]
@[simp] theorem State.emit_delayLen (t i : Nat) (fl fr ce lfe sl sr : B32) :
    (s.emit t i fl fr ce lfe sl sr).delayLen = s.delayLen := by simp [State.emit]
@[simp] theorem State.emit_k (t i : Nat) (fl fr ce lfe sl sr : B32) :
    (s.emit t i fl fr ce lfe sl sr).k = s.k := by simp [State.emit]
@[simp] theorem State.emit_f (t i : Nat) (fl fr ce lfe sl sr : B32) :
    (s.emit t i fl fr ce lfe sl sr).f = s.f := by simp [State.emit]
@[simp] theorem State.emit_p (t i : Nat) (fl fr ce lfe sl sr : B32) :
    (s.emit t i fl fr ce lfe sl sr).p = s.p := by simp [State.emit]
@[simp] theorem State.emit_d (t i : Nat) (fl fr ce lfe sl sr : B32) :
    (s.emit t i fl fr ce lfe sl sr).d = s.d := by simp [State.emit]
@[simp] theorem State.emit_inBuf (t i : Nat) (fl fr ce lfe sl sr : B32) :
    (s.emit t i fl fr ce lfe sl sr).inBuf = s.inBuf := by simp [State.emit]
@[simp] theorem State.emit_outSize (t i : Nat) (fl fr ce lfe sl sr : B32) :
    (s.emit t i fl fr ce lfe sl sr).outSize = s.outSize := by simp [State.emit]
@[simp] theorem State.emit_cpc (t i : Nat) (fl fr ce lfe sl sr : B32) :
    (s.emit t i fl fr ce lfe sl sr).cpc = s.cpc := by simp [State.emit]
@[simp] theorem State.emit_frameIdx (t i : Nat) (fl fr ce lfe sl sr : B32) :
    (s.emit t i fl fr ce lfe sl sr).frameIdx = s.frameIdx := by simp [State.emit]
@[simp] theorem State.emit_response (t i : Nat) (fl fr ce lfe sl sr : B32) :
    (s.emit t i fl fr ce lfe sl sr).response = s.response := by simp [State.emit]
@[simp] theorem State.emit_uIn (t i : Nat) (fl fr ce lfe sl sr : B32) :
    (s.emit t i fl fr ce lfe sl sr).uIn = s.uIn := by simp [State.emit]
@[simp] theorem State.emit_uOut (t i : Nat) (fl fr ce lfe sl sr : B32) :
    (s.emit t i fl fr ce lfe sl sr).uOut = s.uOut := by simp [State.emit]
@[simp] theorem State.emit_unitBus (t i : Nat) (fl fr ce lfe sl sr : B32) :
    (s.emit t i fl fr ce lfe sl sr).unitBus = s.unitBus := by simp [State.emit]
@[simp] theorem State.emit_port (t i : Nat) (fl fr ce lfe sl sr : B32) :
    (s.emit t i fl fr ce lfe sl sr).port = s.port := by simp [State.emit]
@[simp] theorem State.emit_draws (t i : Nat) (fl fr ce lfe sl sr : B32) :
    (s.emit t i fl fr ce lfe sl sr).draws = s.draws := by simp [State.emit]

@[simp] theorem State.mixFrame_params (i : Nat) (l r : Sample) :
    (s.mixFrame i l r).params = s.params := by simp [State.mixFrame]
@[simp] theorem State.mixFrame_sampleRate (i : Nat) (l r : Sample) :
    (s.mixFrame i l r).sampleRate = s.sampleRate := by simp [State.mixFrame]
@[simp] theorem State.mixFrame_initialized (i : Nat) (l r : Sample) :
    (s.mixFrame i l r).initialized = s.initialized := by simp [State.mixFrame]
@[simp] theorem State.mixFrame_rateDirty (i : Nat) (l r : Sample) :
    (s.mixFrame i l r).rateDirty = s.rateDirty := by simp [State.mixFrame]
@[simp] theorem State.mixFrame_status (i : Nat) (l r : Sample) :
    (s.mixFrame i l r).status = s.status := by simp [State.mixFrame]
@[simp] theorem State.mixFrame_delayLen (i : Nat) (l r : Sample) :
    (s.mixFrame i l r).delayLen = s.delayLen := by simp [State.mixFrame]
@[simp] theorem State.mixFrame_k (i : Nat) (l r : Sample) :
    (s.mixFrame i l r).k = s.k := by simp [State.mixFrame]
@[simp] theorem State.mixFrame_inBuf (i : Nat) (l r : Sample) :
    (s.mixFrame i l r).inBuf = s.inBuf := by simp [State.mixFrame]
@[simp] theorem State.mixFrame_outSize (i : Nat) (l r : Sample) :
    (s.mixFrame i l r).outSize = s.outSize := by simp [State.mixFrame]
@[simp] theorem State.mixFrame_cpc (i : Nat) (l r : Sample) :
    (s.mixFrame i l r).cpc = s.cpc := by simp [State.mixFrame]
@[simp] theorem State.mixFrame_frameIdx (i : Nat) (l r : Sample) :
    (s.mixFrame i l r).frameIdx = s.frameIdx := by simp [State.mixFrame]
@[simp] theorem State.mixFrame_response (i : Nat) (l r : Sample) :
    (s.mixFrame i l r).response = s.response := by simp [State.mixFrame]
@[simp] theorem State.mixFrame_unitBus (i : Nat) (l r : Sample) :
    (s.mixFrame i l r).unitBus = s.unitBus := by simp [State.mixFrame]
@[simp] theorem State.mixFrame_port (i : Nat) (l r : Sample) :
    (s.mixFrame i l r).port = s.port := by simp [State.mixFrame]
@[simp] theorem State.mixFrame_draws (i : Nat) (l r : Sample) :
    (s.mixFrame i l r).draws = s.draws + 14 * drawStride := by
  simp only [State.mixFrame, State.emit_draws, State.lowEffects_draws, State.surround_draws, State.centre_draws, State.tick_draws]
  omega

@[simp] theorem State.frame_params :
    (s.frame).params = s.params := by simp [State.frame]
@[simp] theorem State.frame_sampleRate :
    (s.frame).sampleRate = s.sampleRate := by simp [State.frame]
@[simp] theorem State.frame_initialized :
    (s.frame).initialized = s.initialized := by simp [State.frame]
@[simp] theorem State.frame_rateDirty :
    (s.frame).rateDirty = s.rateDirty := by simp [State.frame]
@[simp] theorem State.frame_status :
    (s.frame).status = s.status := by simp [State.frame]
@[simp] theorem State.frame_delayLen :
    (s.frame).delayLen = s.delayLen := by simp [State.frame]
@[simp] theorem State.frame_k :
    (s.frame).k = s.k := by simp [State.frame]
@[simp] theorem State.frame_inBuf :
    (s.frame).inBuf = s.inBuf := by simp [State.frame]
@[simp] theorem State.frame_outSize :
    (s.frame).outSize = s.outSize := by simp [State.frame]
@[simp] theorem State.frame_cpc :
    (s.frame).cpc = s.cpc := by simp [State.frame]
@[simp] theorem State.frame_frameIdx :
    (s.frame).frameIdx = s.frameIdx + 1 := by simp [State.frame]
@[simp] theorem State.frame_response :
    (s.frame).response = s.response := by simp [State.frame]
@[simp] theorem State.frame_unitBus :
    (s.frame).unitBus = s.unitBus := by simp [State.frame]
@[simp] theorem State.frame_port :
    (s.frame).port = s.port := by simp [State.frame]
@[simp] theorem State.frame_draws :
    (s.frame).draws = s.draws + 14 * drawStride := by simp [State.frame]

end Sys2Proof.Machine
end

