-- ==== Sys2Proof/Laws/Ops.lean ====
section
/-! SUPPORT. One lemma per shared operation: everything it can do. -/

namespace Sys2Proof.Machine

/-! ### Operand forms -/

theorem withIndex_of_lt {n : Nat} {i : BitVec 4} {op : Fin n → Host.Outcome State Fault Refusal}
    (h : i.toNat < n) : withIndex n i op = op ⟨i.toNat, h⟩ := by
  simp [withIndex, h]

theorem withIndex_of_ge {n : Nat} {i : BitVec 4} {op : Fin n → Host.Outcome State Fault Refusal}
    (h : n ≤ i.toNat) : withIndex n i op = .refused .reservedMicroOp := by
  simp [withIndex, Nat.not_lt.mpr h]

/-- An indexed operation answers a next state only for an index in range. -/
theorem withIndex_next {n : Nat} {i : BitVec 4} {op : Fin n → Host.Outcome State Fault Refusal} {t : State}
    (h : withIndex n i op = .next t) : ∃ hi : i.toNat < n, op ⟨i.toNat, hi⟩ = .next t := by
  by_cases hi : i.toNat < n
  · exact ⟨hi, by rwa [withIndex_of_lt hi] at h⟩
  · rw [withIndex_of_ge (Nat.not_lt.mp hi)] at h
    cases h

/-! ### The instance's functions and formats (R7) -/

theorem tan64_listed {q : Params} {x y : B64} (h : q.tanTable.lookup x = some y) : tan64 q x = y := by
  simp [tan64, h]

theorem tan64_default {q : Params} {x : B64} (h : q.tanTable.lookup x = none) : tan64 q x = tanDefault x := by
  simp [tan64, h]

theorem pow64_listed {q : Params} {x y z : B64} (h : q.powTable.lookup (x, y) = some z) : pow64 q x y = z := by
  simp [pow64, h]

theorem pow64_default {q : Params} {x y : B64} (h : q.powTable.lookup (x, y) = none) :
    pow64 q x y = powDefault x y := by
  simp [pow64, h]

theorem sqrt64_listed {q : Params} {x y : B64} (h : q.sqrtTable.lookup x = some y) : sqrt64 q x = y := by
  simp [sqrt64, h]

theorem sqrt64_default {q : Params} {x : B64} (h : q.sqrtTable.lookup x = none) :
    sqrt64 q x = sqrtDefault x := by
  simp [sqrt64, h]

theorem coefGen_listed {q : Params} {kind : FilterKind} {fc fs : B64} {c : CoefSet}
    (h : q.coefTable.lookup (kind, fc, fs) = some c) : coefGen q kind fc fs = c := by
  simp [coefGen, h]

theorem coefGen_default {q : Params} {kind : FilterKind} {fc fs : B64}
    (h : q.coefTable.lookup (kind, fc, fs) = none) : coefGen q kind fc fs = coefDefault q kind fc fs := by
  simp [coefGen, h]

variable (t : Nat)

@[simp] theorem roundIn_b64 (v : FVal) : roundIn .b64 t v = round64 (nan64 t) v := (rfl)
@[simp] theorem roundIn_b32 (v : FVal) :
    roundIn .b32 t v = f64OfF32 (nan64 t) (round32 (nan32 t) v) := (rfl)
@[simp] theorem fitIn_b64 (a : B64) : fitIn .b64 t a = a := (rfl)
@[simp] theorem fitIn_b32 (a : B64) : fitIn .b32 t a = f64OfF32 (nan64 t) (f32OfF64 (nan32 t) a) := (rfl)
@[simp] theorem faddIn_b64 : faddIn .b64 t = fadd64 (nan64 t) := (rfl)
@[simp] theorem fsubIn_b64 : fsubIn .b64 t = fsub64 (nan64 t) := (rfl)
@[simp] theorem fmulIn_b64 : fmulIn .b64 t = fmul64 (nan64 t) := (rfl)
@[simp] theorem fdivIn_b64 : fdivIn .b64 t = fdiv64 (nan64 t) := (rfl)
@[simp] theorem mixMul_b32 : mixMul .b32 t = fmul32 (nan32 t) := (rfl)
@[simp] theorem mixAdd_b32 : mixAdd .b32 t = fadd32 (nan32 t) := (rfl)
@[simp] theorem midSignal_b32 (l r : B32) :
    midSignal .b32 t l r = fmul32 (nan32 t) (fadd32 (nan32 (t + 1)) l r) kCenter := (rfl)
theorem mixMul_b64 : mixMul .b64 t = fun a b =>
    f32OfF64 (nan32 t) (fmul64 (nan64 t) (f64OfF32 (nan64 t) a) (f64OfF32 (nan64 t) b)) := (rfl)
theorem mixAdd_b64 : mixAdd .b64 t = fun a b =>
    f32OfF64 (nan32 t) (fadd64 (nan64 t) (f64OfF32 (nan64 t) a) (f64OfF32 (nan64 t) b)) := (rfl)
theorem midSignal_b64 (l r : B32) : midSignal .b64 t l r =
    f32OfF64 (nan32 t)
      (fmul64 (nan64 t)
        (fadd64 (nan64 (t + 1)) (f64OfF32 (nan64 (t + 1)) l) (f64OfF32 (nan64 (t + 1)) r))
        (f64OfF32 (nan64 t) kCenter)) := (rfl)

/-! ### The reset body (R143) -/

theorem dlCfg_none {s : State} (h : zeroDelay s.sampleRate = true) : s.dlCfg = none := by
  simp [State.dlCfg, h]

theorem dlCfg_some {s : State} (h : zeroDelay s.sampleRate = false) :
    s.dlCfg = some (s.withDelayLen (delayLength s.params.maxDelay s.sampleRate)) := by
  simp [State.dlCfg, h]

/-- The reset body fails exactly where DL.CFG raises. -/
theorem resetBody_none {s : State} : s.resetBody = none ↔ zeroDelay s.sampleRate = true := by
  cases h : zeroDelay s.sampleRate with
  | true => simp [State.resetBody, dlCfg_none h]
  | false => simp [State.resetBody, dlCfg_some h]

/-- What a completed reset body leaves in the registers it does not clear. -/
theorem resetBody_keeps {s t : State} (h : s.resetBody = some t) :
    t.params = s.params ∧ t.sampleRate = s.sampleRate ∧ t.status = s.status ∧ t.inBuf = s.inBuf ∧
    t.outBuf = s.outBuf ∧ t.outSize = s.outSize ∧ t.cpc = s.cpc ∧ t.frameIdx = s.frameIdx ∧
    t.response = s.response ∧ t.uIn = s.uIn ∧ t.uOut = s.uOut ∧ t.unitBus = s.unitBus ∧
    t.port = s.port ∧ t.draws = s.draws := by
  cases hz : zeroDelay s.sampleRate with
  | true => rw [resetBody_none.mpr hz] at h; cases h
  | false =>
    simp only [State.resetBody, dlCfg_some hz, Option.some.injEq] at h
    subst h
    simp [State.dlClr, State.psClr, State.bqClr, State.bqLpc, State.bqHpc]

/-- What it leaves in the control registers. -/
theorem resetBody_control {s t : State} (h : s.resetBody = some t) :
    zeroDelay s.sampleRate = false ∧ t.initialized = true ∧ t.rateDirty = false ∧
    t.delayLen = delayLength s.params.maxDelay s.sampleRate := by
  cases hz : zeroDelay s.sampleRate with
  | true => rw [resetBody_none.mpr hz] at h; cases h
  | false =>
    simp only [State.resetBody, dlCfg_some hz, Option.some.injEq] at h
    subst h
    simp [State.dlClr, State.psClr, State.bqClr, State.bqLpc, State.bqHpc]

/-! ### The frame (R147) -/

/-- The centre path, its intermediate state named. -/
theorem centre_of {s a b : State} {m : B32} (ha : s.filter 0 0 m = a) (hb : a.filter 1 1 a.uOut = b) :
    s.centre m = b := by
  subst ha hb
  rfl

/-- A rear path, its intermediate states named. -/
theorem surround_of {s a b c e g : State} {F : Fmt} {t : Nat} {fl fr : Fin 7} {pl pr : Fin 4} {d : Fin 2}
    {l r : B32}
    (ha : s.filter fl 2 l = a) (hb : a.shift pl true a.uOut = b) (hc : b.filter fr 2 r = c)
    (he : c.shift pr false c.uOut = e) (hg : e.delay d (mixAdd F t b.uOut e.uOut) = g) :
    s.surround F t fl fr pl pr d l r = g := by
  subst ha hb hc he hg
  rfl

/-- A frame, its intermediate states named, so that no proof need unfold it. -/
theorem frame_of {s a b c e : State} {F : Fmt} {m l r : B32} (hF : F = s.params.mixFmt)
    (hl : l = f32OfI16 (s.readIn (2 * s.frameIdx)))
    (hr : r = f32OfI16 (s.readIn (2 * s.frameIdx + 1))) (hm : m = midSignal F s.draws l r)
    (ha : s.tick.centre m = a)
    (hb : a.surround F (s.draws + 2) 2 3 0 1 0 (mixMul F (s.draws + 3) l kMain)
      (mixMul F (s.draws + 4) r kCross) = b)
    (hc : b.surround F (s.draws + 5) 4 5 2 3 1 (mixMul F (s.draws + 6) l kCross)
      (mixMul F (s.draws + 7) r kMain) = c)
    (he : c.lowEffects m = e) :
    s.frame = (e.emit s.draws s.frameIdx (mixMul F (s.draws + 8) l half32)
      (mixMul F (s.draws + 9) r half32) a.uOut e.uOut b.uOut c.uOut).atFrame (s.frameIdx + 1) := by
  subst hF hl hr hm ha hb hc he
  rfl

/-- The frames of R145 are the per-frame step, repeated. -/
theorem frames_eq_iterate (n : Nat) (s : State) : s.frames n = State.frame^[n] s := by
  induction n generalizing s with
  | zero => rfl
  | succ n ih => rw [State.frames, ih, Function.iterate_succ_apply]

/-- What no number of frames touches. -/
theorem frames_keeps (n : Nat) (s : State) :
    (s.frames n).params = s.params ∧ (s.frames n).sampleRate = s.sampleRate ∧
    (s.frames n).initialized = s.initialized ∧ (s.frames n).rateDirty = s.rateDirty ∧
    (s.frames n).status = s.status ∧ (s.frames n).delayLen = s.delayLen ∧ (s.frames n).k = s.k ∧
    (s.frames n).inBuf = s.inBuf ∧ (s.frames n).outSize = s.outSize ∧ (s.frames n).cpc = s.cpc ∧
    (s.frames n).response = s.response ∧ (s.frames n).unitBus = s.unitBus ∧
    (s.frames n).port = s.port := by
  induction n generalizing s with
  | zero => simp [State.frames]
  | succ n ih => simpa only [State.frames, State.frame_params, State.frame_sampleRate,
      State.frame_initialized, State.frame_rateDirty, State.frame_status, State.frame_delayLen,
      State.frame_k, State.frame_inBuf, State.frame_outSize, State.frame_cpc, State.frame_response,
      State.frame_unitBus, State.frame_port] using ih s.frame

/-! ### The commands -/

/-- PROCESS's accepted part answers a next state only where the buffers fit and the slots exist. -/
theorem runFrames_next {n : Nat} {s t : State} (h : s.runFrames n = .next t) :
    s.buffersFit n = true ∧ s.slotsPresent = true ∧ t = ((s.atFrame 0).frames n).accept := by
  cases hb : s.buffersFit n <;> cases hp : s.slotsPresent <;> simp [State.runFrames, hb, hp] at h
  exact ⟨rfl, rfl, h.symm⟩

/-- SETRATE rejects, or stores the rate. -/
theorem execSetrate_cases (rate : BitVec 32) (s : State) :
    (rateRejected rate = true ∧ execSetrate rate s = .next (s.raise .eRate)) ∨
    (rateRejected rate = false ∧ execSetrate rate s = .next (s.storeRate rate).accept) := by
  cases h : rateRejected rate <;> simp [execSetrate, h]

/-- RESET rejects, or runs its body. -/
theorem execReset_cases (s : State) :
    (s.resetBody = none ∧ execReset s = .next (s.raise .eZeroDelay)) ∨
    (∃ t, s.resetBody = some t ∧ execReset s = .next t.accept) := by
  cases h : s.resetBody with
  | none => exact .inl ⟨rfl, by simp [execReset, h]⟩
  | some t => exact .inr ⟨t, rfl, by simp [execReset, h]⟩

/-- PROCESS rejects with one of three causes, does nothing (a count of 0 where `P0_RESETS` is false), or
runs its frames from the state itself or from the one its implicit reset leaves. -/
theorem execProcess_cases (n : BitVec 32) (s : State) :
    (countRejected n = true ∧ execProcess n s = .next (s.raise .eCount)) ∨
    (countRejected n = false ∧ s.stale = true ∧ execProcess n s = .next (s.raise .eStale)) ∨
    (countRejected n = false ∧ s.stale = false ∧ s.initialized = true ∧
      execProcess n s = s.runFrames (frameCount n)) ∨
    (countRejected n = false ∧ s.initialized = false ∧ frameCount n = 0 ∧ s.params.p0Resets = false ∧
      execProcess n s = .next s.accept) ∨
    (countRejected n = false ∧ s.initialized = false ∧ (frameCount n ≠ 0 ∨ s.params.p0Resets = true) ∧
      s.resetBody = none ∧ execProcess n s = .next (s.raise .eZeroDelay)) ∨
    (countRejected n = false ∧ s.initialized = false ∧ (frameCount n ≠ 0 ∨ s.params.p0Resets = true) ∧
      ∃ t, s.resetBody = some t ∧ execProcess n s = t.runFrames (frameCount n)) := by
  cases hc : countRejected n with
  | true => exact .inl ⟨rfl, by simp [execProcess, hc]⟩
  | false =>
    cases hi : s.initialized with
    | true =>
      cases hs : s.stale with
      | true => exact .inr (.inl ⟨rfl, rfl, by simp [execProcess, hc, hs]⟩)
      | false => exact .inr (.inr (.inl ⟨rfl, rfl, rfl, by simp [execProcess, hc, hs, hi]⟩))
    | false =>
      have hs : s.stale = false := by simp [State.stale, hi]
      by_cases h0 : frameCount n = 0 ∧ ¬ s.params.p0Resets = true
      · refine .inr (.inr (.inr (.inl ⟨rfl, rfl, h0.1, by simpa using h0.2, ?_⟩)))
        simp [execProcess, hc, hs, hi, h0.1, h0.2]
      · have h1 : frameCount n ≠ 0 ∨ s.params.p0Resets = true := by
          by_cases hz : frameCount n = 0
          · exact .inr (by simpa using fun hp => h0 ⟨hz, hp⟩)
          · exact .inl hz
        cases hr : s.resetBody with
        | none =>
          refine .inr (.inr (.inr (.inr (.inl ⟨rfl, rfl, h1, rfl, ?_⟩))))
          simp only [execProcess, hc, hs, hi, h0, hr, Bool.false_eq_true, if_false]
        | some t =>
          refine .inr (.inr (.inr (.inr (.inr ⟨rfl, rfl, h1, t, rfl, ?_⟩))))
          simp only [execProcess, hc, hs, hi, h0, hr, Bool.false_eq_true, if_false]

/-! ### The fetch -/

/-- What a step finds: a micro-operation, nothing, or the host's next action. -/
theorem fetch_cases (s : State) :
    (∃ w rest i, s.unitBus = w :: rest ∧ decodeU16 w = .ok i ∧
      fetch s = .run i { s with unitBus := rest }) ∨
    (∃ w rest e, s.unitBus = w :: rest ∧ decodeU16 w = .error e ∧ fetch s = .reserved) ∨
    (s.unitBus = [] ∧ s.port = [] ∧ fetch s = .done s) ∨
    (∃ e rest, s.unitBus = [] ∧ s.port = e :: rest ∧ fetch s = hostAction e { s with port := rest }) := by
  cases hu : s.unitBus with
  | cons w rest =>
    cases hd : decodeU16 w with
    | ok i => exact .inl ⟨w, rest, i, rfl, hd, by simp [fetch, hu, hd]⟩
    | error e => exact .inr (.inl ⟨w, rest, e, rfl, hd, by simp [fetch, hu, hd]⟩)
  | nil =>
    cases hp : s.port with
    | nil => exact .inr (.inr (.inl ⟨rfl, rfl, by simp [fetch, hu, hp]⟩))
    | cons e rest => exact .inr (.inr (.inr ⟨e, rest, rfl, rfl, by simp [fetch, hu, hp]⟩))

end Sys2Proof.Machine
end

