-- ==== Sys2Proof/Laws/PerInstr.lean ====
section
/-! SUPPORT. What is said of every instruction as syntax, one lemma per constructor. -/

namespace Sys2Proof.Laws.Format

/-- R60: an instruction's word is a command word exactly if it is a host command, and a unit word exactly if it is a
micro-operation. -/
def Statement (i : Instr) : Prop :=
  ((∃ w, encode i = .h64 w) ↔ i.isHostCommand = true) ∧
  ((∃ w, encode i = .u16 w) ↔ i.isHostCommand = false)

theorem setrate (rate : BitVec 32) : Statement (.setrate rate) := by
  simp [Statement, encode, Instr.isHostCommand]

theorem reset : Statement .reset := by simp [Statement, encode, Instr.isHostCommand]

theorem process (n : BitVec 32) : Statement (.process n) := by
  simp [Statement, encode, Instr.isHostCommand]

theorem bqClr (f : BitVec 4) : Statement (.bqClr f) := by simp [Statement, encode, Instr.isHostCommand]

theorem bqLpc (k : BitVec 4) : Statement (.bqLpc k) := by simp [Statement, encode, Instr.isHostCommand]

theorem bqHpc (k : BitVec 4) : Statement (.bqHpc k) := by simp [Statement, encode, Instr.isHostCommand]

theorem bqApply (f k : BitVec 4) : Statement (.bqApply f k) := by
  simp [Statement, encode, Instr.isHostCommand]

theorem psClr (p : BitVec 4) : Statement (.psClr p) := by simp [Statement, encode, Instr.isHostCommand]

theorem psApply (p : BitVec 4) (v : Bool) : Statement (.psApply p v) := by
  simp [Statement, encode, Instr.isHostCommand]

theorem dlClr (d : BitVec 4) : Statement (.dlClr d) := by simp [Statement, encode, Instr.isHostCommand]

theorem dlCfg : Statement .dlCfg := by simp [Statement, encode, Instr.isHostCommand]

theorem dlPush (d : BitVec 4) : Statement (.dlPush d) := by simp [Statement, encode, Instr.isHostCommand]

end Sys2Proof.Laws.Format
end

