-- ==== Sys2Proof/Tests/Slice0.lean ====
section
/-! SUPPORT. Tests of the model against the spec's own examples and vectors (95_test_vectors.md), one step each,
and for every statement with hypotheses a witness that they can all be met. -/

open Sys2Proof Sys2Proof.Machine

namespace Sys2Proof.Tests

-- one kernel evaluation at a time, so that the tests do not hold many threads at once
set_option Elab.async false

/-! ### Helpers -/

/-- The next state of an outcome. -/
def nextOf : Host.Outcome State Fault Refusal → Option State
  | .next t => some t
  | .fault _ => none
  | .refused _ => none

theorem next_of_nextOf {o : Host.Outcome State Fault Refusal} (h : (nextOf o).isSome = true) :
    ∃ t, o = .next t := by
  cases o with
  | next t => exact ⟨t, rfl⟩
  | fault r => cases h
  | refused r => cases h

/-- A property of the state an instruction leaves; false where it stops. -/
def after (i : Instr) (s : State) (q : State → Bool) : Bool := ((nextOf (exec i s)).map q).getD false

/-- The machine at a rate, never reset. -/
def atRate (rate : BitVec 32) : State := { State.reset with sampleRate := rate }

/-- A set that passes its input through: `A[0] = 1.0`, all else zero. -/
def unitSet : CoefSet := { CoefSet.zero with a0 := 0x3FF0000000000000 }

/-- `Wp = 1.0`, so `c = 0`, and a sweep that stands still (V40's second vector). -/
def stillPhase : PhaseState :=
  { PhaseState.zero with
    wp := 0x3FF0000000000000, minWp := 0x3FE0000000000000, maxWp := 0x4010000000000000,
    sweepUp := 0x3FF0000000000000, sweep := 0x3FF0000000000000, init := true }

/-- A small decoder that is reset and not stale: one-slot delay lines, one frame `(l, r)` of input. -/
def small (l r : Sample) : State :=
  { State.reset with
    initialized := true
    delayLen := 1
    k := Vector.replicate 4 unitSet
    p := Vector.replicate 4 stillPhase
    inBuf := Memory.ofListFrom 0 [l, r]
    outSize := 6 }

/-! ### Well-formedness: each check refuses an ill-formed term (R68) -/

theorem test_wf_bqClr : (Instr.bqClr 6).wellFormed = true ∧ (Instr.bqClr 7).wellFormed = false := by decide
theorem test_wf_bqLpc : (Instr.bqLpc 3).wellFormed = true ∧ (Instr.bqLpc 4).wellFormed = false := by decide
theorem test_wf_bqHpc : (Instr.bqHpc 3).wellFormed = true ∧ (Instr.bqHpc 4).wellFormed = false := by decide
theorem test_wf_bqApply_filter : (Instr.bqApply 7 0).wellFormed = false := by decide
theorem test_wf_bqApply_set : (Instr.bqApply 6 3).wellFormed = true ∧ (Instr.bqApply 6 4).wellFormed = false := by
  decide
theorem test_wf_psClr : (Instr.psClr 3).wellFormed = true ∧ (Instr.psClr 4).wellFormed = false := by decide
theorem test_wf_psApply : (Instr.psApply 3 true).wellFormed = true ∧ (Instr.psApply 4 true).wellFormed = false := by
  decide
theorem test_wf_dlClr : (Instr.dlClr 1).wellFormed = true ∧ (Instr.dlClr 2).wellFormed = false := by decide
theorem test_wf_dlPush : (Instr.dlPush 1).wellFormed = true ∧ (Instr.dlPush 2).wellFormed = false := by decide

/-! ### Decoding: words written out bit by bit from R61, R62, R67 -/

theorem test_decode_setrate :
    decodeH64 0b00000001_000000000000000000000000_00000000000000010111011100000000 = .ok (.setrate 96000) := by
  decide
theorem test_decode_reset :
    decodeH64 0b00000010_000000000000000000000000_00000000000000000000000000000000 = .ok .reset := by decide
theorem test_decode_process :
    decodeH64 0b00000011_000000000000000000000000_11111111111111111111111111111111 =
      .ok (.process (BitVec.ofInt 32 (-1))) := by decide
theorem test_decode_bqClr : decodeU16 0b0001_0000_0110_0000 = .ok (.bqClr 6) := by decide
theorem test_decode_bqLpc : decodeU16 0b0001_0001_0011_0000 = .ok (.bqLpc 3) := by decide
theorem test_decode_bqHpc : decodeU16 0b0001_0010_0010_0000 = .ok (.bqHpc 2) := by decide
/-- V11: `0x1342` is `BQ.APPLY 4, 2`. -/
theorem test_decode_bqApply : decodeU16 0b0001_0011_0100_0010 = .ok (.bqApply 4 2) := by decide
theorem test_decode_psClr : decodeU16 0b0010_0000_0011_0000 = .ok (.psClr 3) := by decide
theorem test_decode_psApply :
    decodeU16 0b0010_0011_0010_0001 = .ok (.psApply 2 true) ∧
    decodeU16 0b0010_0011_0001_0000 = .ok (.psApply 1 false) := by decide
theorem test_decode_dlClr : decodeU16 0b0011_0000_0001_0000 = .ok (.dlClr 1) := by decide
theorem test_decode_dlCfg : decodeU16 0b0011_0001_0000_0000 = .ok .dlCfg := by decide
theorem test_decode_dlPush : decodeU16 0b0011_0011_0001_0000 = .ok (.dlPush 1) := by decide

/-- V11's reserved words, and the ones R70 lists. -/
theorem test_decode_reserved :
    ([0x1070, 0x1364, 0x2302, 0x3110, 0x3320, 0x3200, 0x2100, 0x1400, 0x0000, 0x4000] : List UnitWord).all
      (fun w => (decodeU16 w).toOption.isNone) = true := by decide

/-- R167's illegal command words. -/
theorem test_decode_illegal :
    ([0x0000000000000000, 0x0200000000000001, 0x0100000100000000, 0x1000000000000000] : List CommandWord).all
      (fun w => (decodeH64 w).toOption.isNone) = true := by decide

theorem test_decodeTableWord :
    decodeTableWord 16 0x1342 = some (.bqApply 4 2) ∧ decodeTableWord 64 0x010000000000BB80 = some (.setrate 48000) ∧
    decodeTableWord 16 0x1364 = none ∧ decodeTableWord 64 0 = none := by decide

/-! ### The step -/

/-- One word of each format, placed where the fetch takes it, runs as the first instruction after reset. -/
theorem test_fetch :
    (nextOf (step (State.reset.withFetchWord 16 0x3100))).map (·.delayLen) = some 480 ∧
    (nextOf (step (State.reset.withFetchWord 64 0x0100000000017700))).map (·.sampleRate) = some 96000#32 := by
  decide +kernel

/-! ### Numeric primitives -/

/-- R81's tie, and its infinities. -/
theorem test_arithmetic :
    fadd64 0 0x3FF0000000000000 0x3CA0000000000000 = 0x3FF0000000000000#64 ∧
    fdiv64 0 0xC014000000000000 0x401C000000000000 = 0xBFE6DB6DB6DB6DB7#64 ∧
    fdiv64 0 0x3FF0000000000000 0x8000000000000000 = 0xFFF0000000000000#64 ∧
    fmul64 0 0x7FEFFFFFFFFFFFFF 0xC000000000000000 = 0xFFF0000000000000#64 := by decide +kernel

/-- V61's mixer values. -/
theorem test_mixer_values :
    fadd32 0 0x42C80000 0xC2480000 = 0x42480000#32 ∧ fmul32 0 0x42480000 kCenter = 0x418D6BDE#32 ∧
    fmul32 0 0x42C80000 kMain = 0x422E5B20#32 ∧ fmul32 0 0xC2480000 kCross = 0xC143F58C#32 := by decide +kernel

/-- The examples of R85, R86 and R87. -/
theorem test_conversions :
    f32OfI16 10000 = 0x461C4000#32 ∧ f32OfI16 0x8000 = 0xC7000000#32 ∧ f32OfI16 32767 = 0x46FFFE00#32 ∧
    f64OfI32 48000 = 0x40E7700000000000#64 ∧ f32OfF64 0 0x3FD5555555555555 = 0x3EAAAAAB#32 := by decide +kernel

/-- V60: 1.5, -2.5, 0.999, 32766.5, -32767.5, 32767.5, -32768.5, 40000.0, -1.0e9, infinities, a subnormal. -/
theorem test_sat16 :
    (([0x3FC00000, 0xC0200000, 0x3F7FBE77, 0x46FFFD00, 0xC6FFFF00, 0x46FFFF00, 0xC7000080, 0x471C4000,
       0xCE6E6B28, 0x7F800000, 0xFF800000, 0x000116C2, 0x80000000] : List B32).map
      fun v => (sat16 0 v).toInt) =
    [1, -2, 0, 32766, -32767, 32767, -32768, 32767, -32768, 32767, -32768, 0, 0] := by decide +kernel

/-- V41 at 48000. -/
theorem test_sweep_setup :
    sweepMin State.reset.params 0 48000 = 0x3F7ACEE9F37BEBD6#64 ∧
    sweepFactor State.reset.params 0 48000 = 0x3FF0000C1D1B1C89#64 ∧
    fmul64 0 (sweepMin State.reset.params 0 48000) (sweepRange State.reset.params 0) = 0x3FBACEE9F37BEBD6#64 := by
  decide +kernel

/-! ### The parameters (R7) -/

/-- An instance whose `CoefGen` passes the input through at one high-pass operand, and only there. -/
theorem test_coefGen_parameter :
    let q : Params := { rate0 := 48000, coefTable := [((.hp, 0x4059000000000000, 0x40E7700000000000), unitSet)] }
    after (.bqHpc 2) { State.reset with params := q } (fun t => t.k[2] == unitSet) = true ∧
    after (.bqLpc 2) { State.reset with params := q } (fun t => t.k[2] == unitSet) = false := by decide +kernel

/-- An instance whose `Pow64(2.0, 4.0)` is 2.0, which no faithful library gives: `MaxWp = 2 MinWp`. -/
theorem test_pow_parameter :
    let q : Params := { rate0 := 48000, powTable := [((two64, four64), two64)] }
    q.faithful = false ∧
    (phaseSetUp q 0 48000 PhaseState.zero).maxWp = 0x3F8ACEE9F37BEBD6#64 := by decide +kernel

/-- `PS_FMT` = binary32: with `Wp = 2.0` the coefficient is the `b32` nearest -1/3. -/
theorem test_psApply_single :
    after (.psApply 0 false)
      { State.reset with
        params := { rate0 := 48000, psFmt := .b32 }
        uIn := 0x3F800000
        p := State.reset.p.set 0 { stillPhase with wp := 0x4000000000000000 } }
      (fun t => t.p[0].ly1 == 0xBFD5555560000000) = true := by decide +kernel

/-- `(2^24 + 1) * 1.5`: the sum is exact in `b64` and rounds away the 1 in `b32`. -/
theorem test_mixer_formats :
    mixSumMul .b64 0 0x4B800000 0x3F800000 0x3FC00000 = 0x4BC00001#32 ∧
    mixSumMul .b32 0 0x4B800000 0x3F800000 0x3FC00000 = 0x4BC00000#32 := by decide +kernel

/-! ### biquad_iir_filter -/

/-- V32: BQ.CLR 3 clears F[3] and leaves F[2]. -/
theorem test_bqClr :
    after (.bqClr 3) { State.reset with f := Vector.replicate 7 ⟨1, 2, 3, 4, 5, 6, 7, 8⟩ } (fun t =>
      t.f[3] == FilterState.zero && t.f[2] == ⟨1, 2, 3, 4, 5, 6, 7, 8⟩) = true := by decide +kernel

/-- V20: K[1] at 48000. -/
theorem test_bqLpc_48000 :
    after (.bqLpc 1) (atRate 48000) (fun t => t.k[1] ==
      ⟨0x3FDE68BE295C9342, 0x3FFE68BE295C9342, 0x4006CE8E9F056E72, 0x3FFE68BE295C9342, 0x3FDE68BE295C9342,
       0x4004795FD98444A8, 0x4004BDBBF34F8E5C, 0x3FF38E7AC6F88BF0, 0x3FCD32322690D892⟩) = true := by
  decide +kernel

/-- V22: the clamp at 32000. -/
theorem test_bqLpc_clamped :
    after (.bqLpc 1) (atRate 32000) (fun t => t.k[1] ==
      ⟨0x3FE99FEC71A71C8E, 0x40099FEC71A71C8E, 0x401337F1553D556A, 0x40099FEC71A71C8E, 0x3FE99FEC71A71C8E,
       0x400C75469856207B, 0x40130F7FE3860BE6, 0x4006CA116FC7A251, 0x3FE48567DDCA5E7C⟩) = true := by
  decide +kernel

/-- V20: K[0] at 48000. -/
theorem test_bqHpc_48000 :
    after (.bqHpc 0) (atRate 48000) (fun t => t.k[0] ==
      ⟨0x3FEF968790D7CE6D, 0xC00F968790D7CE6D, 0x4017B0E5ACA1DAD2, 0xC00F968790D7CE6D, 0x3FEF968790D7CE6D,
       0xC00FCAEC4FE4682B, 0x4017B0BA38CB098A, 0xC00F6222D153A7CC, 0x3FEF2E6AC2445AAD⟩) = true := by
  decide +kernel

/-- V30, step 4. -/
theorem test_bqApply_sequence :
    after (.bqApply 5 1)
      { State.reset with
        uIn := 0x41000000
        k := State.reset.k.set 1 ⟨0x3FE0000000000000, 0x3FD0000000000000, 0x3FC0000000000000, 0x3FB0000000000000,
          0x3FA0000000000000, 0xBFE0000000000000, 0x3FD0000000000000, 0xBFC0000000000000, 0x3FB0000000000000⟩
        f := State.reset.f.set 5 ⟨0xC010000000000000, 0x4000000000000000, 0x3FF0000000000000, 0,
          0xBFE8000000000000, 0x3FF8000000000000, 0x3FE0000000000000, 0⟩ }
      (fun t => t.uOut == 0x40280000 && t.f[5] ==
        ⟨0x4020000000000000, 0xC010000000000000, 0x4000000000000000, 0x3FF0000000000000,
         0x4005000000000000, 0xBFE8000000000000, 0x3FF8000000000000, 0x3FE0000000000000⟩) = true := by
  decide +kernel

/-- V31: the history keeps the unrounded sum. -/
theorem test_bqApply_history :
    after (.bqApply 0 0)
      { State.reset with
        uIn := 0x3F800000, k := State.reset.k.set 0 { CoefSet.zero with a0 := 0x3FD5555555555555 } }
      (fun t => t.uOut == 0x3EAAAAAB && t.f[0].y1 == 0x3FD5555555555555) = true := by decide +kernel

/-! ### cascaded_allpass_phaseshift -/

/-- R116's example. -/
theorem test_psClr :
    after (.psClr 0) { State.reset with p := Vector.replicate 4 stillPhase } (fun t =>
      t.p[0] == PhaseState.zero && t.p[1] == stillPhase) = true := by decide +kernel

/-- V40, operation 1, inverted. -/
theorem test_psApply_forced :
    after (.psApply 2 true)
      { State.reset with
        uIn := 0x41000000
        p := State.reset.p.set 2 { PhaseState.zero with
          wp := 0x4008000000000000, minWp := 0x3FF0000000000000, maxWp := 0x4010000000000000,
          sweepUp := 0x4000000000000000, sweep := 0x4000000000000000, init := true } }
      (fun t => t.uOut == 0xBF000000 && t.p[2] ==
        ⟨0x4020000000000000, 0xC010000000000000, 0x4000000000000000, 0xBFF0000000000000,
         0xC010000000000000, 0x4000000000000000, 0xBFF0000000000000, 0x3FE0000000000000,
         0x4018000000000000, 0x3FF0000000000000, 0x4010000000000000, 0x4000000000000000,
         0x3FE0000000000000, true⟩) = true := by decide +kernel

/-- V42, operation 1: from a cleared state at 48000. -/
theorem test_psApply_cleared :
    after (.psApply 0 true) { State.reset with uIn := 0x447A0000 } (fun t =>
      t.uOut == 0xC46D3F24 && t.p[0].wp == 0x3F7ACEFE3F6FD777 && t.p[0].ly4 == 0x408DA7E4824A0608 &&
      t.p[0].init) = true := by decide +kernel

/-! ### circular_delay_line -/

/-- V50: a tie rounds up; a large rate clamps. -/
theorem test_dlCfg :
    after .dlCfg (atRate 22050) (fun t => t.delayLen == 221) = true ∧
    after .dlCfg (atRate 2147483647) (fun t => t.delayLen == 1024) = true := by decide +kernel

/-- V50: 49 raises `E_ZERODELAY` and writes no `DelayLen`. -/
theorem test_dlCfg_zero :
    after .dlCfg (atRate 49) (fun t => t.status == 0b10000 && t.delayLen == 0) = true := by decide +kernel

/-- V52. -/
theorem test_dlClr :
    after (.dlClr 0) { State.reset with d := Vector.replicate 2 ⟨[(0, 7)], 1⟩ } (fun t =>
      t.d[0] == DelayLine.zero && t.d[1] == ⟨[(0, 7)], 1⟩) = true := by decide +kernel

/-- V51, push 6 of the sequence with `DelayLen = 3`: 3.0 comes out, the cursor wraps. -/
theorem test_dlPush :
    after (.dlPush 0)
      { State.reset with
        uIn := 0x40C00000, delayLen := 3,
        d := State.reset.d.set 0 ⟨[(0, 0x40800000), (1, 0x40A00000), (2, 0x40400000)], 2⟩ }
      (fun t => t.uOut == 0x40400000 && t.d[0] == ⟨[(0, 0x40800000), (1, 0x40A00000), (2, 0x40C00000)], 0⟩)
      = true := by decide +kernel

/-- V51: `-0.0` goes in and a NaN comes out, bit for bit. -/
theorem test_dlPush_bits :
    after (.dlPush 1)
      { State.reset with uIn := 0x80000000, delayLen := 1, d := State.reset.d.set 1 ⟨[(0, 0x7FC00001)], 0⟩ }
      (fun t => t.uOut == 0x7FC00001 && t.d[1] == ⟨[(0, 0x80000000)], 0⟩) = true := by decide +kernel

/-! ### The host commands -/

/-- V70: SETRATE to the current rate still marks the state stale. -/
theorem test_setrate :
    after (.setrate 48000) (small 0 0) (fun t =>
      t.sampleRate == 48000 && t.initialized && t.rateDirty && t.response == some ⟨false, 0, 0⟩ && t.cpc == 1)
      = true := by decide +kernel

/-- V80: SETRATE -1 after an illegal word. -/
theorem test_setrate_rejected :
    after (.setrate 0xFFFFFFFF) { State.reset with status := 0b00001 } (fun t =>
      t.response == some ⟨true, 1, 0b00011⟩ && t.sampleRate == 48000) = true := by decide +kernel

/-- V70: RESET after construction at 48000. -/
theorem test_reset :
    after .reset State.reset (fun t =>
      t.initialized && !t.rateDirty && t.delayLen == 480 && t.status == 0 && t.response == some ⟨false, 0, 0⟩)
      = true := by decide +kernel

/-- V70: RESET at 49 is rejected and keeps the old delay length. -/
theorem test_reset_rejected :
    after .reset { State.reset with sampleRate := 49, initialized := true, rateDirty := true, delayLen := 960 }
      (fun t => t.response == some ⟨true, 4, 0b10000⟩ && t.rateDirty && t.delayLen == 960) = true := by
  decide +kernel

/-- V61: the first frame after construction at 48000, with the implicit reset. -/
theorem test_process :
    after (.process 1) { State.reset with inBuf := Memory.ofListFrom 0 [100, 0xFFCE], outSize := 6 } (fun t =>
      t.outBuf == Memory.ofListFrom 0 [50, 0xFFE7, 8, 0, 0, 0] &&
      t.d[0].buf == [(0, 0xC2501087)] && t.d[1].buf == [(0, 0xC22C7D3B)]) = true := by decide +kernel

/-- V70: PROCESS -5 on a stale decoder is rejected for its count, PROCESS 1 at 49 as stale. -/
theorem test_process_rejected :
    after (.process 0xFFFFFFFB) { small 0 0 with rateDirty := true } (fun t => t.status == 0b00100) = true ∧
    after (.process 1) { small 0 0 with sampleRate := 49, rateDirty := true } (fun t => t.status == 0b01000)
      = true := by decide +kernel

/-! ### Witnesses: the hypotheses of each statement can all be met -/

theorem witness_DecodeEncodeRoundTrip : (Instr.bqApply 6 3).wellFormed = true := by decide

theorem witness_DecodedWordIsTheEncoding :
    decode (.h64 0x0300000000000000) = .ok (.process 0) ∧ decode (.u16 0x3310) = .ok (.dlPush 1) := by decide

/-- A word under each clause. -/
theorem witness_HostWordDecoding :
    (0x0100000100000000#64).extractLsb 55 32 ≠ 0#24 ∧
    (0x0100000000000000#64).extractLsb 63 56 = 0x01#8 ∧
    (0x0200000000000000#64).extractLsb 31 0 = 0#32 ∧ (0x0200000000000001#64).extractLsb 31 0 ≠ 0#32 ∧
    (0x03000000FFFFFFFF#64).extractLsb 63 56 = 0x03#8 ∧
    (0x0400000000000000#64).extractLsb 63 56 ≠ 0x03#8 := by decide

/-- `0x1070`, one past BQ.CLR's last word, on the bus. -/
theorem witness_ReservedUnitWordRefused :
    ({ State.reset with unitBus := [0x1070] } : State).unitBus = 0x1070#16 :: [] ∧
    ∀ i : Instr, i.wellFormed = true → encode i ≠ .u16 0x1070 := by
  refine ⟨rfl, fun i => ?_⟩
  cases i with
  | setrate r => simp [encode]
  | reset => simp [encode]
  | process n => simp [encode]
  | bqClr f => revert f; decide
  | bqLpc k => revert k; decide
  | bqHpc k => revert k; decide
  | bqApply f k => revert f k; decide
  | psClr p => revert p; decide
  | psApply p v => revert p v; decide
  | dlClr d => revert d; decide
  | dlCfg => decide
  | dlPush d => revert d; decide

theorem witness_IndexOutOfRangeRefused : (Instr.dlPush 2).wellFormed = false := by decide

/-- Both clauses of StepRunsDecodedInstruction. -/
theorem witness_StepRunsDecodedInstruction :
    (State.reset.withFetchWord 64 0x0200000000000000).commandPending 0x0200000000000000 [] ∧
    decode (.h64 0x0200000000000000) = .ok .reset ∧
    (State.reset.withFetchWord 16 0x3100).unitBus = [0x3100#16] ∧ decode (.u16 0x3100) = .ok .dlCfg :=
  ⟨⟨rfl, rfl⟩, by decide, rfl, by decide⟩

/-- All three ways to be illegal. -/
theorem witness_IllegalWordRaisesEOp :
    (State.reset.withFetchWord 64 0).commandPending 0 [] ∧
    ((0x0000000000000000#64).extractLsb 63 56 ≠ 0x01#8 ∧ (0x0000000000000000#64).extractLsb 63 56 ≠ 0x02#8 ∧
      (0x0000000000000000#64).extractLsb 63 56 ≠ 0x03#8) ∧
    (0x0100000100000000#64).extractLsb 55 32 ≠ 0#24 ∧
    ((0x0200000000000001#64).extractLsb 63 56 = 0x02#8 ∧ (0x0200000000000001#64).extractLsb 31 0 ≠ 0#32) :=
  ⟨⟨rfl, rfl⟩, by decide, by decide, by decide⟩

theorem witness_HostActionsBetweenCommands :
    (State.reset.unitBus = [] ∧ State.reset.port = []) ∧
    ({ State.reset with port := [.fillIn [1, 2]] } : State).port = .fillIn [1, 2] :: [] ∧
    ({ State.reset with port := [.provideOut 6] } : State).port = .provideOut 6 :: [] := ⟨⟨rfl, rfl⟩, rfl, rfl⟩

/-- The reset on the port, and parameters on both sides of each bound. -/
theorem witness_HardwareResetState :
    (({ State.reset with port := [.hardwareReset] } : State).unitBus = [] ∧
      ({ State.reset with port := [.hardwareReset] } : State).port = .hardwareReset :: []) ∧
    ((0#32).toInt ≤ 0 ∧ 479 < 480) ∧ (0 < (1#32).toInt ∧ 480 ≤ 480) := by
  refine ⟨⟨rfl, rfl⟩, ?_⟩
  decide

theorem witness_InvAtHardwareReset :
    ({ rate0 := 1, maxDelay := 480, p0Resets := false } : Params).valid = true ∧
    ({ rate0 := 1, maxDelay := 480, p0Resets := false } : Params).faithful = true := by decide +kernel

/-- A decoder that is reset at 48000, with a PROCESS of one frame waiting, meets the invariants. -/
def running : State :=
  { State.reset with
    initialized := true
    delayLen := 480
    k := setsForRate State.reset.params 48000
    inBuf := Memory.ofListFrom 0 [100, 0xFFCE]
    outSize := 6
    port := [.command 0x0300000000000001] }

theorem running_inv : running.Inv where
  instanceValid := by decide
  libraryFaithful := by decide +kernel
  delayBounded := by decide
  ready := fun _ => ⟨by decide, fun d => by revert d; decide⟩
  setsCurrent := fun _ _ => ⟨rfl, by decide⟩
  ratePositive := by decide
  sweepDirection := fun p h => by
    have : ∀ p : Fin 4, running.p[p].init = false := by decide
    rw [this p] at h
    cases h
  initsEqual := fun p => by revert p; decide
  cursorsEqual := by decide
  cursorInArray := fun d => by revert d; decide
  arraysCanonical := fun d => by revert d; decide
  inCanonical := by decide
  outCanonical := by decide
  busIdle := rfl

theorem witness_EveryStepKeepsInv : ∃ s t : State, s.Inv ∧ step s = .next t :=
  ⟨running, (next_of_nextOf (by decide +kernel : (nextOf (step running)).isSome = true)).imp
    fun _ h => ⟨running_inv, h⟩⟩

theorem witness_NothingStopsWithinTheContract :
    running.Inv ∧ (∀ w rest n, running.commandPending w rest → decode (.h64 w) = .ok (.process n) →
      0 ≤ n.toInt → running.buffersFit n.toInt.toNat = true) := by
  refine ⟨running_inv, ?_⟩
  rintro w rest n ⟨-, hp⟩ hd -
  cases hp
  have h1 : decode (.h64 0x0300000000000001) = .ok (.process 1) := by decide
  rw [h1] at hd
  cases hd
  decide

theorem witness_SetrateStoresOrRejects : 0 < (1#32).toInt ∧ (0#32).toInt ≤ 0 := by decide

theorem witness_ResetInitialisesDerivedState :
    50 ≤ (atRate 50).sampleRate.toInt ∧ ∃ t, exec .reset (atRate 50) = .next t :=
  ⟨by decide, next_of_nextOf (by decide +kernel)⟩

theorem witness_ResetRunsItsMicroprogram :
    (atRate 50).unitBus = [] ∧ 50 ≤ (atRate 50).sampleRate.toInt ∧ (atRate 49).sampleRate.toInt < 50 := by decide

/-- Both ways to be due an implicit reset. -/
theorem witness_ZeroDelayRejected :
    (atRate 49).sampleRate.toInt < 50 ∧ (atRate 49).initialized = false ∧ 0 ≤ (1#32).toInt ∧ (1#32) ≠ 0#32 ∧
    0 ≤ (0#32).toInt ∧ (atRate 49).params.p0Resets = true := by decide

theorem witness_NegativeOrStaleProcessRejected :
    (0xFFFFFFFF#32).toInt < 0 ∧ 0 ≤ (0#32).toInt ∧
    ({ small 0 0 with rateDirty := true } : State).initialized = true ∧
    ({ small 0 0 with rateDirty := true } : State).rateDirty = true := by decide

theorem witness_FirstProcessActsAsResetThenProcess :
    State.reset.initialized = false ∧ 0 ≤ (1#32).toInt ∧ (1#32) ≠ 0#32 ∧ 50 ≤ State.reset.sampleRate.toInt ∧
    ∃ r, exec .reset State.reset = .next r :=
  ⟨by decide, by decide, by decide, by decide, next_of_nextOf (by decide +kernel)⟩

/-- A state under each of the three clauses. -/
theorem witness_ProcessZeroRunsNoFrame :
    ((small 0 0).initialized = true ∧ (small 0 0).rateDirty = false ∧ (small 0 0).slotsPresent = true) ∧
    (State.reset.initialized = false ∧ State.reset.params.p0Resets = true ∧ State.reset.params.valid = true ∧
      50 ≤ State.reset.sampleRate.toInt) ∧
    (({ State.reset with params := { rate0 := 48000, p0Resets := false } } : State).initialized = false ∧
      ({ State.reset with params := { rate0 := 48000, p0Resets := false } } : State).params.p0Resets = false) := by
  decide

/-- With and without the implicit reset. -/
theorem witness_ProcessWritesExactlyItsFrames :
    ((small 100 3).accepts 1 ∧ (1#32) ≠ 0#32 ∧ (small 100 3).buffersFit 1 = true ∧
      (small 100 3).slotsPresent = true ∧ (small 100 3).params.valid = true) ∧
    ({ atRate 50 with inBuf := [(0, 1), (1, 2)], outSize := 6 } : State).accepts 1 ∧
    ({ atRate 50 with inBuf := [(0, 1), (1, 2)], outSize := 6 } : State).initialized = false ∧
    ({ atRate 50 with inBuf := [(0, 1), (1, 2)], outSize := 6 } : State).params.valid = true ∧
    ({ atRate 50 with inBuf := [(0, 1), (1, 2)], outSize := 6 } : State).buffersFit 1 = true := by
  unfold State.accepts
  decide

theorem witness_ShortBuffersRefused :
    State.reset.accepts 1 ∧ (1#32) ≠ 0#32 ∧ ¬ State.reset.buffersSupplied 1 := by
  refine ⟨by unfold State.accepts; decide, by decide, fun h => ?_⟩
  exact absurd (h.1 0 (by decide)) (by decide)

theorem witness_FrameIssuesItsMicroprogram :
    (small 1 2).unitBus = [] ∧ (small 1 2).slotsPresent = true ∧ (small 1 2).params.mixFmt = .b32 := by decide

theorem witness_FrameInDoublePrecisionMixer :
    ({ small 1 2 with params := { rate0 := 48000, mixFmt := .b64 } } : State).unitBus = [] ∧
    ({ small 1 2 with params := { rate0 := 48000, mixFmt := .b64 } } : State).slotsPresent = true ∧
    ({ small 1 2 with params := { rate0 := 48000, mixFmt := .b64 } } : State).params.mixFmt = .b64 := by decide

theorem small_runs (l r : Sample) : ∃ t, exec (.process 1) (small l r) = .next t :=
  ⟨_, by simp [exec, execProcess, countRejected, State.stale, small, State.runFrames, frameCount,
    State.buffersFit, State.slotsPresent, Memory.listedFrom, Memory.ofListFrom, State.reset,
    State.afterHardwareReset, DelayLine.zero, Config.maxDelay]; rfl⟩

theorem witness_FrontsAreHalvedInputs :
    (small 3 0xFFFD).accepts 1 ∧ ∃ t, exec (.process 1) (small 3 0xFFFD) = .next t :=
  ⟨by unfold State.accepts; decide, small_runs _ _⟩

theorem witness_OutOfPhaseInputSilencesCentre :
    (small 7 0xFFF9).initialized = true ∧ (small 7 0xFFF9).rateDirty = false ∧ 0 ≤ (1#32).toInt ∧
    (∃ t, exec (.process 1) (small 7 0xFFF9) = .next t) ∧
    (∀ i : Fin 7, (small 7 0xFFF9).f[i].silent = true) ∧ (∀ i : Fin 4, (small 7 0xFFF9).k[i].finite = true) ∧
    (∀ i, i < 1 → ((small 7 0xFFF9).readIn (2 * i)).toInt + ((small 7 0xFFF9).readIn (2 * i + 1)).toInt = 0) :=
  ⟨by decide, by decide, by decide, small_runs _ _, by decide +kernel, by decide +kernel, by decide⟩

theorem witness_SilenceStaysSilent :
    (small 0 0).initialized = true ∧ (small 0 0).rateDirty = false ∧ 0 ≤ (1#32).toInt ∧
    (∃ t, exec (.process 1) (small 0 0) = .next t) ∧
    (∀ i : Fin 7, (small 0 0).f[i].silent = true) ∧ (∀ i : Fin 4, (small 0 0).p[i].silent = true) ∧
    (∀ i : Fin 2, (small 0 0).d[i].silent = true) ∧ (∀ i : Fin 4, (small 0 0).k[i].finite = true) ∧
    (∀ j, j < 2 → (small 0 0).readIn j = 0#16) ∧
    (∀ j, j < 1 → ∀ (i : Fin 4) (q : Nat), finite64 (phaseCoef .b64 q
      (phaseSetUp (small 0 0).params q (small 0 0).sampleRate (((small 0 0).atFrame 0).frames j).p[i]).wp) = true) := by
  refine ⟨by decide, by decide, by decide, small_runs _ _, by decide +kernel, by decide +kernel, by decide +kernel,
    by decide +kernel, by decide, ?_⟩
  intro j hj i q
  have h0 : j = 0 := by omega
  subst h0
  have hp : ((((small 0 0).atFrame 0).frames 0).p[i]) = stillPhase := by
    revert i
    decide
  rw [hp]
  have hs : ∀ n, fsub64 n one64 stillPhase.wp = 0#64 := fun n => by
    have h : fvalAdd (fval64 one64) (fvalNeg (fval64 stillPhase.wp)) = .fin false 0 (-52) := by decide +kernel
    unfold fsub64
    rw [h]
    rfl
  have ha : ∀ n, fadd64 n one64 stillPhase.wp = two64 := fun n => by
    have h : fvalAdd (fval64 one64) (fval64 stillPhase.wp) = .fin false (2 ^ 53) (-52) := by decide +kernel
    have h2 : round64 0 (.fin false (2 ^ 53) (-52)) = two64 := by decide +kernel
    unfold fadd64
    rw [h]
    exact h2
  have hd : ∀ n, fdiv64 n 0#64 two64 = 0#64 := fun n => by
    have h : fvalDiv (fval64 0#64) (fval64 two64) = .fin false 0 (-1142) := by decide +kernel
    unfold fdiv64
    rw [h]
    rfl
  have hw : (phaseSetUp (small 0 0).params q (small 0 0).sampleRate stillPhase).wp = stillPhase.wp := rfl
  rw [hw, phaseCoef, fsubIn_b64, faddIn_b64, fdivIn_b64, hs, ha, hd]
  decide +kernel

theorem witness_RearSilentUntilDelayLen :
    (small 7 9).initialized = true ∧ (small 7 9).rateDirty = false ∧ 0 ≤ (1#32).toInt ∧
    (∃ t, exec (.process 1) (small 7 9) = .next t) ∧ (small 7 9).d[0] = DelayLine.zero ∧
    (small 7 9).d[1] = DelayLine.zero ∧ 0 < (1#32).toInt.toNat ∧ 0 < (small 7 9).delayLen :=
  ⟨by decide, by decide, by decide, small_runs _ _, by decide, by decide, by decide, by decide⟩

/-- `PROCESS 0` then `PROCESS 1` against `PROCESS 1`. -/
theorem witness_StreamingSplit :
    (small 7 9).initialized = true ∧ (small 7 9).rateDirty = false ∧ 0 ≤ (0#32).toInt ∧ 0 ≤ (1#32).toInt ∧
    (1#32).toInt = (0#32).toInt + (1#32).toInt ∧ 6 * (1#32).toInt.toNat ≤ 6 ∧ ([] : List Sample).length = 2 * (0#32).toInt.toNat ∧
    ([7, 9] : List Sample).length = 2 * (1#32).toInt.toNat ∧
    (small 7 9).inBuf = Memory.ofListFrom 0 (([] : List Sample) ++ [7, 9]) ∧
    (∃ s1, exec (.process 0) (small 7 9) = .next s1) ∧ ∃ t, exec (.process 1) (small 7 9) = .next t :=
  ⟨by decide, by decide, by decide, by decide, by decide, by decide, by decide, by decide, by decide,
    next_of_nextOf (by decide +kernel), small_runs _ _⟩

/-- Two histories, one of them not silent. -/
theorem witness_ResetErasesHistory :
    50 ≤ (small 7 9).sampleRate.toInt ∧ (∃ r, exec .reset (small 7 9) = .next r ∧
      ∃ t, exec (.process 1) r = .next t) ∧
    ∃ r', exec .reset { small 7 9 with f := Vector.replicate 7 ⟨1, 2, 3, 4, 5, 6, 7, 8⟩ } = .next r' := by
  refine ⟨by decide, ?_, next_of_nextOf (by decide +kernel)⟩
  obtain ⟨r, hr⟩ := next_of_nextOf (by decide +kernel : (nextOf (exec .reset (small 7 9))).isSome = true)
  refine ⟨r, hr, next_of_nextOf ?_⟩
  have h : ((nextOf (exec .reset (small 7 9))).map fun u => (nextOf (exec (.process 1) u)).isSome) = some true := by
    decide +kernel
  rw [hr] at h
  simpa [nextOf] using h

/-- The largest index each family has: for BqClrZeroesOneFilter, BqLpcComputesClampedLowPass,
BqHpcComputesHighPass, BqApplyFiltersOneSample, PsClrZeroesOnePhase and DlClrZeroesOneLine, which hold in every
state. -/
theorem witness_UnitIndices : (6#4).toNat < 7 ∧ (3#4).toNat < 4 ∧ (1#4).toNat < 2 := by decide

theorem witness_PsApplyShiftsOneSample : (3#4).toNat < 4 ∧ State.reset.params.psFmt = .b64 := by decide

theorem witness_PsApplyInSinglePrecision :
    (3#4).toNat < 4 ∧
    ({ State.reset with params := { rate0 := 48000, psFmt := .b32 } } : State).params.psFmt = .b32 := by decide

theorem witness_ZeroIntoSilentFilter :
    zero32 ({ small 0 0 with uIn := 0x80000000 } : State).uIn = true ∧
    ({ small 0 0 with uIn := 0x80000000 } : State).f[6].silent = true ∧
    ({ small 0 0 with uIn := 0x80000000 } : State).k[3].finite = true := by decide +kernel

/-- The step: a PROCESS of one frame on phase states that are not set up. -/
theorem witness_StepKeepsPhasesInLockstep :
    running.Inv ∧ running.lockstep ∧ ∃ t, step running = .next t ∧ isNaN64 t.p[0].wp = false ∧
      isNaN64 t.p[0].sweep = false := by
  refine ⟨running_inv, ?_, ?_⟩
  · have h : ∀ i : Fin 4, running.p[i] = PhaseState.zero := by decide
    intro i j
    rw [h i, h j]
    exact ⟨rfl, fun _ => ⟨rfl, rfl, rfl, rfl, rfl⟩⟩
  · obtain ⟨t, ht⟩ := next_of_nextOf (by decide +kernel : (nextOf (step running)).isSome = true)
    have h : (nextOf (step running)).map (fun t => isNaN64 t.p[0].wp || isNaN64 t.p[0].sweep) = some false := by
      decide +kernel
    rw [ht] at h
    simp only [nextOf, Option.map_some, Option.some.injEq, Bool.or_eq_false_iff] at h
    exact ⟨t, ht, h⟩

/-- The frame. -/
theorem witness_StepKeepsPhasesInLockstep_frame :
    (small 7 9).lockstep ∧ (small 7 9).params.faithful = true ∧ isNaN64 ((small 7 9).mixFrame 0 7 9).p[0].wp = false ∧
    isNaN64 ((small 7 9).mixFrame 0 7 9).p[0].sweep = false := by
  refine ⟨?_, by decide +kernel, by decide +kernel, by decide +kernel⟩
  have h : ∀ i : Fin 4, (small 7 9).p[i] = stillPhase := by decide
  intro i j
  rw [h i, h j]
  exact ⟨rfl, fun _ => ⟨rfl, rfl, rfl, rfl, rfl⟩⟩

theorem witness_DlCfgSetsDelayLength :
    50 ≤ (atRate 50).sampleRate.toInt ∧ (atRate 49).sampleRate.toInt < 50 := by decide

theorem witness_DlPushMovesOneSample :
    1 ≤ (small 0 0).delayLen ∧ (small 0 0).delayLen ≤ (small 0 0).params.maxDelay ∧
    (small 0 0).d[1].cursor < (small 0 0).delayLen ∧ Memory.wf (small 0 0).d[1].buf = true := by decide

/-- A state under each of the three clauses, the cursor on both sides of the array's end. -/
theorem witness_DlPushOutsideItsPremise :
    (({ State.reset with d := Vector.replicate 2 ⟨[], 1023⟩ } : State).delayLen = 0 ∧
      Memory.wf ({ State.reset with d := Vector.replicate 2 ⟨[], 1023⟩ } : State).d[1].buf = true ∧
      ({ State.reset with d := Vector.replicate 2 ⟨[], 1023⟩ } : State).d[1].cursor < State.reset.params.maxDelay) ∧
    State.reset.params.maxDelay ≤ ({ State.reset with d := Vector.replicate 2 ⟨[], 1024⟩ } : State).d[1].cursor ∧
    (0 ≤ (1#32).toInt ∧ ({ small 0 0 with d := Vector.replicate 2 ⟨[], 1024⟩ } : State).initialized = true ∧
      ({ small 0 0 with d := Vector.replicate 2 ⟨[], 1024⟩ } : State).rateDirty = false ∧
      ({ small 0 0 with d := Vector.replicate 2 ⟨[], 1024⟩ } : State).buffersFit 1 = true ∧
      ({ small 0 0 with d := Vector.replicate 2 ⟨[], 1024⟩ } : State).slotsPresent = false) := by decide

theorem witness_DelayIsExactlyDelayLen :
    1 ≤ (small 0 0).delayLen ∧ (small 0 0).delayLen ≤ (small 0 0).params.maxDelay ∧
    ∃ t, exec (.dlClr 1) (small 0 0) = .next t :=
  ⟨by decide, by decide, next_of_nextOf (by decide +kernel)⟩

/-- Operands on both sides of overflow, a zero sum, an infinity and what is none. -/
theorem witness_DoubleArithmeticRoundsToNearestEven :
    (∃ p, rat64 0x7FEFFFFFFFFFFFFF = some p) ∧ (∃ q, rat64 0x0000000000000001 = some q) ∧
    rat64 0x8000000000000000 = some 0 ∧ (0 : ℚ) + 0 = 0 ∧ (0 : ℚ) - 0 = 0 ∧
    fadd64 0 0x7FEFFFFFFFFFFFFF 0x7FEFFFFFFFFFFFFF = 0x7FF0000000000000#64 ∧
    isNaN64 0x0000000000000001 = false ∧ (0x0000000000000001#64) ≠ infinity64 true ∧
    (0x0000000000000001#64) ≠ infinity64 false ∧ zero64 0x0000000000000001 = false :=
  ⟨⟨_, rfl⟩, ⟨_, rfl⟩, by decide +kernel, by simp, by simp, by decide +kernel, by decide +kernel, by decide,
    by decide, by decide +kernel⟩

/-- A divisor that is no zero, one that is, and a finite operand beside an infinity. -/
theorem witness_DoubleDivisionRoundsToNearestEven :
    rat64 0x3FF0000000000000 = some 1 ∧ (1 : ℚ) ≠ 0 ∧ rat64 0x8000000000000000 = some 0 ∧
    finite64 0x0000000000000000 = true :=
  ⟨by decide +kernel, by decide, by decide +kernel, by decide +kernel⟩

theorem witness_SingleArithmeticRoundsToNearestEven :
    rat32 0x3F800000 = some 1 ∧ rat32 0x80000000 = some 0 ∧ isNaN32 0x00000001 = false ∧
    (0x00000001#32) ≠ infinity32 true ∧ (0x00000001#32) ≠ infinity32 false ∧ zero32 0x00000001 = false ∧
    rat64 0x3FF0000000000000 = some 1 ∧ isNaN64 0x8000000000000000 = false := by decide +kernel

theorem witness_NaNResultIsTheDraw :
    isNaN64 0x7FF0000000000001 = true ∧ isNaN32 0xFF800001 = true ∧ quiet64 0x7FF8000000000000 = true ∧
    quiet32 0xFFC00000 = true := by decide +kernel

theorem witness_WideningIsExact :
    rat32 0x3F800000 = some 1 ∧ isNaN32 0x80000000 = false ∧ isNaN32 0x7FC00001 = true := by decide +kernel

theorem witness_SaturationClampsThenTruncates :
    rat32 0x46FFFE00 = some 32767 ∧ isNaN32 0x7FC00001 = true := by decide +kernel

theorem witness_ComparisonsAreOfRealNumbers :
    rat64 0x8000000000000000 = some 0 ∧ isNaN64 0x7FF8000000000000 = true ∧
    isNaN64 0x7FF0000000000000 = false := by decide +kernel

theorem witness_NegationCommutesWithNarrowing : isNaN64 0x8000000000000000 = false := by decide +kernel

/-- The instance of `State.reset` lists nothing; one that lists each operand. -/
theorem witness_ParameterFunctionsAndDefaults :
    State.reset.params.powTable.lookup (0x4000000000000000, 0x4010000000000000) = none ∧
    State.reset.params.sqrtTable.lookup 0x4000000000000000 = none ∧
    State.reset.params.coefTable.lookup (.lp, 0x405E000000000000, 0x40E7700000000000) = none ∧
    State.reset.params.coefTable.lookup (.hp, 0x4051800000000000, 0x40E7700000000000) = none ∧
    ([((1, 2), 3)] : List ((B64 × B64) × B64)).lookup (1, 2) = some 3 ∧
    ([(1, 2)] : List (B64 × B64)).lookup 1 = some 2 ∧
    ([((.lp, 1, 2), unitSet)] : List ((FilterKind × B64 × B64) × CoefSet)).lookup (.lp, 1, 2) = some unitSet := by
  decide

/-- The steps that the whole-machine rules speak of: an accepted SETRATE, an accepted PROCESS, a BQ.LPC, a
rejection, a FILL. -/
theorem witness_StatusBitsAreSticky :
    (∃ t, step running = .next t) ∧ running.resetPending = false :=
  ⟨next_of_nextOf (by decide +kernel), by decide⟩

theorem witness_OnlyTheirCommandsWriteRateAndInitialized_rate :
    ∃ t, step (State.reset.withFetchWord 64 0x0100000000017700) = .next t ∧ t.sampleRate ≠ State.reset.sampleRate := by
  obtain ⟨t, ht⟩ := next_of_nextOf
    (by decide +kernel : (nextOf (step (State.reset.withFetchWord 64 0x0100000000017700))).isSome = true)
  have h := test_fetch.2
  rw [ht] at h
  simp only [nextOf, Option.map_some, Option.some.injEq] at h
  exact ⟨t, ht, by rw [h]; decide⟩

theorem witness_OnlyTheirCommandsWriteRateAndInitialized_flag :
    ∃ t, step (State.reset.withFetchWord 64 0x0200000000000000) = .next t ∧
      t.initialized ≠ State.reset.initialized := by
  obtain ⟨t, ht⟩ := next_of_nextOf
    (by decide +kernel : (nextOf (step (State.reset.withFetchWord 64 0x0200000000000000))).isSome = true)
  have h : (nextOf (step (State.reset.withFetchWord 64 0x0200000000000000))).map (·.initialized) = some true := by
    decide +kernel
  rw [ht] at h
  simp only [nextOf, Option.map_some, Option.some.injEq] at h
  exact ⟨t, ht, by rw [h]; decide⟩

theorem witness_OnlyCoefficientOperationsWriteK :
    ∃ t, step (State.reset.withFetchWord 16 0x1110) = .next t ∧ t.k ≠ State.reset.k := by
  obtain ⟨t, ht⟩ := next_of_nextOf
    (by decide +kernel : (nextOf (step (State.reset.withFetchWord 16 0x1110))).isSome = true)
  have h : (nextOf (step (State.reset.withFetchWord 16 0x1110))).map (·.k[1].a0) = some 0x3FDE68BE295C9342 := by
    decide +kernel
  rw [ht] at h
  simp only [nextOf, Option.map_some, Option.some.injEq] at h
  refine ⟨t, ht, fun hk => ?_⟩
  rw [hk] at h
  exact absurd h (by decide)

/-- A rejected command, SETRATE 0. -/
theorem witness_EveryCommandRespondsPrecisely :
    (State.reset.withFetchWord 64 0x0100000000000000).commandPending 0x0100000000000000 [] ∧
    ∃ t, step (State.reset.withFetchWord 64 0x0100000000000000) = .next t ∧
      t.response.map (fun r => r.err) = some true := by
  refine ⟨⟨rfl, rfl⟩, ?_⟩
  obtain ⟨t, ht⟩ := next_of_nextOf
    (by decide +kernel : (nextOf (step (State.reset.withFetchWord 64 0x0100000000000000))).isSome = true)
  have h : (nextOf (step (State.reset.withFetchWord 64 0x0100000000000000))).map
      (fun t => t.response.map fun r => r.err) = some (some true) := by decide +kernel
  rw [ht] at h
  simp only [nextOf, Option.map_some, Option.some.injEq] at h
  exact ⟨t, ht, h⟩

theorem witness_ParametersStayAndOnlyFillChangesInput :
    ∃ t, step { State.reset with port := [.fillIn [5]] } = .next t ∧ t.inBuf ≠ State.reset.inBuf :=
  ⟨_, rfl, by decide⟩

end Sys2Proof.Tests
end

section
/-! PROOFS. The drawn NaNs are quiet, and a number takes no draw (R82). -/

namespace Sys2Proof.Machine

/-! ### The drawn NaNs are quiet -/

theorem quietNaN64_toNat (d : BitVec 52) : (quietNaN64 d).toNat =
    (d.extractLsb' 51 1).toNat * 2 ^ 63 + 0xFFF * 2 ^ 51 + (d.extractLsb' 0 51).toNat := by
  have hpay := (d.extractLsb' 0 51).isLt
  simp only [quietNaN64, BitVec.toNat_append, BitVec.toNat_ofNat]
  rw [← Nat.shiftLeft_add_eq_or_of_lt hpay, ← Nat.shiftLeft_add_eq_or_of_lt (by decide)]
  omega

theorem quietNaN32_toNat (d : BitVec 23) : (quietNaN32 d).toNat =
    (d.extractLsb' 22 1).toNat * 2 ^ 31 + 0x1FF * 2 ^ 22 + (d.extractLsb' 0 22).toNat := by
  have hpay := (d.extractLsb' 0 22).isLt
  simp only [quietNaN32, BitVec.toNat_append, BitVec.toNat_ofNat]
  rw [← Nat.shiftLeft_add_eq_or_of_lt hpay, ← Nat.shiftLeft_add_eq_or_of_lt (by decide)]
  omega

/-- Every exponent bit set and a fraction that is not zero: a NaN (R80). -/
theorem unpack_nan {F : FloatFormat} {w : Nat} (hex : w / 2 ^ F.fracBits % 2 ^ F.expBits = 2 ^ F.expBits - 1)
    (hfrac : w % 2 ^ F.fracBits ≠ 0) : unpack F w = .nan := by
  simp [unpack, hex, hfrac]

@[simp] theorem fval64_quietNaN64 (d : BitVec 52) : fval64 (quietNaN64 d) = .nan := by
  have hsign := (d.extractLsb' 51 1).isLt
  have hpay := (d.extractLsb' 0 51).isLt
  have hw := quietNaN64_toNat d
  apply unpack_nan <;> simp only [b64Format] <;> omega

@[simp] theorem fval32_quietNaN32 (d : BitVec 23) : fval32 (quietNaN32 d) = .nan := by
  have hsign := (d.extractLsb' 22 1).isLt
  have hpay := (d.extractLsb' 0 22).isLt
  have hw := quietNaN32_toNat d
  apply unpack_nan <;> simp only [b32Format] <;> omega

@[simp] theorem quiet64_nan64 (t : Nat) : quiet64 (nan64 t) = true := by
  have htop : (quietNaN64 (Config.nanDraw64 t)).getLsbD 51 = true := by
    simp only [quietNaN64, BitVec.getLsbD_append]
    simp
  simp [quiet64, isNaN64, nan64, htop]

@[simp] theorem quiet32_nan32 (t : Nat) : quiet32 (nan32 t) = true := by
  have htop : (quietNaN32 (Config.nanDraw32 t)).getLsbD 22 = true := by
    simp only [quietNaN32, BitVec.getLsbD_append]
    simp
  simp [quiet32, isNaN32, nan32, htop]

/-! ### A number takes no draw (R82) -/

theorem round64_of_ne_nan {n : B64} {v : FVal} (hv : v ≠ .nan) : round64 n v = round64 0 v := by
  cases v with
  | nan => exact absurd rfl hv
  | inf neg => rfl
  | fin neg m e => rfl

theorem round32_of_ne_nan {n : B32} {v : FVal} (hv : v ≠ .nan) : round32 n v = round32 0 v := by
  cases v with
  | nan => exact absurd rfl hv
  | inf neg => rfl
  | fin neg m e => rfl

/-- A number is narrowed and widened again whatever the occurrence. -/
theorem fitIn_b32_of_ne_nan {t : Nat} {a : B64} (h64 : fval64 a ≠ .nan) (h32 : fval32 (f32OfF64 0 a) ≠ .nan) :
    fitIn .b32 t a = f64OfF32 0 (f32OfF64 0 a) := by
  have hnarrow : f32OfF64 (nan32 t) a = f32OfF64 0 a := round32_of_ne_nan h64
  rw [fitIn_b32, hnarrow]
  exact round64_of_ne_nan h32

end Sys2Proof.Machine
end

section
/-! PROOFS. A micro-operation word alone on the unit bus runs the operation the decoder names (R66, R140), and a
frame is its 13 words, in either format of the mixer (R147). -/

namespace Sys2Proof.Machine

/-! ### An indexed micro-operation runs on the unit its index names (R68) -/

theorem withIndex_of_eq {n : Nat} {i : BitVec 4} {j : Fin n} {op : Fin n → Host.Outcome State Fault Refusal}
    (h : i.toNat = j) : withIndex n i op = op j := by
  rw [withIndex_of_lt (h ▸ j.isLt)]
  exact congrArg op (Fin.ext h)

theorem exec_bqApply {f k : BitVec 4} {i : Fin 7} {j : Fin 4} (s : State) (hf : f.toNat = i) (hk : k.toNat = j) :
    exec (.bqApply f k) s = .next (s.bqApply i j) := by
  simp only [exec, execBqApply, withIndex_of_eq hf, withIndex_of_eq hk]

theorem exec_psApply {p : BitVec 4} {i : Fin 4} (v : Bool) (s : State) (hp : p.toNat = i) :
    exec (.psApply p v) s = .next (s.psApply i v) := by
  simp only [exec, execPsApply, withIndex_of_eq hp]

theorem exec_dlPush {d : BitVec 4} {i : Fin 2} {s : State} (hd : d.toNat = i)
    (hslot : s.d[i].cursor < s.params.maxDelay) : exec (.dlPush d) s = .next (s.dlPush i) := by
  simp only [exec, execDlPush, withIndex_of_eq hd, if_pos hslot]

/-! ### The word of R67 for each of the frame's operations -/

theorem decodeU16_bqApply (i : Fin 7) (j : Fin 4) :
    decodeU16 (u16 0x1 0x3 (BitVec.ofNat 4 i) (BitVec.ofNat 4 j)) =
      .ok (.bqApply (BitVec.ofNat 4 i) (BitVec.ofNat 4 j)) := by
  decide +revert

theorem decodeU16_psApply (i : Fin 4) (v : Bool) :
    decodeU16 (u16 0x2 0x3 (BitVec.ofNat 4 i) (0#3 ++ BitVec.ofBool v)) =
      .ok (.psApply (BitVec.ofNat 4 i) v) := by
  decide +revert

theorem decodeU16_dlPush (i : Fin 2) :
    decodeU16 (u16 0x3 0x3 (BitVec.ofNat 4 i) 0) = .ok (.dlPush (BitVec.ofNat 4 i)) := by
  decide +revert

/-- An index of at most 16 units fits its field. -/
theorem toNat_ofNat_index {n : Nat} (i : Fin n) (hn : n ≤ 16) : (BitVec.ofNat 4 i).toNat = i := by
  rw [BitVec.toNat_ofNat, Nat.mod_eq_of_lt (by omega)]

/-! ### Issuing a word (R147's `OP(u)`) -/

theorem step_of_unitWord {s : State} {w : UnitWord} {rest : List UnitWord} {i : Instr}
    (hbus : s.unitBus = w :: rest) (hd : decodeU16 w = .ok i) : step s = exec i { s with unitBus := rest } := by
  simp [step, fetch, hbus, hd]

theorem issueWith_of_exec {w : UnitWord} {i : Instr} {u : B32} {s t : State} (hbus : s.unitBus = [])
    (hd : decodeU16 w = .ok i) (hx : exec i (s.drive u) = .next t) : issueWith w u s = some t := by
  have hs : ({ s with uIn := u, unitBus := [] } : State) = s.drive u := by
    ext1 <;> simp [hbus]
  have hstep : step { s with uIn := u, unitBus := [w] } = .next t := by
    rw [step_of_unitWord rfl hd, ← hx, ← hs]
  simp only [issueWith, issueWord, hstep]

theorem issueWith_filter {s : State} (i : Fin 7) (j : Fin 4) (u : B32) (hbus : s.unitBus = []) :
    issueWith (u16 0x1 0x3 (BitVec.ofNat 4 i) (BitVec.ofNat 4 j)) u s = some (s.filter i j u) :=
  issueWith_of_exec hbus (decodeU16_bqApply i j)
    (exec_bqApply _ (toNat_ofNat_index i (by decide)) (toNat_ofNat_index j (by decide)))

theorem issueWith_shift {s : State} (i : Fin 4) (v : Bool) (u : B32) (hbus : s.unitBus = []) :
    issueWith (u16 0x2 0x3 (BitVec.ofNat 4 i) (0#3 ++ BitVec.ofBool v)) u s = some (s.shift i v u) :=
  issueWith_of_exec hbus (decodeU16_psApply i v) (exec_psApply v _ (toNat_ofNat_index i (by decide)))

theorem issueWith_delay {s : State} (i : Fin 2) (u : B32) (hbus : s.unitBus = [])
    (hslot : s.d[i].cursor < s.params.maxDelay) :
    issueWith (u16 0x3 0x3 (BitVec.ofNat 4 i) 0) u s = some (s.delay i u) :=
  issueWith_of_exec hbus (decodeU16_dlPush i)
    (exec_dlPush (toNat_ofNat_index i (by decide)) (by simpa using hslot))

/-! ### The frame as its 13 words (R147) -/

/-- R149: the two words of the centre path. -/
theorem centre_issues {s : State} (m : B32) (hbus : s.unitBus = []) :
    ∃ a, issueWith 0x1300 m s = some a ∧ issueWith 0x1311 a.uOut a = some (s.centre m) :=
  ⟨s.filter 0 0 m, issueWith_filter 0 0 m hbus, issueWith_filter 1 1 _ (by simpa using hbus)⟩

/-- R151, R152: the five words of a rear path on filters `fl`, `fr`, phase shifters `pl`, `pr` and line `d`. -/
theorem surround_issues {s : State} (F : Fmt) (t : Nat) (fl fr : Fin 7) (pl pr : Fin 4) (d : Fin 2) (l r : B32)
    (hbus : s.unitBus = []) (hslot : s.d[d].cursor < s.params.maxDelay) :
    ∃ a b c e, issueWith (u16 0x1 0x3 (BitVec.ofNat 4 fl) 2) l s = some a ∧
      issueWith (u16 0x2 0x3 (BitVec.ofNat 4 pl) 1) a.uOut a = some b ∧
      issueWith (u16 0x1 0x3 (BitVec.ofNat 4 fr) 2) r b = some c ∧
      issueWith (u16 0x2 0x3 (BitVec.ofNat 4 pr) 0) c.uOut c = some e ∧
      issueWith (u16 0x3 0x3 (BitVec.ofNat 4 d) 0) (mixAdd F t b.uOut e.uOut) e =
        some (s.surround F t fl fr pl pr d l r) := by
  obtain ⟨a, ha⟩ : ∃ a, s.filter fl 2 l = a := ⟨_, rfl⟩
  obtain ⟨b, hb⟩ : ∃ b, a.shift pl true a.uOut = b := ⟨_, rfl⟩
  obtain ⟨c, hc⟩ : ∃ c, b.filter fr 2 r = c := ⟨_, rfl⟩
  obtain ⟨e, he⟩ : ∃ e, c.shift pr false c.uOut = e := ⟨_, rfl⟩
  have hbusA : a.unitBus = [] := by simpa [← ha] using hbus
  have hbusB : b.unitBus = [] := by simpa [← hb] using hbusA
  have hbusC : c.unitBus = [] := by simpa [← hc] using hbusB
  have hbusE : e.unitBus = [] := by simpa [← he] using hbusC
  have hslotE : e.d[d].cursor < e.params.maxDelay := by simpa [← he, ← hc, ← hb, ← ha] using hslot
  have hend := surround_of (F := F) (t := t) (d := d) ha hb hc he rfl
  refine ⟨a, b, c, e, ?_, ?_, ?_, ?_, ?_⟩
  · exact ha ▸ issueWith_filter fl 2 l hbus
  · exact hb ▸ issueWith_shift pl true a.uOut hbusA
  · exact hc ▸ issueWith_filter fr 2 r hbusB
  · exact he ▸ issueWith_shift pr false c.uOut hbusC
  · exact hend ▸ issueWith_delay d (mixAdd F t b.uOut e.uOut) hbusE hslotE

/-- R153: the word of the low-frequency path. -/
theorem lowEffects_issues {s : State} (m : B32) (hbus : s.unitBus = []) :
    issueWith 0x1363 m s = some (s.lowEffects m) :=
  issueWith_filter 6 3 m hbus

/-- A rear path pushes into its own delay line alone. -/
theorem surround_d_other {s : State} {F : Fmt} {t : Nat} {fl fr : Fin 7} {pl pr : Fin 4} {d i : Fin 2} {l r : B32}
    (hi : i ≠ d) : (s.surround F t fl fr pl pr d l r).d[i] = s.d[i] := by
  have hval : (d : Nat) ≠ i := fun h => hi (Fin.ext h.symm)
  simp [State.surround, Vector.getElem_set_ne, hval]

theorem slotsPresent_iff {s : State} : s.slotsPresent = true ↔
    (∀ i : Fin 2, s.d[i].cursor < s.params.maxDelay) ∧ s.delayLen ≤ s.params.maxDelay := by
  simp [State.slotsPresent, Fin.forall_fin_two]

/-- R154: the six results go to `OUT` in channel order, and the frame counter is set. -/
theorem emit_atFrame (t i j : Nat) (fl fr ce lfe sl sr : B32) (s : State) :
    (s.emit t i fl fr ce lfe sl sr).atFrame j = { s with
      frameIdx := j
      outBuf := [
          (0, sat16 (Config.satDraw (t + 10)) fl),
          (1, sat16 (Config.satDraw (t + 11)) fr),
          (2, sat16 (Config.satDraw (t + 12)) ce),
          (3, sat16 (Config.satDraw (t + 13)) lfe),
          (4, sat16 (Config.satDraw (t + 14)) sl),
          (5, sat16 (Config.satDraw (t + 15)) sr)].foldl
        (fun out e => Memory.poke out (6 * i + e.1) e.2) s.outBuf } := by
  ext1
  case outBuf => simp [State.emit]
  all_goals simp

/-- R147 in either mixer format: a frame issues its 13 words in order, on the samples that the format's
products and sums give. -/
theorem frame_issues {s : State} {F : Fmt} {l r : B32} (hF : s.params.mixFmt = F)
    (hbus : s.unitBus = []) (hslots : s.slotsPresent = true)
    (hl : l = f32OfI16 (s.readIn (2 * s.frameIdx))) (hr : r = f32OfI16 (s.readIn (2 * s.frameIdx + 1))) :
    s.frameIssues (midSignal F s.draws l r)
      (mixMul F (s.draws + 3) l kMain) (mixMul F (s.draws + 4) r kCross)
      (mixMul F (s.draws + 6) l kCross) (mixMul F (s.draws + 7) r kMain)
      (mixMul F (s.draws + 8) l half32) (mixMul F (s.draws + 9) r half32)
      (mixAdd F (s.draws + 2)) (mixAdd F (s.draws + 5)) := by
  obtain ⟨m, hm⟩ : ∃ m, m = midSignal F s.draws l r := ⟨_, rfl⟩
  obtain ⟨a, ha⟩ : ∃ a, s.tick.centre m = a := ⟨_, rfl⟩
  obtain ⟨b, hb⟩ : ∃ b, a.surround F (s.draws + 2) 2 3 0 1 0 (mixMul F (s.draws + 3) l kMain)
      (mixMul F (s.draws + 4) r kCross) = b := ⟨_, rfl⟩
  obtain ⟨c, hc⟩ : ∃ c, b.surround F (s.draws + 5) 4 5 2 3 1 (mixMul F (s.draws + 6) l kCross)
      (mixMul F (s.draws + 7) r kMain) = c := ⟨_, rfl⟩
  obtain ⟨e, he⟩ : ∃ e, c.lowEffects m = e := ⟨_, rfl⟩
  obtain ⟨hcursor, -⟩ := slotsPresent_iff.mp hslots
  have hbusA : a.unitBus = [] := by simpa [← ha] using hbus
  have hbusB : b.unitBus = [] := by simpa [← hb] using hbusA
  have hbusC : c.unitBus = [] := by simpa [← hc] using hbusB
  have hslotA : ∀ i : Fin 2, a.d[i].cursor < a.params.maxDelay := by simpa [← ha] using hcursor
  have hslotB : b.d[(1 : Fin 2)].cursor < b.params.maxDelay := by
    rw [← hb, surround_d_other (by decide), State.surround_params]
    exact hslotA 1
  have hout : e.outBuf = s.outBuf := by simp [← he, ← hc, ← hb, ← ha]
  obtain ⟨s1, h1, h2⟩ := centre_issues (s := s.tick) m (by simpa using hbus)
  obtain ⟨s3, s4, s5, s6, h3, h4, h5, h6, h7⟩ := surround_issues F (s.draws + 2) 2 3 0 1 0
    (mixMul F (s.draws + 3) l kMain) (mixMul F (s.draws + 4) r kCross) hbusA (hslotA 0)
  obtain ⟨s8, s9, s10, s11, h8, h9, h10, h11, h12⟩ := surround_issues F (s.draws + 5) 4 5 2 3 1
    (mixMul F (s.draws + 6) l kCross) (mixMul F (s.draws + 7) r kMain) hbusB hslotB
  have h13 := lowEffects_issues m hbusC
  rw [ha] at h2
  rw [hb] at h7
  rw [hc] at h12
  rw [he] at h13
  rw [← hm]
  refine ⟨s1, a, s3, s4, s5, s6, b, s8, s9, s10, s11, c, e,
    h1, h2, h3, h4, h5, h6, h7, h8, h9, h10, h11, h12, h13, ?_⟩
  rw [frame_of hF.symm hl hr hm ha hb hc he, emit_atFrame, hout]

/-- Settles O24: the frame in either format (`frame_issues`), with the binary64 mixer written out; the drawn
NaNs are those of the frame's own occurrences. -/
theorem frameInDoublePrecisionMixer : Obligations.FrameInDoublePrecisionMixer := by
  intro s l r hbus hslots hF hl hr
  refine ⟨fun j => nan64 (s.draws + j), fun j => nan32 (s.draws + j), by simp, by simp, ?_⟩
  have h := frame_issues hF hbus hslots hl hr
  simpa only [midSignal_b64, mixMul_b64, mixAdd_b64, Nat.add_zero] using h

end Sys2Proof.Machine
end

section
/-! PROOFS. PS.APPLY in the format `PS_FMT` = binary32 (R117 to R121, log 14). -/

namespace Sys2Proof.Machine

theorem fitIn_b32_pi64 (t : Nat) : fitIn .b32 t pi64 = 0x400921FB60000000 := by
  rw [fitIn_b32_of_ne_nan (by decide) (by decide)]
  decide

theorem fitIn_b32_sweepHz (t : Nat) : fitIn .b32 t sweepHz = 0x3FB99999A0000000 := by
  rw [fitIn_b32_of_ne_nan (by decide) (by decide)]
  decide

/-- What PS.APPLY leaves: one phase-shift state, `u_out` and the count of draws (R118). -/
theorem psApply_eq (i : Fin 4) (v : Bool) (s : State) :
    s.psApply i v = { s with
      p := s.p.set i (phaseApply s.params s.draws s.sampleRate v s.p[i] s.uIn).1
      uOut := (phaseApply s.params s.draws s.sampleRate v s.p[i] s.uIn).2
      draws := s.draws + 32 } := by
  ext1 <;> simp [State.psApply, drawStride]

/-- Settles O38: in binary32 each operation of the unit is `rnd` of its exact result, and the two narrowed
constants take no draw. -/
theorem psApplyInSinglePrecision : Obligations.PsApplyInSinglePrecision := by
  intro p v s hp hF
  refine ⟨fun j => nan64 (s.draws + j), fun j => nan32 (s.draws + j), by simp, by simp, ?_⟩
  intro rnd add sub mul div fs range low up h0 h one c x0 y1 y2 y3 y4 w
  have hsetUp : phaseSetUp s.params s.draws s.sampleRate h0 = h := by
    simp only [phaseSetUp, sweepMin, sweepFactor, sweepRange, rateIn, hF, fitIn_b32_pi64, fitIn_b32_sweepHz]
    rfl
  have happly : phaseApply s.params s.draws s.sampleRate v h0 s.uIn =
      (sweepAdvance .b32 s.draws (phaseStages .b32 s.draws c x0 h),
        f32OfF64 (nan32 s.draws) (if v then fneg64 y4 else y4)) := by
    simp only [phaseApply, hF, hsetUp]
    rfl
  have hadvance : sweepAdvance .b32 s.draws (phaseStages .b32 s.draws c x0 h) =
      { h with
        lx1 := x0, lx2 := y1, lx3 := y2, lx4 := y3, ly1 := y1, ly2 := y2, ly3 := y3, ly4 := y4,
        wp := w,
        sweep := if fgt64 w h.maxWp then div 22 one h.sweepUp
          else if flt64 w h.minWp then h.sweepUp else h.sweep } := rfl
  rw [exec_psApply (i := ⟨p.toNat, hp⟩) v s rfl, psApply_eq]
  simp only [Fin.getElem_fin]
  rw [happly, hadvance]
  rfl

end Sys2Proof.Machine
end

section
/-! PROOFS. Everything one step can do, and what no step touches (R7, R43). -/

namespace Sys2Proof.Machine

/-! ### The inversion of the step -/

theorem fetch_of_port {s : State} {e : HostEvent} {rest : List HostEvent} (hbus : s.unitBus = [])
    (hport : s.port = e :: rest) : fetch s = hostAction e { s with port := rest } := by
  cases s
  cases hbus
  cases hport
  rfl

theorem step_of_hostAction {s t : State} {e : HostEvent} {rest : List HostEvent} (hbus : s.unitBus = [])
    (hport : s.port = e :: rest) (hact : hostAction e { s with port := rest } = .done t) : step s = .next t := by
  rw [step, fetch_of_port hbus hport, hact]

theorem step_of_idle {s : State} (hbus : s.unitBus = []) (hport : s.port = []) : step s = .next s := by
  simp [step, fetch, hbus, hport]

/-- The ways in which a step from `s` ends in `t`. -/
inductive StepCase (s t : State) : Prop where
  | unitWord {w : UnitWord} {rest : List UnitWord} {i : Instr} (hbus : s.unitBus = w :: rest)
      (hdec : decodeU16 w = .ok i) (hexec : exec i { s with unitBus := rest } = .next t)
  | idle (hbus : s.unitBus = []) (hport : s.port = []) (ht : t = s)
  | command {w : CommandWord} {rest : List HostEvent} {i : Instr} (hbus : s.unitBus = [])
      (hport : s.port = .command w :: rest) (hdec : decodeH64 w = .ok i)
      (hexec : exec i { s with port := rest } = .next t)
  | illegal {w : CommandWord} {rest : List HostEvent} {r : DecodeReject} (hbus : s.unitBus = [])
      (hport : s.port = .command w :: rest) (hdec : decodeH64 w = .error r)
      (ht : t = ({ s with port := rest } : State).raise .eOp)
  | fillIn {vals : List Sample} {rest : List HostEvent} (hbus : s.unitBus = [])
      (hport : s.port = .fillIn vals :: rest) (ht : t = ({ s with port := rest } : State).fillIn vals)
  | provideOut {size : Nat} {rest : List HostEvent} (hbus : s.unitBus = [])
      (hport : s.port = .provideOut size :: rest) (ht : t = ({ s with port := rest } : State).provideOut size)
  | hardwareReset {rest : List HostEvent} (hbus : s.unitBus = []) (hport : s.port = .hardwareReset :: rest)
      (ht : t = ({ s with port := rest } : State).hardwareReset)

theorem step_next {s t : State} (h : step s = .next t) : StepCase s t := by
  obtain ⟨w, rest, i, hbus, hdec, hf⟩ | ⟨w, rest, r, -, -, hf⟩ | ⟨hbus, hport, hf⟩ | ⟨e, rest, hbus, hport, hf⟩ :=
    fetch_cases s <;> simp only [step, hf] at h
  · exact .unitWord hbus hdec h
  · cases h
  · exact .idle hbus hport (by simpa using h.symm)
  · cases e with
    | command w =>
      cases hdec : decodeH64 w with
      | ok i => exact .command hbus hport hdec (by simpa [hostAction, hdec] using h)
      | error r => exact .illegal hbus hport hdec (by simpa [hostAction, hdec] using h.symm)
    | fillIn vals => exact .fillIn hbus hport (by simpa [hostAction] using h.symm)
    | provideOut size => exact .provideOut hbus hport (by simpa [hostAction] using h.symm)
    | hardwareReset => exact .hardwareReset hbus hport (by simpa [hostAction] using h.symm)

/-! ### The inversion of each micro-operation -/

section
variable {s t : State}

theorem withIndex_next_unit {n : Nat} {i : BitVec 4} {op : Fin n → Host.Outcome State Fault Refusal}
    (h : withIndex n i op = .next t) : ∃ j : Fin n, i.toNat = j ∧ op j = .next t := by
  obtain ⟨hi, hx⟩ := withIndex_next h
  exact ⟨⟨i.toNat, hi⟩, rfl, hx⟩

/-- The same for a unit whose operation always answers. -/
theorem withIndex_next_total {n : Nat} {i : BitVec 4} {op : Fin n → State}
    (h : withIndex n i (fun j => .next (op j)) = .next t) : ∃ j : Fin n, i.toNat = j ∧ t = op j := by
  obtain ⟨j, hj, hx⟩ := withIndex_next_unit h
  cases hx
  exact ⟨j, hj, rfl⟩

theorem exec_bqClr_next {f : BitVec 4} (h : exec (.bqClr f) s = .next t) :
    ∃ i : Fin 7, f.toNat = i ∧ t = s.bqClr i :=
  withIndex_next_total (op := fun i => s.bqClr i) h

theorem exec_bqLpc_next {k : BitVec 4} (h : exec (.bqLpc k) s = .next t) :
    ∃ i : Fin 4, k.toNat = i ∧ t = s.bqLpc i :=
  withIndex_next_total (op := fun i => s.bqLpc i) h

theorem exec_bqHpc_next {k : BitVec 4} (h : exec (.bqHpc k) s = .next t) :
    ∃ i : Fin 4, k.toNat = i ∧ t = s.bqHpc i :=
  withIndex_next_total (op := fun i => s.bqHpc i) h

theorem exec_bqApply_next {f k : BitVec 4} (h : exec (.bqApply f k) s = .next t) :
    ∃ (i : Fin 7) (j : Fin 4), f.toNat = i ∧ k.toNat = j ∧ t = s.bqApply i j := by
  obtain ⟨i, hi, hx⟩ :=
    withIndex_next_unit (op := fun i => withIndex 4 k fun j => .next (s.bqApply i j)) h
  obtain ⟨j, hj, rfl⟩ := withIndex_next_total hx
  exact ⟨i, j, hi, hj, rfl⟩

theorem exec_psClr_next {p : BitVec 4} (h : exec (.psClr p) s = .next t) :
    ∃ i : Fin 4, p.toNat = i ∧ t = s.psClr i :=
  withIndex_next_total (op := fun i => s.psClr i) h

theorem exec_psApply_next {p : BitVec 4} {v : Bool} (h : exec (.psApply p v) s = .next t) :
    ∃ i : Fin 4, p.toNat = i ∧ t = s.psApply i v :=
  withIndex_next_total (op := fun i => s.psApply i v) h

theorem exec_dlClr_next {d : BitVec 4} (h : exec (.dlClr d) s = .next t) :
    ∃ i : Fin 2, d.toNat = i ∧ t = s.dlClr i :=
  withIndex_next_total (op := fun i => s.dlClr i) h

theorem exec_dlCfg_next (h : exec .dlCfg s = .next t) :
    (zeroDelay s.sampleRate = true ∧ t = s.raise .eZeroDelay) ∨
    (zeroDelay s.sampleRate = false ∧
      t = s.withDelayLen (delayLength s.params.maxDelay s.sampleRate)) := by
  cases hz : zeroDelay s.sampleRate with
  | true => exact .inl ⟨rfl, by simpa [exec, execDlCfg, dlCfg_none hz] using h.symm⟩
  | false => exact .inr ⟨rfl, by simpa [exec, execDlCfg, dlCfg_some hz] using h.symm⟩

theorem exec_dlPush_next {d : BitVec 4} (h : exec (.dlPush d) s = .next t) :
    ∃ i : Fin 2, d.toNat = i ∧ s.d[i].cursor < s.params.maxDelay ∧ t = s.dlPush i := by
  obtain ⟨i, hi, hx⟩ := withIndex_next_unit (op := fun i : Fin 2 =>
    if s.d[i].cursor < s.params.maxDelay then .next (s.dlPush i) else .fault .delaySlotAbsent) h
  by_cases hslot : s.d[i].cursor < s.params.maxDelay
  · simp only [if_pos hslot, Host.Outcome.next.injEq] at hx
    exact ⟨i, hi, hslot, hx.symm⟩
  · simp only [if_neg hslot, reduceCtorEq] at hx

end

/-! ### The parameters and `IN` -/

/-- `t` has the parameters and the input buffer of `s`. -/
def KeepsParamsAndInput (s t : State) : Prop := t.params = s.params ∧ t.inBuf = s.inBuf

theorem runFrames_keepsParamsAndInput {n : Nat} {s t : State} (h : s.runFrames n = .next t) :
    KeepsParamsAndInput s t := by
  obtain ⟨-, -, rfl⟩ := runFrames_next h
  obtain ⟨hparams, -, -, -, -, -, -, hin, -⟩ := frames_keeps n (s.atFrame 0)
  exact ⟨by simpa using hparams, by simpa using hin⟩

theorem resetBody_keepsParamsAndInput {s t : State} (h : s.resetBody = some t) : KeepsParamsAndInput s t := by
  obtain ⟨hparams, -, -, hin, -⟩ := resetBody_keeps h
  exact ⟨hparams, hin⟩

theorem execProcess_keepsParamsAndInput {n : BitVec 32} {s t : State} (h : execProcess n s = .next t) :
    KeepsParamsAndInput s t := by
  obtain ⟨-, hx⟩ | ⟨-, -, hx⟩ | ⟨-, -, -, hx⟩ | ⟨-, -, -, -, hx⟩ | ⟨-, -, -, -, hx⟩ | ⟨-, -, -, r, hr, hx⟩ :=
    execProcess_cases n s <;> rw [hx] at h
  case inr.inr.inl => exact runFrames_keepsParamsAndInput h
  case inr.inr.inr.inr.inr =>
    obtain ⟨hparams, hin⟩ := resetBody_keepsParamsAndInput hr
    obtain ⟨hparams', hin'⟩ := runFrames_keepsParamsAndInput h
    exact ⟨hparams'.trans hparams, hin'.trans hin⟩
  all_goals
    cases h
    exact ⟨rfl, rfl⟩

theorem execReset_keepsParamsAndInput {s t : State} (h : execReset s = .next t) : KeepsParamsAndInput s t := by
  obtain ⟨-, hx⟩ | ⟨r, hr, hx⟩ := execReset_cases s <;> rw [hx] at h <;> cases h
  · exact ⟨rfl, rfl⟩
  · obtain ⟨hparams, hin⟩ := resetBody_keepsParamsAndInput hr
    exact ⟨hparams, hin⟩

/-- RESET and PROCESS apart, an instruction is a chain of register updates, none of which touches the parameters
or `IN`. -/
theorem exec_keepsParamsAndInput {i : Instr} {s t : State} (h : exec i s = .next t) :
    KeepsParamsAndInput s t := by
  cases i with
  | setrate rate =>
    obtain ⟨-, hx⟩ | ⟨-, hx⟩ := execSetrate_cases rate s <;> cases hx.symm.trans h <;> exact ⟨rfl, rfl⟩
  | reset => exact execReset_keepsParamsAndInput h
  | process n => exact execProcess_keepsParamsAndInput h
  | bqClr f => obtain ⟨_, -, rfl⟩ := exec_bqClr_next h; exact ⟨rfl, rfl⟩
  | bqLpc k => obtain ⟨_, -, rfl⟩ := exec_bqLpc_next h; exact ⟨rfl, rfl⟩
  | bqHpc k => obtain ⟨_, -, rfl⟩ := exec_bqHpc_next h; exact ⟨rfl, rfl⟩
  | bqApply f k => obtain ⟨_, _, -, -, rfl⟩ := exec_bqApply_next h; exact ⟨rfl, rfl⟩
  | psClr p => obtain ⟨_, -, rfl⟩ := exec_psClr_next h; exact ⟨rfl, rfl⟩
  | psApply p v => obtain ⟨_, -, rfl⟩ := exec_psApply_next h; exact ⟨rfl, rfl⟩
  | dlClr d => obtain ⟨_, -, rfl⟩ := exec_dlClr_next h; exact ⟨rfl, rfl⟩
  | dlCfg => obtain ⟨-, rfl⟩ | ⟨-, rfl⟩ := exec_dlCfg_next h <;> exact ⟨rfl, rfl⟩
  | dlPush d => obtain ⟨_, -, -, rfl⟩ := exec_dlPush_next h; exact ⟨rfl, rfl⟩

/-! ### Hardware reset and construction (R190) -/

/-- R190, R192: the host's things apart, a hardware reset gives the state of the first one. -/
theorem hardwareReset_eq (s : State) :
    ({ s.hardwareReset with inBuf := [], outBuf := [], outSize := 0, port := [], draws := 0 } : State) =
      State.afterHardwareReset s.params := by
  ext1 <;> simp [State.afterHardwareReset]

/-- R7: valid parameters have a positive rate and room for 480 frames of delay. -/
theorem valid_iff {q : Params} : q.valid = true ↔ 0 < q.rate0.toInt ∧ 480 ≤ q.maxDelay := by
  rw [Params.valid, Bool.and_eq_true, decide_eq_true_eq, decide_eq_true_eq]
  rfl

/-! ### The statements -/

/-- Settles O60, by the cases of a step: an instruction keeps both, and of the host's actions only a FILL
replaces `IN`. -/
theorem parametersStayAndOnlyFillChangesInput : Obligations.ParametersStayAndOnlyFillChangesInput := by
  intro s t h
  have keeps (hk : KeepsParamsAndInput s t) : t.params = s.params ∧
      (t.inBuf ≠ s.inBuf → s.unitBus = [] ∧ ∃ vals rest, s.port = .fillIn vals :: rest) :=
    ⟨hk.1, fun hne => absurd hk.2 hne⟩
  cases step_next h with
  | unitWord _ _ hexec => exact keeps (exec_keepsParamsAndInput hexec :)
  | command _ _ _ hexec => exact keeps (exec_keepsParamsAndInput hexec :)
  | fillIn hbus hport ht => exact ⟨by simp [ht], fun _ => ⟨hbus, _, _, hport⟩⟩
  | idle _ _ ht | illegal _ _ _ ht | provideOut _ _ ht | hardwareReset _ _ ht =>
    exact keeps (by rw [ht]; exact ⟨rfl, rfl⟩)

/-- Settles O9: each host action is one step, and its state is written out. -/
theorem hostActionsBetweenCommands : Obligations.HostActionsBetweenCommands := by
  refine ⟨fun s hbus hport => step_of_idle hbus hport, fun s vals rest hbus hport => ?_,
    fun s size rest hbus hport => ?_⟩
  · refine ⟨_, step_of_hostAction hbus hport rfl, fun i => ?_, rfl, ?_⟩
    · simpa using Memory.peek_ofListFrom vals 0 i
    · ext1 <;> simp
  · refine ⟨_, step_of_hostAction hbus hport rfl, rfl, fun i => rfl, rfl, ?_⟩
    ext1 <;> simp

/-- Settles O10: the whole reset state is `hardwareReset_eq`, and which parameters construct it is `valid_iff`. -/
theorem hardwareResetState : Obligations.HardwareResetState := by
  refine ⟨fun s rest hbus hport => ?_, fun q => ⟨fun h => ?_, fun hrate hdelay => ?_⟩⟩
  · exact ⟨_, step_of_hostAction hbus hport rfl, rfl, rfl, rfl, rfl, rfl, rfl, rfl, rfl, rfl, rfl,
      hardwareReset_eq _⟩
  · have hv : ¬ q.valid = true := fun hv => by
      obtain ⟨hrate, hdelay⟩ := valid_iff.mp hv
      omega
    exact if_neg hv
  · exact if_pos (valid_iff.mpr ⟨hrate, hdelay⟩)

end Sys2Proof.Machine
end

section
/-! PROOFS. What a host command and a micro-operation can leave (R142 to R146, R171 to R174): who writes `STATUS`,
`SampleRate`, `Initialized`, the coefficient sets and the response. -/

namespace Sys2Proof.Machine

/-! ### Each port carries its own instructions (R60) -/

theorem ifWellFormed_ok {i j : Instr} (h : ifWellFormed j = .ok i) : i = j := by
  unfold ifWellFormed at h
  split at h
  · simpa using h.symm
  · cases h

theorem isHostCommand_of_decodeU16 {w : UnitWord} {i : Instr} (h : decodeU16 w = .ok i) :
    i.isHostCommand = false := by
  simp only [decodeU16] at h
  split_ifs at h
  on_goal 8 => cases h; rfl
  all_goals
    rw [ifWellFormed_ok h]
    rfl

theorem isHostCommand_of_decodeH64 {w : CommandWord} {i : Instr} (h : decodeH64 w = .ok i) :
    i.isHostCommand = true := by
  simp only [decodeH64] at h
  split_ifs at h <;> cases h <;> rfl

/-! ### What no number of frames touches, field by field -/

section
variable (n : Nat) (s : State)

@[simp] theorem State.frames_params : (s.frames n).params = s.params := by
  obtain ⟨h, -⟩ := frames_keeps n s
  exact h

@[simp] theorem State.frames_sampleRate : (s.frames n).sampleRate = s.sampleRate := by
  obtain ⟨-, h, -⟩ := frames_keeps n s
  exact h

@[simp] theorem State.frames_initialized : (s.frames n).initialized = s.initialized := by
  obtain ⟨-, -, h, -⟩ := frames_keeps n s
  exact h

@[simp] theorem State.frames_status : (s.frames n).status = s.status := by
  obtain ⟨-, -, -, -, h, -⟩ := frames_keeps n s
  exact h

@[simp] theorem State.frames_k : (s.frames n).k = s.k := by
  obtain ⟨-, -, -, -, -, -, h, -⟩ := frames_keeps n s
  exact h

@[simp] theorem State.frames_cpc : (s.frames n).cpc = s.cpc := by
  obtain ⟨-, -, -, -, -, -, -, -, -, h, -⟩ := frames_keeps n s
  exact h

@[simp] theorem State.frames_port : (s.frames n).port = s.port := by
  obtain ⟨-, -, -, -, -, -, -, -, -, -, -, -, h⟩ := frames_keeps n s
  exact h

end

/-! ### The state after the reset body (R143) -/

section
variable {α : Type}

theorem set_two (v : Vector α 2) (a b : α) : (v.set 0 a).set 1 b = #v[a, b] := by
  ext i hi
  interval_cases i <;> simp

theorem set_four (v : Vector α 4) (a b c d : α) :
    (((v.set 0 a).set 1 b).set 2 c).set 3 d = #v[a, b, c, d] := by
  ext i hi
  interval_cases i <;> simp

theorem set_seven (v : Vector α 7) (a b c d e f g : α) :
    ((((((v.set 0 a).set 1 b).set 2 c).set 3 d).set 4 e).set 5 f).set 6 g = #v[a, b, c, d, e, f, g] := by
  ext i hi
  interval_cases i <;> simp

end

/-- `s` with all derived state as the RESET column of R28 says. -/
def State.afterResetBody (s : State) : State :=
  { s with
    delayLen := delayLength s.params.maxDelay s.sampleRate
    k := setsForRate s.params s.sampleRate
    f := Vector.replicate 7 FilterState.zero
    p := Vector.replicate 4 PhaseState.zero
    d := Vector.replicate 2 DelayLine.zero
    initialized := true
    rateDirty := false }

/-- R131, R171: DL.CFG completes exactly from 50 Hz up. -/
theorem zeroDelay_eq_false_iff {rate : BitVec 32} : zeroDelay rate = false ↔ 50 ≤ rate.toInt := by
  simp only [zeroDelay, delayQuotient, beq_eq_false_iff_ne]
  omega

/-- The micro-operations of the body write every unit once, from the parameters and the rate alone. -/
theorem resetBody_of_zeroDelay {s : State} (hz : zeroDelay s.sampleRate = false) :
    s.resetBody = some s.afterResetBody := by
  simp only [State.resetBody, dlCfg_some hz, Option.some.injEq]
  ext1
  case k => exact set_four ..
  case f => exact set_seven ..
  case p => exact set_four ..
  case d => exact set_two ..
  all_goals simp [State.dlClr, State.psClr, State.bqClr, State.bqLpc, State.bqHpc, State.afterResetBody]

theorem resetBody_eq_some_iff {s t : State} :
    s.resetBody = some t ↔ zeroDelay s.sampleRate = false ∧ t = s.afterResetBody := by
  cases hz : zeroDelay s.sampleRate with
  | true => simp [resetBody_none.mpr hz]
  | false => simp [resetBody_of_zeroDelay hz, eq_comm]

/-! ### The ends of a host command -/

/-- The ways in which the host command `i` takes `s` to `t`. -/
inductive CommandCase (s t : State) : Instr → Prop where
  | rejected {i : Instr} (c : Cause) (ht : t = s.raise c) : CommandCase s t i
  | stored {rate : BitVec 32} (hpos : 0 < rate.toInt) (ht : t = (s.storeRate rate).accept) :
      CommandCase s t (.setrate rate)
  | reset (hz : zeroDelay s.sampleRate = false) (ht : t = s.afterResetBody.accept) : CommandCase s t .reset
  | nothing {n : BitVec 32} (ht : t = s.accept) : CommandCase s t (.process n)
  | frames {n : BitVec 32} (hinit : s.initialized = true)
      (hfit : s.buffersFit (frameCount n) = true) (ht : t = ((s.atFrame 0).frames (frameCount n)).accept) :
      CommandCase s t (.process n)
  | framesAfterReset {n : BitVec 32} (hinit : s.initialized = false) (hz : zeroDelay s.sampleRate = false)
      (hfit : s.buffersFit (frameCount n) = true)
      (ht : t = ((s.afterResetBody.atFrame 0).frames (frameCount n)).accept) : CommandCase s t (.process n)

section
variable {s t : State}

theorem commandCase_of_execSetrate {rate : BitVec 32} (h : execSetrate rate s = .next t) :
    CommandCase s t (.setrate rate) := by
  obtain ⟨-, hx⟩ | ⟨hpos, hx⟩ := execSetrate_cases rate s <;> cases hx.symm.trans h
  · exact .rejected .eRate rfl
  · exact .stored (by simpa [rateRejected] using hpos) rfl

theorem commandCase_of_execReset (h : execReset s = .next t) : CommandCase s t .reset := by
  obtain ⟨-, hx⟩ | ⟨r, hr, hx⟩ := execReset_cases s <;> cases hx.symm.trans h
  · exact .rejected .eZeroDelay rfl
  · obtain ⟨hz, rfl⟩ := resetBody_eq_some_iff.mp hr
    exact .reset hz rfl

theorem commandCase_of_execProcess {n : BitVec 32} (h : execProcess n s = .next t) :
    CommandCase s t (.process n) := by
  obtain ⟨-, hx⟩ | ⟨-, -, hx⟩ | ⟨-, -, hinit, hx⟩ | ⟨-, -, -, -, hx⟩ | ⟨-, -, -, -, hx⟩ | ⟨-, hinit, -, r, hr, hx⟩ :=
    execProcess_cases n s <;> rw [hx] at h
  case inl => cases h; exact .rejected .eCount rfl
  case inr.inl => cases h; exact .rejected .eStale rfl
  case inr.inr.inl =>
    obtain ⟨hfit, -, ht⟩ := runFrames_next h
    exact .frames hinit hfit ht
  case inr.inr.inr.inl => cases h; exact .nothing rfl
  case inr.inr.inr.inr.inl => cases h; exact .rejected .eZeroDelay rfl
  case inr.inr.inr.inr.inr =>
    obtain ⟨hz, rfl⟩ := resetBody_eq_some_iff.mp hr
    obtain ⟨hfit, -, ht⟩ := runFrames_next h
    exact .framesAfterReset hinit hz hfit ht

theorem commandCase_of_exec {i : Instr} (hi : i.isHostCommand = true) (h : exec i s = .next t) :
    CommandCase s t i := by
  cases i with
  | setrate rate => exact commandCase_of_execSetrate h
  | reset => exact commandCase_of_execReset h
  | process n => exact commandCase_of_execProcess h
  | _ => cases hi

/-- R173: a command is rejected, or it leaves `STATUS` alone and answers with it. -/
theorem CommandCase.rejected_or_answered {i : Instr} (h : CommandCase s t i) :
    (∃ c, t = s.raise c) ∨
    (t.status = s.status ∧ t.cpc = s.cpc + 1 ∧ t.port = s.port ∧ t.response = some ⟨false, 0#3, s.status⟩) := by
  cases h with
  | rejected c ht => exact .inl ⟨c, ht⟩
  | stored _ ht | reset _ ht | nothing ht | frames _ _ ht | framesAfterReset _ _ _ ht =>
    exact .inr (by simp [ht, State.afterResetBody])

/-- R11: of the commands only SETRATE writes `SampleRate`. -/
theorem CommandCase.sampleRate {i : Instr} (h : CommandCase s t i) :
    t.sampleRate = s.sampleRate ∨ (i = .setrate t.sampleRate ∧ 0 < t.sampleRate.toInt) := by
  cases h with
  | stored hpos ht => exact .inr (by simpa [ht] using hpos)
  | rejected _ ht | reset _ ht | nothing ht | frames _ _ ht | framesAfterReset _ _ _ ht =>
    exact .inl (by simp [ht, State.afterResetBody])

/-- R12: of the commands only RESET and PROCESS write `Initialized`, and they set it. -/
theorem CommandCase.initialized {i : Instr} (h : CommandCase s t i) :
    t.initialized = s.initialized ∨
    (t.initialized = true ∧ (i = .reset ∨ ∃ n, i = .process n)) := by
  cases h with
  | reset _ ht => exact .inr ⟨by simp [ht, State.afterResetBody], .inl rfl⟩
  | framesAfterReset _ _ _ ht => exact .inr ⟨by simp [ht, State.afterResetBody], .inr ⟨_, rfl⟩⟩
  | rejected _ ht | stored _ ht | nothing ht | frames _ _ ht => exact .inl (by simp [ht])

/-- R16: of the commands only RESET and a PROCESS on a never-reset decoder write `K`. -/
theorem CommandCase.k {i : Instr} (h : CommandCase s t i) :
    t.k = s.k ∨ i = .reset ∨ (s.initialized = false ∧ ∃ n, i = .process n) := by
  cases h with
  | reset => exact .inr (.inl rfl)
  | framesAfterReset hinit => exact .inr (.inr ⟨hinit, _, rfl⟩)
  | rejected _ ht | stored _ ht | nothing ht | frames _ _ ht => exact .inl (by simp [ht])

/-! ### The control registers and `K` under a micro-operation -/

/-- `t` has the `SampleRate` and `Initialized` of `s`, and its `STATUS` unless `E_ZERODELAY` was recorded. -/
def KeepsControl (s t : State) : Prop :=
  t.sampleRate = s.sampleRate ∧ t.initialized = s.initialized ∧
    (t.status = s.status ∨ t.status = statusWith .eZeroDelay s.status)

theorem exec_keepsControl {i : Instr} (hi : i.isHostCommand = false) (h : exec i s = .next t) :
    KeepsControl s t := by
  cases i with
  | setrate rate | reset | process n => cases hi
  | bqClr f => obtain ⟨_, -, rfl⟩ := exec_bqClr_next h; exact ⟨rfl, rfl, .inl rfl⟩
  | bqLpc k => obtain ⟨_, -, rfl⟩ := exec_bqLpc_next h; exact ⟨rfl, rfl, .inl rfl⟩
  | bqHpc k => obtain ⟨_, -, rfl⟩ := exec_bqHpc_next h; exact ⟨rfl, rfl, .inl rfl⟩
  | bqApply f k => obtain ⟨_, _, -, -, rfl⟩ := exec_bqApply_next h; exact ⟨rfl, rfl, .inl rfl⟩
  | psClr p => obtain ⟨_, -, rfl⟩ := exec_psClr_next h; exact ⟨rfl, rfl, .inl rfl⟩
  | psApply p v => obtain ⟨_, -, rfl⟩ := exec_psApply_next h; exact ⟨rfl, rfl, .inl rfl⟩
  | dlClr d => obtain ⟨_, -, rfl⟩ := exec_dlClr_next h; exact ⟨rfl, rfl, .inl rfl⟩
  | dlCfg =>
    obtain ⟨-, rfl⟩ | ⟨-, rfl⟩ := exec_dlCfg_next h
    · exact ⟨rfl, rfl, .inr rfl⟩
    · exact ⟨rfl, rfl, .inl rfl⟩
  | dlPush d => obtain ⟨_, -, -, rfl⟩ := exec_dlPush_next h; exact ⟨rfl, rfl, .inl rfl⟩

/-- R110: of the micro-operations only the two derivations write `K`. -/
theorem exec_unit_k {i : Instr} (hi : i.isHostCommand = false) (h : exec i s = .next t) :
    t.k = s.k ∨ ∃ k, i = .bqLpc k ∨ i = .bqHpc k := by
  cases i with
  | setrate rate | reset | process n => cases hi
  | bqLpc k => exact .inr ⟨k, .inl rfl⟩
  | bqHpc k => exact .inr ⟨k, .inr rfl⟩
  | bqClr f => obtain ⟨_, -, rfl⟩ := exec_bqClr_next h; exact .inl rfl
  | bqApply f k => obtain ⟨_, _, -, -, rfl⟩ := exec_bqApply_next h; exact .inl rfl
  | psClr p => obtain ⟨_, -, rfl⟩ := exec_psClr_next h; exact .inl rfl
  | psApply p v => obtain ⟨_, -, rfl⟩ := exec_psApply_next h; exact .inl rfl
  | dlClr d => obtain ⟨_, -, rfl⟩ := exec_dlClr_next h; exact .inl rfl
  | dlCfg => obtain ⟨-, rfl⟩ | ⟨-, rfl⟩ := exec_dlCfg_next h <;> exact .inl rfl
  | dlPush d => obtain ⟨_, -, -, rfl⟩ := exec_dlPush_next h; exact .inl rfl

/-! ### `STATUS` (R14) and the response (R173) -/

theorem resetPending_iff : s.resetPending = true ↔ s.unitBus = [] ∧ ∃ rest, s.port = .hardwareReset :: rest := by
  cases hp : s.port <;> simp [State.resetPending, hp, List.isEmpty_iff]

/-- R14, R173: recording a cause keeps every set bit. -/
theorem and_statusWith (c : Cause) (x : BitVec 5) : x &&& statusWith c x = x := by
  simp only [statusWith]
  ext j hj
  simp +contextual

theorem CommandCase.status_sticky {i : Instr} (h : CommandCase s t i) : s.status &&& t.status = s.status := by
  obtain ⟨c, ht⟩ | ⟨hst, -⟩ := h.rejected_or_answered
  · rw [ht, State.raise_status, and_statusWith]
  · rw [hst, BitVec.and_self]

/-- R14: every set bit of `STATUS` stays, unless the step is a hardware reset. -/
theorem step_status_sticky (h : step s = .next t) (hnr : s.resetPending = false) :
    s.status &&& t.status = s.status := by
  cases step_next h with
  | unitWord hbus hdec hexec =>
    obtain ⟨-, -, hst | hst⟩ := exec_keepsControl (isHostCommand_of_decodeU16 hdec) hexec
    · rw [hst, BitVec.and_self]
    · rw [hst, and_statusWith]
  | command hbus hport hdec hexec =>
    exact (commandCase_of_exec (isHostCommand_of_decodeH64 hdec) hexec).status_sticky
  | illegal hbus hport hdec ht => rw [ht, State.raise_status, and_statusWith]
  | hardwareReset hbus hport ht => rw [resetPending_iff.mpr ⟨hbus, _, hport⟩] at hnr; cases hnr
  | idle hbus hport ht => rw [ht, BitVec.and_self]
  | fillIn hbus hport ht | provideOut hbus hport ht => rw [ht]; exact BitVec.and_self

theorem causeCode_le (c : Cause) : (causeCode c).toNat ≤ 4 := by
  cases c <;> decide

/-- A command word is rejected, or it leaves `STATUS` alone and answers with it; either way its word is taken. -/
theorem commandPending_cases {w : CommandWord} {rest : List HostEvent} (hw : s.commandPending w rest)
    (h : step s = .next t) :
    (∃ c, t = ({ s with port := rest } : State).raise c) ∨
    (t.status = s.status ∧ t.cpc = s.cpc + 1 ∧ t.port = rest ∧ t.response = some ⟨false, 0#3, s.status⟩) := by
  obtain ⟨hidle, hpending⟩ := hw
  cases step_next h with
  | command hbus hport hdec hexec =>
    obtain ⟨-, rfl⟩ : _ ∧ rest = _ := by simpa [hpending] using hport
    exact (commandCase_of_exec (isHostCommand_of_decodeH64 hdec) hexec).rejected_or_answered
  | illegal hbus hport hdec ht =>
    obtain ⟨-, rfl⟩ : _ ∧ rest = _ := by simpa [hpending] using hport
    exact .inl ⟨.eOp, ht⟩
  | unitWord hbus => simp [hidle] at hbus
  | idle _ hport | fillIn _ hport | provideOut _ hport | hardwareReset _ hport => simp [hpending] at hport

end

/-! ### The statements -/

/-- Settles O15: RESET ends in `afterResetBody`, which depends on the parameters and the rate alone and keeps
both, so the second RESET writes the same again. -/
theorem resetInitialisesDerivedState : Obligations.ResetInitialisesDerivedState := by
  intro s hrate
  have hreset {u : State} (hu : 50 ≤ u.sampleRate.toInt) : exec .reset u = .next u.afterResetBody.accept := by
    simp only [exec, execReset, resetBody_of_zeroDelay (zeroDelay_eq_false_iff.mpr hu)]
  refine ⟨hreset hrate, fun t ht => ?_⟩
  cases (hreset hrate).symm.trans ht
  exact hreset hrate

/-- Settles O55: the sticky bits are `step_status_sticky`, and a `STATUS` of 0 has only 0 below it. -/
theorem statusBitsAreSticky : Obligations.StatusBitsAreSticky := by
  intro s t h hnr
  have hsticky := step_status_sticky h hnr
  refine ⟨hsticky, fun ht => ?_⟩
  simp only [State.noFaultRecorded, beq_iff_eq] at ht ⊢
  simpa [ht] using hsticky.symm

/-- Settles O57, by the cases of a step. -/
theorem onlyTheirCommandsWriteRateAndInitialized : Obligations.OnlyTheirCommandsWriteRateAndInitialized := by
  intro s t h
  cases step_next h with
  | unitWord hbus hdec hexec =>
    obtain ⟨hrate, hinit, -⟩ := exec_keepsControl (isHostCommand_of_decodeU16 hdec) hexec
    exact ⟨fun hne => absurd hrate hne, fun hne => absurd hinit hne⟩
  | command hbus hport hdec hexec =>
    have hcase := commandCase_of_exec (isHostCommand_of_decodeH64 hdec) hexec
    refine ⟨fun hne => ?_, fun hne => ?_⟩
    · obtain heq | ⟨rfl, hpos⟩ := hcase.sampleRate
      · exact absurd heq hne
      · exact .inr ⟨_, _, ⟨hbus, hport⟩, hdec, hpos⟩
    · obtain heq | ⟨hset, hi⟩ := hcase.initialized
      · exact absurd heq hne
      · exact .inr ⟨hset, _, _, ⟨hbus, hport⟩,
          by obtain rfl | ⟨n, rfl⟩ := hi; exacts [.inl hdec, .inr ⟨n, hdec⟩]⟩
  | hardwareReset hbus hport ht =>
    have hreset := resetPending_iff.mpr ⟨hbus, _, hport⟩
    exact ⟨fun _ => .inl hreset, fun _ => .inl ⟨by rw [ht, State.hardwareReset_initialized], hreset⟩⟩
  | idle _ _ ht | illegal _ _ _ ht | fillIn _ _ ht | provideOut _ _ ht =>
    exact ⟨fun hne => absurd (by simp [ht]) hne, fun hne => absurd (by simp [ht]) hne⟩

/-- Settles O58, by the cases of a step. -/
theorem onlyCoefficientOperationsWriteK : Obligations.OnlyCoefficientOperationsWriteK := by
  intro s t h hne
  cases step_next h with
  | unitWord hbus hdec hexec =>
    obtain heq | ⟨k, hi⟩ := exec_unit_k (isHostCommand_of_decodeU16 hdec) hexec
    · exact absurd heq hne
    · exact .inr (.inr ⟨_, _, hbus, k, by obtain rfl | rfl := hi; exacts [.inl hdec, .inr hdec]⟩)
  | command hbus hport hdec hexec =>
    obtain heq | hi | ⟨hinit, n, hi⟩ := (commandCase_of_exec (isHostCommand_of_decodeH64 hdec) hexec).k
    · exact absurd heq hne
    · exact .inr (.inl ⟨_, _, ⟨hbus, hport⟩, .inl (hi ▸ hdec)⟩)
    · exact .inr (.inl ⟨_, _, ⟨hbus, hport⟩, .inr ⟨hinit, n, hi ▸ hdec⟩⟩)
  | hardwareReset hbus hport ht => exact .inl (resetPending_iff.mpr ⟨hbus, _, hport⟩)
  | idle _ _ ht | illegal _ _ _ ht | fillIn _ _ ht | provideOut _ _ ht => exact absurd (by simp [ht]) hne

/-- Settles O59: a rejection is `raise`, and every other end of a command answers without an error. -/
theorem everyCommandRespondsPrecisely : Obligations.EveryCommandRespondsPrecisely := by
  intro s t w rest hw h
  obtain ⟨c, rfl⟩ | ⟨hstatus, hcpc, hport, hresp⟩ := commandPending_cases hw h
  · refine ⟨⟨rfl, rfl, _, rfl, rfl, nofun⟩, fun _ => ⟨causeCode c, causeCode_le c, ?_⟩⟩
    obtain ⟨hidle, -⟩ := hw
    ext1 <;> simp [statusWith, hidle]
  · exact ⟨⟨hcpc, hport, _, hresp, hstatus.symm, fun _ => rfl⟩, fun herr => by simp [hresp] at herr⟩

end Sys2Proof.Machine
end
section
/-! PROOFS. Every step keeps the invariants of R22: what a frame does to the phase shifters, the delay lines and `OUT`,
then the commands and the host's actions. -/

namespace Sys2Proof.Machine

/-! ### What a frame does to each unit (R147) -/

/-- A frame, its intermediate states named, for any index and samples. -/
theorem mixFrame_of {s a b c e : State} {i : Nat} {l16 r16 : Sample} {F : Fmt} {m l r : B32}
    (hF : F = s.params.mixFmt) (hl : l = f32OfI16 l16) (hr : r = f32OfI16 r16) (hm : m = midSignal F s.draws l r)
    (ha : s.tick.centre m = a)
    (hb : a.surround F (s.draws + 2) 2 3 0 1 0 (mixMul F (s.draws + 3) l kMain)
      (mixMul F (s.draws + 4) r kCross) = b)
    (hc : b.surround F (s.draws + 5) 4 5 2 3 1 (mixMul F (s.draws + 6) l kCross)
      (mixMul F (s.draws + 7) r kMain) = c)
    (he : c.lowEffects m = e) :
    s.mixFrame i l16 r16 = e.emit s.draws i (mixMul F (s.draws + 8) l half32)
      (mixMul F (s.draws + 9) r half32) a.uOut e.uOut b.uOut c.uOut := by
  subst hF hl hr hm ha hb hc he
  rfl

section
variable {s : State} {F : Fmt} {t : Nat} {fl fr : Fin 7} {pl pr : Fin 4} {d : Fin 2} {l r : B32}

/-- R151: a rear path applies each of its two phase shifters once. -/
theorem surround_p_applied {i : Fin 4} (hne : pl ≠ pr) (hi : i = pl ∨ i = pr) : ∃ t' v u,
    (s.surround F t fl fr pl pr d l r).p[i] = (phaseApply s.params t' s.sampleRate v s.p[i] u).1 := by
  have hlr : (pl : Nat) ≠ pr := fun h => hne (Fin.ext h)
  obtain ⟨a, ha⟩ : ∃ a, s.filter fl 2 l = a := ⟨_, rfl⟩
  obtain ⟨b, hb⟩ : ∃ b, a.shift pl true a.uOut = b := ⟨_, rfl⟩
  obtain ⟨c, hc⟩ : ∃ c, b.filter fr 2 r = c := ⟨_, rfl⟩
  rw [surround_of ha hb hc rfl rfl, State.delay_p, State.shift_p]
  obtain rfl | rfl := hi
  · refine ⟨a.draws, true, a.uOut, ?_⟩
    simp [← hc, ← hb, ← ha, Vector.getElem_set_ne, hlr.symm]
  · refine ⟨c.draws, false, c.uOut, ?_⟩
    simp [← hc, ← hb, ← ha, Vector.getElem_set_ne, hlr]

theorem surround_p_other {i : Fin 4} (hl : i ≠ pl) (hr : i ≠ pr) :
    (s.surround F t fl fr pl pr d l r).p[i] = s.p[i] := by
  have hvalL : (pl : Nat) ≠ i := fun h => hl (Fin.ext h.symm)
  have hvalR : (pr : Nat) ≠ i := fun h => hr (Fin.ext h.symm)
  simp only [State.surround, State.delay_p, State.shift_p, State.filter_p, Fin.getElem_fin,
    Vector.getElem_set_ne _ _ hvalL, Vector.getElem_set_ne _ _ hvalR]

/-- R152: a rear path pushes one sample into its own delay line. -/
theorem surround_d_same : ∃ t' u, (s.surround F t fl fr pl pr d l r).d[d] =
    (delayPush t' s.delayLen s.params.maxDelay s.d[d] u).1 := by
  obtain ⟨a, ha⟩ : ∃ a, s.filter fl 2 l = a := ⟨_, rfl⟩
  obtain ⟨b, hb⟩ : ∃ b, a.shift pl true a.uOut = b := ⟨_, rfl⟩
  obtain ⟨c, hc⟩ : ∃ c, b.filter fr 2 r = c := ⟨_, rfl⟩
  obtain ⟨e, he⟩ : ∃ e, c.shift pr false c.uOut = e := ⟨_, rfl⟩
  refine ⟨e.draws, mixAdd F t b.uOut e.uOut, ?_⟩
  rw [surround_of ha hb hc he rfl, State.delay_d, Fin.getElem_fin, Vector.getElem_set_self]
  simp [← he, ← hc, ← hb, ← ha]

end

section
variable (i : Nat) (l r : Sample) (s : State)

/-- The phase shifters and the delay lines after a frame are those its two rear paths leave: from a state with those of
the state before, through one between. -/
theorem mixFrame_rearPaths : ∃ (a b : State) (F : Fmt) (t t' : Nat) (u v u' v' : B32),
    a.params = s.params ∧ a.sampleRate = s.sampleRate ∧ a.delayLen = s.delayLen ∧ a.p = s.p ∧ a.d = s.d ∧
    a.surround F t 2 3 0 1 0 u v = b ∧
    (s.mixFrame i l r).p = (b.surround F t' 4 5 2 3 1 u' v').p ∧
    (s.mixFrame i l r).d = (b.surround F t' 4 5 2 3 1 u' v').d := by
  refine ⟨s.tick.centre (midSignal s.params.mixFmt s.draws (f32OfI16 l) (f32OfI16 r)), _, s.params.mixFmt,
    s.draws + 2, s.draws + 5, mixMul s.params.mixFmt (s.draws + 3) (f32OfI16 l) kMain,
    mixMul s.params.mixFmt (s.draws + 4) (f32OfI16 r) kCross,
    mixMul s.params.mixFmt (s.draws + 6) (f32OfI16 l) kCross,
    mixMul s.params.mixFmt (s.draws + 7) (f32OfI16 r) kMain,
    by simp, by simp, by simp, by simp, by simp, rfl, ?_, ?_⟩
  · rw [mixFrame_of rfl rfl rfl rfl rfl rfl rfl rfl, State.emit_p, State.lowEffects_p]
  · rw [mixFrame_of rfl rfl rfl rfl rfl rfl rfl rfl, State.emit_d, State.lowEffects_d]

/-- A frame applies each phase shifter once. -/
theorem mixFrame_p (j : Fin 4) : ∃ t v u,
    (s.mixFrame i l r).p[j] = (phaseApply s.params t s.sampleRate v s.p[j] u).1 := by
  obtain ⟨a, b, F, t, t', u, v, u', v', hparams, hrate, -, hp, -, hb, hend, -⟩ := mixFrame_rearPaths i l r s
  rw [hend, ← hparams, ← hrate, ← hp]
  by_cases hj : j = 0 ∨ j = 1
  · have hother : j ≠ 2 ∧ j ≠ 3 := by decide +revert
    rw [surround_p_other hother.1 hother.2, ← hb]
    exact surround_p_applied (by decide) hj
  · have hother : (j ≠ 0 ∧ j ≠ 1) ∧ (j = 2 ∨ j = 3) := by decide +revert
    obtain ⟨⟨h0, h1⟩, hown⟩ := hother
    have hkeeps : b.params = a.params ∧ b.sampleRate = a.sampleRate := by simp [← hb]
    have hbj : b.p[j] = a.p[j] := hb ▸ surround_p_other h0 h1
    rw [← hkeeps.1, ← hkeeps.2, ← hbj]
    exact surround_p_applied (by decide) hown

/-- And it pushes one sample into each delay line. -/
theorem mixFrame_d (j : Fin 2) : ∃ t u,
    (s.mixFrame i l r).d[j] = (delayPush t s.delayLen s.params.maxDelay s.d[j] u).1 := by
  obtain ⟨a, b, F, t, t', u, v, u', v', hparams, -, hlen, -, hd, hb, -, hend⟩ := mixFrame_rearPaths i l r s
  rw [hend, ← hparams, ← hlen, ← hd]
  obtain rfl | rfl : j = 0 ∨ j = 1 := by decide +revert
  · rw [surround_d_other (by decide), ← hb]
    exact surround_d_same
  · have hkeeps : b.params = a.params ∧ b.delayLen = a.delayLen := by simp [← hb]
    have hbj : b.d[(1 : Fin 2)] = a.d[(1 : Fin 2)] := hb ▸ surround_d_other (by decide)
    rw [← hkeeps.1, ← hkeeps.2, ← hbj]
    exact surround_d_same

theorem frame_p (j : Fin 4) : ∃ t v u, s.frame.p[j] = (phaseApply s.params t s.sampleRate v s.p[j] u).1 := by
  rw [State.frame, State.atFrame_p]
  exact mixFrame_p ..

theorem frame_d (j : Fin 2) : ∃ t u,
    s.frame.d[j] = (delayPush t s.delayLen s.params.maxDelay s.d[j] u).1 := by
  rw [State.frame, State.atFrame_d]
  exact mixFrame_d ..

end

/-! ### The phase shifter (R117, R121) -/

/-- R22 item 5: the sweep goes up by `SweepUp`, or down by its reciprocal. -/
def PhaseState.Directed (F : Fmt) (h : PhaseState) : Prop :=
  h.sweep = h.sweepUp ∨ ∃ t, h.sweep = fdivIn F t one64 h.sweepUp

section
variable (q : Params) (t : Nat) (rate : BitVec 32) (v : Bool) (u : B32)

theorem phaseSetUp_of_init {h : PhaseState} (hinit : h.init = true) : phaseSetUp q t rate h = h :=
  if_pos hinit

@[simp] theorem phaseSetUp_init (h : PhaseState) : (phaseSetUp q t rate h).init = true := by
  cases hinit : h.init with
  | true => rw [phaseSetUp_of_init q t rate hinit, hinit]
  | false => simp [phaseSetUp, hinit]

@[simp] theorem phaseApply_init (h : PhaseState) : (phaseApply q t rate v h u).1.init = true :=
  phaseSetUp_init q t rate h

theorem phaseSetUp_directed {h : PhaseState} (hd : h.init = true → h.Directed q.psFmt) :
    (phaseSetUp q t rate h).Directed q.psFmt := by
  cases hinit : h.init with
  | true => rw [phaseSetUp_of_init q t rate hinit]; exact hd hinit
  | false => exact .inl (by simp [phaseSetUp, hinit])

theorem sweepAdvance_directed {F : Fmt} {h : PhaseState} (hd : h.Directed F) : (sweepAdvance F t h).Directed F := by
  simp only [PhaseState.Directed, sweepAdvance]
  split_ifs
  · exact .inr ⟨t + 22, rfl⟩
  · exact .inl rfl
  · exact hd

theorem phaseApply_directed {h : PhaseState} (hd : h.init = true → h.Directed q.psFmt) :
    (phaseApply q t rate v h u).1.Directed q.psFmt :=
  sweepAdvance_directed (h := phaseStages ..) t (phaseSetUp_directed q t rate hd)

end

/-! ### The delay line (R133) -/

theorem nextCursor_of_pos {t len maxDelay c : Nat} (hlen : 1 ≤ len) : nextCursor t len maxDelay c = (c + 1) % len :=
  if_neg (by omega)

/-- A delay array in canonical form and within its size. -/
def DelayLine.Canonical (size : Nat) (l : DelayLine) : Prop :=
  Memory.wfZ l.buf = true ∧ Memory.below size l.buf = true

theorem delayPush_canonical {t len size : Nat} {l : DelayLine} (u : B32) (hl : l.Canonical size)
    (hc : l.cursor < size) : (delayPush t len size l u).1.Canonical size :=
  ⟨Memory.wfZ_pokeZ _ _ hl.1, Memory.below_pokeZ _ hc hl.2⟩

/-! ### `OUT` (R154) -/

/-- `OUT` in canonical form and within the writable elements. -/
def State.OutCanonical (s : State) : Prop := Memory.wf s.outBuf = true ∧ Memory.below s.outSize s.outBuf = true

theorem writeOut_outCanonical {s : State} {i : Nat} (v : Sample) (h : s.OutCanonical) (hi : i < s.outSize) :
    (s.writeOut i v).OutCanonical :=
  ⟨Memory.wf_poke _ _ h.1, Memory.below_poke _ hi h.2⟩

theorem emit_outCanonical {s : State} {i : Nat} (t : Nat) (fl fr ce lfe sl sr : B32) (h : s.OutCanonical)
    (hroom : 6 * i + 6 ≤ s.outSize) : (s.emit t i fl fr ce lfe sl sr).OutCanonical := by
  unfold State.emit
  iterate 5 refine writeOut_outCanonical _ ?_ (by simp only [State.writeOut_outSize]; omega)
  exact writeOut_outCanonical _ h (by omega)

theorem mixFrame_outCanonical {s : State} {i : Nat} (l r : Sample) (h : s.OutCanonical)
    (hroom : 6 * i + 6 ≤ s.outSize) : (s.mixFrame i l r).OutCanonical := by
  rw [mixFrame_of rfl rfl rfl rfl rfl rfl rfl rfl]
  exact emit_outCanonical _ _ _ _ _ _ _ (by simpa [State.OutCanonical] using h) (by simpa using hroom)

theorem frame_outCanonical {s : State} (h : s.OutCanonical) (hroom : 6 * s.frameIdx + 6 ≤ s.outSize) :
    s.frame.OutCanonical := by
  have hmix := mixFrame_outCanonical (s.readIn (2 * s.frameIdx)) (s.readIn (2 * s.frameIdx + 1)) h hroom
  simpa only [State.OutCanonical, State.frame, State.atFrame_outBuf, State.atFrame_outSize] using hmix

/-! ### The frames keep the invariants -/

theorem frame_inv {s : State} (h : s.Inv) (hinit : s.initialized = true) (hroom : 6 * s.frameIdx + 6 ≤ s.outSize) :
    s.frame.Inv := by
  obtain ⟨hlen, -⟩ := h.ready hinit
  have hd (j : Fin 2) : s.frame.d[j].cursor = (s.d[j].cursor + 1) % s.delayLen ∧
      s.frame.d[j].Canonical s.params.maxDelay := by
    obtain ⟨t, u, hj⟩ := frame_d s j
    rw [hj]
    exact ⟨nextCursor_of_pos hlen, delayPush_canonical u (h.arraysCanonical j) (h.cursorInArray j)⟩
  have h0 : s.frame.d[0].cursor = (s.d[0].cursor + 1) % s.delayLen := by simpa using (hd 0).1
  have h1 : s.frame.d[1].cursor = (s.d[1].cursor + 1) % s.delayLen := by simpa using (hd 1).1
  have hlt (j : Fin 2) : s.frame.d[j].cursor < s.delayLen := by
    rw [(hd j).1]
    exact Nat.mod_lt _ hlen
  have hp (j : Fin 4) : s.frame.p[j].init = true ∧ s.frame.p[j].Directed s.params.psFmt := by
    obtain ⟨t, v, u, hj⟩ := frame_p s j
    rw [hj]
    exact ⟨phaseApply_init .., phaseApply_directed _ _ _ _ _ (h.sweepDirection j)⟩
  exact {
    instanceValid := by simpa using h.instanceValid
    libraryFaithful := by simpa using h.libraryFaithful
    delayBounded := by simpa using h.delayBounded
    ready := fun _ => by simpa only [State.frame_delayLen] using And.intro hlen hlt
    setsCurrent := by simpa using h.setsCurrent
    ratePositive := by simpa using h.ratePositive
    sweepDirection := fun j _ => by rw [State.frame_params]; exact (hp j).2
    initsEqual := fun j => (hp j).1.trans (hp 0).1.symm
    cursorsEqual := by rw [h0, h1, h.cursorsEqual]
    cursorInArray := fun j => by simpa using (hlt j).trans_le h.delayBounded
    arraysCanonical := fun j => by rw [State.frame_params]; exact (hd j).2
    inCanonical := by simpa using h.inCanonical
    outCanonical := frame_outCanonical h.outCanonical hroom
    busIdle := by simpa using h.busIdle }

theorem frames_inv {n : Nat} {s : State} (h : s.Inv) (hinit : s.initialized = true)
    (hroom : 6 * (s.frameIdx + n) ≤ s.outSize) : (s.frames n).Inv := by
  induction n generalizing s with
  | zero => exact h
  | succ n ih =>
    refine ih (frame_inv h hinit (by omega)) (by simpa using hinit) ?_
    rw [State.frame_frameIdx, State.frame_outSize]
    omega

/-! ### Each command and each host action keeps the invariants -/

section
variable {s t : State}

theorem accept_inv (h : s.Inv) : s.accept.Inv := { h with }

theorem raise_inv (c : Cause) (h : s.Inv) : (s.raise c).Inv := { h with busIdle := rfl }

theorem atFrame_inv (i : Nat) (h : s.Inv) : (s.atFrame i).Inv := { h with }

theorem withPort_inv (rest : List HostEvent) (h : s.Inv) : ({ s with port := rest } : State).Inv := { h with }

/-- R13: a new rate makes the coefficient sets stale. -/
theorem storeRate_inv {rate : BitVec 32} (hpos : 0 < rate.toInt) (h : s.Inv) : (s.storeRate rate).Inv :=
  { h with
    setsCurrent := nofun
    ratePositive := hpos }

theorem fillIn_inv (vals : List Sample) (h : s.Inv) : (s.fillIn vals).Inv :=
  { h with inCanonical := Memory.wf_ofListFrom 0 vals }

theorem provideOut_inv (size : Nat) (h : s.Inv) : (s.provideOut size).Inv :=
  { h with outCanonical := ⟨rfl, rfl⟩ }

theorem one_le_delayLength {maxDelay : Nat} {rate : BitVec 32} (hmax : 480 ≤ maxDelay)
    (hz : zeroDelay rate = false) : 1 ≤ delayLength maxDelay rate := by
  simp only [zeroDelay, beq_eq_false_iff_ne] at hz
  simp only [delayLength]
  omega

/-- R143: the reset body sets up every invariant of the derived state. -/
theorem afterResetBody_inv (hz : zeroDelay s.sampleRate = false) (h : s.Inv) : s.afterResetBody.Inv := by
  obtain ⟨-, hmax⟩ := valid_iff.mp h.instanceValid
  have hlen := one_le_delayLength hmax hz
  have hp (i : Fin 4) : s.afterResetBody.p[i] = PhaseState.zero := by simp [State.afterResetBody]
  have hd (i : Fin 2) : s.afterResetBody.d[i] = DelayLine.zero := by simp [State.afterResetBody]
  exact { h with
    delayBounded := Nat.min_le_right _ _
    ready := fun _ => ⟨hlen, fun i => by rw [hd i]; exact hlen⟩
    setsCurrent := fun _ _ => ⟨rfl, rfl⟩
    sweepDirection := fun i hi => by rw [hp i] at hi; cases hi
    initsEqual := fun i => by rw [hp i]; rfl
    cursorsEqual := rfl
    cursorInArray := fun i => by rw [hd i]; exact Nat.zero_lt_of_lt hmax
    arraysCanonical := fun i => by rw [hd i]; exact ⟨rfl, rfl⟩ }

/-- R190: so does hardware reset, with no derived state yet. -/
theorem hardwareReset_inv (hvalid : s.params.valid = true) (hlib : s.params.faithful = true)
    (hin : Memory.wf s.inBuf = true) (hout : s.OutCanonical) : s.hardwareReset.Inv := by
  obtain ⟨hrate, hmax⟩ := valid_iff.mp hvalid
  have hp (i : Fin 4) : s.hardwareReset.p[i] = PhaseState.zero := by simp
  have hd (i : Fin 2) : s.hardwareReset.d[i] = DelayLine.zero := by simp
  exact {
    instanceValid := hvalid
    libraryFaithful := hlib
    delayBounded := Nat.zero_le _
    ready := nofun
    setsCurrent := nofun
    ratePositive := hrate
    sweepDirection := fun i hi => by rw [hp i] at hi; cases hi
    initsEqual := fun i => by rw [hp i]; rfl
    cursorsEqual := rfl
    cursorInArray := fun i => by rw [hd i]; exact Nat.zero_lt_of_lt hmax
    arraysCanonical := fun i => by rw [hd i]; exact ⟨rfl, rfl⟩
    inCanonical := hin
    outCanonical := hout
    busIdle := rfl }

/-- The frames of a PROCESS whose buffers fit (R47) find room in `OUT`. -/
theorem processFrames_inv {n : Nat} (h : s.Inv) (hinit : s.initialized = true) (hfit : s.buffersFit n = true) :
    ((s.atFrame 0).frames n).accept.Inv := by
  have hroom : 6 * n ≤ s.outSize := by
    simp only [State.buffersFit, Bool.and_eq_true, decide_eq_true_eq] at hfit
    exact hfit.2
  exact accept_inv (frames_inv (atFrame_inv 0 h) hinit (by simpa using hroom))

theorem CommandCase.inv {i : Instr} (hcase : CommandCase s t i) (h : s.Inv) : t.Inv := by
  cases hcase with
  | rejected c ht => exact ht ▸ raise_inv c h
  | stored hpos ht => exact ht ▸ accept_inv (storeRate_inv hpos h)
  | reset hz ht => exact ht ▸ accept_inv (afterResetBody_inv hz h)
  | nothing ht => exact ht ▸ accept_inv h
  | frames hinit hfit ht => exact ht ▸ processFrames_inv h hinit hfit
  | framesAfterReset _ hz hfit ht => exact ht ▸ processFrames_inv (afterResetBody_inv hz h) rfl hfit

end

/-! ### The statements -/

/-- Settles O12: the unit bus is idle, so the step is a host action or a command, and each keeps the invariants
(`CommandCase.inv`). -/
theorem everyStepKeepsInv : Obligations.EveryStepKeepsInv := by
  intro s t h hstep
  cases step_next hstep with
  | unitWord hbus => simp [h.busIdle] at hbus
  | idle _ _ ht => exact ht ▸ h
  | command _ _ hdec hexec =>
    exact (commandCase_of_exec (isHostCommand_of_decodeH64 hdec) hexec).inv (withPort_inv _ h)
  | illegal _ _ _ ht => exact ht ▸ raise_inv _ (withPort_inv _ h)
  | fillIn _ _ ht => exact ht ▸ fillIn_inv _ (withPort_inv _ h)
  | provideOut _ _ ht => exact ht ▸ provideOut_inv _ (withPort_inv _ h)
  | hardwareReset _ _ ht =>
    exact ht ▸ hardwareReset_inv h.instanceValid h.libraryFaithful h.inCanonical h.outCanonical

/-- The default library has the two values of R91. -/
theorem reset_faithful : State.reset.params.faithful = true := by
  decide +kernel

/-- Settles O11: a state right after hardware reset is its own hardware reset. -/
theorem invAtHardwareReset : Obligations.InvAtHardwareReset := by
  have hinv (q : Params) (hvalid : q.valid = true) (hlib : q.faithful = true) : (State.afterHardwareReset q).Inv :=
    hardwareReset_inv (s := State.afterHardwareReset q) hvalid hlib rfl ⟨rfl, rfl⟩
  exact ⟨hinv _ (by decide) reset_faithful, hinv⟩

end Sys2Proof.Machine
end
section
/-! PROOFS. The four phase-shift states stay in lock-step (R22 item 6, R124): the sweep registers of two states that agree
come out alike unless one is a NaN, whose bits are drawn apart (R82). -/

namespace Sys2Proof.Machine

/-! ### A rounding makes no NaN and keeps one (R81, R82) -/

theorem unpack_eq_nan_iff {F : FloatFormat} {w : Nat} : unpack F w = .nan ↔
    w / 2 ^ F.fracBits % 2 ^ F.expBits = 2 ^ F.expBits - 1 ∧ w % 2 ^ F.fracBits ≠ 0 := by
  by_cases hex : w / 2 ^ F.fracBits % 2 ^ F.expBits = 2 ^ F.expBits - 1
  · by_cases hfrac : w % 2 ^ F.fracBits = 0 <;> simp [unpack, hex, hfrac]
  · simp only [unpack, hex, if_false, false_and, iff_false]
    split <;> nofun

/-- The sign aside, a pattern up to that of an infinity is no NaN. -/
theorem unpack_ne_nan {F : FloatFormat} {w : Nat} (h : w % signWeight F ≤ infBits F) : unpack F w ≠ .nan := by
  intro hnan
  obtain ⟨hex, hfrac⟩ := unpack_eq_nan_iff.mp hnan
  rw [signWeight, Nat.add_comm, Nat.pow_add, Nat.mod_mul, hex, infBits, Nat.mul_comm (2 ^ F.expBits - 1)] at h
  omega

theorem roundMag_le (F : FloatFormat) (m : Nat) (e : Int) : roundMag F m e ≤ infBits F := by
  simp only [roundMag]
  split
  · exact Nat.zero_le _
  · exact Nat.min_le_right _ _

theorem signBits_add_mod (F : FloatFormat) (neg : Bool) (m : Nat) : (signBits F neg + m) % signWeight F ≤ m := by
  cases neg with
  | false => simpa [signBits] using Nat.mod_le m _
  | true => simpa [signBits] using Nat.mod_le m _

theorem deliver_mod_le {F : FloatFormat} {n : Nat} {v : FVal} (hv : v ≠ .nan) :
    deliver F n v % signWeight F ≤ infBits F := by
  cases v with
  | nan => exact absurd rfl hv
  | inf neg => exact signBits_add_mod ..
  | fin neg m e => exact (signBits_add_mod ..).trans (roundMag_le ..)

theorem round64_nan (n : B64) : round64 n .nan = n := BitVec.ofNat_toNat 64 n

theorem round32_nan (n : B32) : round32 n .nan = n := BitVec.ofNat_toNat 32 n

theorem fval64_round64_ne_nan {n : B64} {v : FVal} (hv : v ≠ .nan) : fval64 (round64 n v) ≠ .nan := by
  apply unpack_ne_nan
  rw [round64, BitVec.toNat_ofNat, Nat.mod_mod_of_dvd _ (by decide)]
  exact deliver_mod_le hv

theorem fval32_round32_ne_nan {n : B32} {v : FVal} (hv : v ≠ .nan) : fval32 (round32 n v) ≠ .nan := by
  apply unpack_ne_nan
  rw [round32, BitVec.toNat_ofNat, Nat.mod_mod_of_dvd _ (by decide)]
  exact deliver_mod_le hv

theorem isNaN64_eq_false_iff {a : B64} : isNaN64 a = false ↔ fval64 a ≠ .nan := by
  simp [isNaN64]

/-! ### The operations of the format `PS_FMT` -/

section
variable {F : Fmt} {t : Nat}

theorem fval64_roundIn_nan : fval64 (roundIn F t .nan) = .nan := by
  cases F with
  | b64 => rw [roundIn_b64, round64_nan, nan64, fval64_quietNaN64]
  | b32 => rw [roundIn_b32, round32_nan, f64OfF32, nan32, fval32_quietNaN32, round64_nan, nan64, fval64_quietNaN64]

theorem fval64_roundIn_ne_nan {v : FVal} (hv : v ≠ .nan) : fval64 (roundIn F t v) ≠ .nan := by
  cases F with
  | b64 => exact fval64_round64_ne_nan hv
  | b32 => exact fval64_round64_ne_nan (fval32_round32_ne_nan hv)

/-- A number takes no draw. -/
theorem roundIn_of_ne_nan {v : FVal} (hv : v ≠ .nan) (t' : Nat) : roundIn F t v = roundIn F t' v := by
  cases F with
  | b64 => exact (round64_of_ne_nan hv).trans (round64_of_ne_nan hv).symm
  | b32 =>
    have h32 : round32 (nan32 t) v = round32 (nan32 t') v := (round32_of_ne_nan hv).trans (round32_of_ne_nan hv).symm
    have hn := fval32_round32_ne_nan (n := nan32 t') hv
    rw [roundIn_b32, roundIn_b32, h32]
    exact (round64_of_ne_nan hn).trans (round64_of_ne_nan hn).symm

theorem fitIn_b32_eq_roundIn (a : B64) : fitIn .b32 t a = roundIn .b32 t (fval64 a) := (rfl)

theorem fitIn_of_ne_nan {a : B64} (ha : fval64 a ≠ .nan) (t' : Nat) : fitIn F t a = fitIn F t' a := by
  cases F with
  | b64 => rfl
  | b32 => rw [fitIn_b32_eq_roundIn, fitIn_b32_eq_roundIn, roundIn_of_ne_nan ha t']

theorem fval64_fitIn_ne_nan {a : B64} (ha : fval64 a ≠ .nan) : fval64 (fitIn F t a) ≠ .nan := by
  cases F with
  | b64 => exact ha
  | b32 => rw [fitIn_b32_eq_roundIn]; exact fval64_roundIn_ne_nan ha

theorem ne_nan_of_roundIn {v : FVal} (h : fval64 (roundIn F t v) ≠ .nan) : v ≠ .nan := by
  rintro rfl
  exact h fval64_roundIn_nan

/-- Only a NaN is brought into the format as one. -/
theorem ne_nan_of_fitIn {a : B64} (h : fval64 (fitIn F t a) ≠ .nan) : fval64 a ≠ .nan := by
  cases F with
  | b64 => exact h
  | b32 => rw [fitIn_b32_eq_roundIn] at h; exact ne_nan_of_roundIn h

/-! A product or a quotient that is a number takes no draw, and has numbers as operands. -/

section
variable {a b : B64}

theorem fmulIn_of_ne_nan (h : fval64 (fmulIn F t a b) ≠ .nan) (t' : Nat) : fmulIn F t a b = fmulIn F t' a b :=
  roundIn_of_ne_nan (ne_nan_of_roundIn h) t'

theorem fdivIn_of_ne_nan (h : fval64 (fdivIn F t a b) ≠ .nan) (t' : Nat) : fdivIn F t a b = fdivIn F t' a b :=
  roundIn_of_ne_nan (ne_nan_of_roundIn h) t'

theorem fvalMul_nan_right (v : FVal) : fvalMul v .nan = .nan := by
  cases v <;> rfl

theorem ne_nan_of_fmulIn (h : fval64 (fmulIn F t a b) ≠ .nan) : fval64 a ≠ .nan ∧ fval64 b ≠ .nan := by
  have hv := ne_nan_of_roundIn h
  refine ⟨fun ha => hv (by rw [ha]; rfl), fun hb => hv (by rw [hb, fvalMul_nan_right])⟩

theorem ne_nan_of_fdivIn_left (h : fval64 (fdivIn F t a b) ≠ .nan) : fval64 a ≠ .nan := fun ha =>
  ne_nan_of_roundIn h (by rw [ha]; rfl)

end

end

/-! ### Operations on a finite number other than zero -/

section
variable {v : FVal} {neg : Bool} {m : Nat} {e : Int}

theorem fvalMul_fin_ne_nan (hv : v ≠ .nan) (hm : m ≠ 0) : fvalMul v (.fin neg m e) ≠ .nan := by
  cases v with
  | nan => exact absurd rfl hv
  | inf a => simp [fvalMul, hm]
  | fin a n g => simp [fvalMul]

theorem fvalDiv_fin_ne_nan (hv : v ≠ .nan) (hm : m ≠ 0) : fvalDiv v (.fin neg m e) ≠ .nan := by
  cases v with
  | nan => exact absurd rfl hv
  | inf a => simp [fvalDiv]
  | fin a n g => simp [fvalDiv, hm]

theorem fin_fvalDiv_ne_nan (hv : v ≠ .nan) (hm : m ≠ 0) : fvalDiv (.fin neg m e) v ≠ .nan := by
  cases v with
  | nan => exact absurd rfl hv
  | inf a => simp [fvalDiv]
  | fin a n g =>
    by_cases hn : n = 0
    · simp [fvalDiv, hn, hm]
    · simp [fvalDiv, hn]

end

/-! ### The set-up does not depend on the draws (R117) -/

section
variable {q : Params} {t : Nat} {rate : BitVec 32}

/-- R91: the range of a faithful library is 16.0 in either format. -/
theorem sweepRange_of_faithful (hlib : q.faithful = true) (t : Nat) : sweepRange q t = 0x4030000000000000 := by
  simp only [Params.faithful, Bool.and_eq_true, beq_iff_eq] at hlib
  obtain ⟨hpow, -⟩ := hlib
  rw [sweepRange, two64, depth, hpow]
  cases q.psFmt with
  | b64 => rfl
  | b32 =>
    rw [fitIn_b32_of_ne_nan (by decide) (by decide)]
    decide

theorem fval64_f64OfI32_ne_nan (rate : BitVec 32) : fval64 (f64OfI32 rate) ≠ .nan :=
  fval64_round64_ne_nan (by simp [fvalOfInt])

theorem rateIn_eq (F : Fmt) (t t' : Nat) (rate : BitVec 32) : rateIn F t rate = rateIn F t' rate :=
  fitIn_of_ne_nan (fval64_f64OfI32_ne_nan rate) t'

theorem sweepMin_of_ne_nan (h : fval64 (sweepMin q t rate) ≠ .nan) (t' : Nat) :
    sweepMin q t rate = sweepMin q t' rate := by
  have hpi : fitIn q.psFmt t pi64 = fitIn q.psFmt t' pi64 := fitIn_of_ne_nan (by decide) t'
  have hnum := fmulIn_of_ne_nan (ne_nan_of_fdivIn_left h) (t' + 1)
  calc sweepMin q t rate
      = fdivIn q.psFmt t' (fmulIn q.psFmt (t + 1) (fitIn q.psFmt t pi64) delayMs) (rateIn q.psFmt t rate) :=
        fdivIn_of_ne_nan h t'
    _ = sweepMin q t' rate := by rw [hnum, hpi, rateIn_eq q.psFmt t t' rate, sweepMin]

theorem fval64_fitIn_sweepHz (F : Fmt) (t : Nat) : ∃ m e, fval64 (fitIn F t sweepHz) = .fin false m e ∧ m ≠ 0 := by
  cases F with
  | b64 => exact ⟨0x1999999999999A, -56, by rw [fitIn_b64]; decide, by decide⟩
  | b32 => exact ⟨0x199999A0000000, -56, by rw [fitIn_b32_sweepHz]; decide, by decide⟩

/-- The exponent `SWEEP_HZ / (rate / 2)` is a number at every rate. -/
theorem sweepExponent_eq (F : Fmt) (t t' : Nat) (rate : BitVec 32) :
    fdivIn F (t + 2) (fitIn F t sweepHz) (fdivIn F (t + 3) (rateIn F t rate) two64) =
      fdivIn F (t' + 2) (fitIn F t' sweepHz) (fdivIn F (t' + 3) (rateIn F t' rate) two64) := by
  have hhz : fitIn F t sweepHz = fitIn F t' sweepHz := fitIn_of_ne_nan (by decide) t'
  have hhalf : fvalDiv (fval64 (rateIn F t' rate)) (fval64 two64) ≠ .nan :=
    fvalDiv_fin_ne_nan (fval64_fitIn_ne_nan (fval64_f64OfI32_ne_nan rate)) (by decide)
  have hhalfEq : fdivIn F (t + 3) (rateIn F t' rate) two64 = fdivIn F (t' + 3) (rateIn F t' rate) two64 :=
    roundIn_of_ne_nan hhalf _
  rw [hhz, rateIn_eq F t t', hhalfEq]
  refine roundIn_of_ne_nan ?_ _
  obtain ⟨m, e, hfin, hm⟩ := fval64_fitIn_sweepHz F t'
  rw [hfin]
  exact fin_fvalDiv_ne_nan (fval64_roundIn_ne_nan hhalf) hm

theorem sweepFactor_of_ne_nan (hlib : q.faithful = true) (h : fval64 (sweepFactor q t rate) ≠ .nan) (t' : Nat) :
    sweepFactor q t rate = sweepFactor q t' rate := by
  rw [sweepFactor, fitIn_of_ne_nan (ne_nan_of_fitIn h) (t' + 24), sweepExponent_eq q.psFmt t t' rate,
    sweepRange_of_faithful hlib t, sweepFactor, sweepRange_of_faithful hlib t']

theorem sweepMax_of_ne_nan (hlib : q.faithful = true) (h : fval64 (sweepMin q t rate) ≠ .nan) (t' : Nat) :
    fmulIn q.psFmt (t + 4) (sweepMin q t rate) (sweepRange q t) =
      fmulIn q.psFmt (t' + 4) (sweepMin q t' rate) (sweepRange q t') := by
  rw [← sweepMin_of_ne_nan h t', sweepRange_of_faithful hlib t, sweepRange_of_faithful hlib t']
  exact roundIn_of_ne_nan (fvalMul_fin_ne_nan h (by decide)) _

end

/-! ### The sweep registers of two phase shifters -/

/-- The same five sweep registers. -/
structure PhaseState.SameSweep (h h' : PhaseState) : Prop where
  wp : h.wp = h'.wp
  minWp : h.minWp = h'.minWp
  maxWp : h.maxWp = h'.maxWp
  sweepUp : h.sweepUp = h'.sweepUp
  sweep : h.sweep = h'.sweep

/-- `Wp` and `Sweep` are numbers. -/
def PhaseState.IsNumber (h : PhaseState) : Prop := fval64 h.wp ≠ .nan ∧ fval64 h.sweep ≠ .nan

section
variable {q : Params} {t : Nat} {rate : BitVec 32} {v : Bool} {u : B32} {h h' : PhaseState}

theorem phaseSetUp_sameSweep (hlib : q.faithful = true) (hinit : h.init = h'.init)
    (hsame : h.init = true → h.SameSweep h') (hnum : (phaseSetUp q t rate h).IsNumber) (t' : Nat) :
    (phaseSetUp q t rate h).SameSweep (phaseSetUp q t' rate h') := by
  cases hi : h.init with
  | true =>
    rw [phaseSetUp_of_init q t rate hi, phaseSetUp_of_init q t' rate (hinit.symm.trans hi)]
    exact hsame hi
  | false =>
    have hi' : h'.init = false := hinit.symm.trans hi
    simp only [PhaseState.IsNumber, phaseSetUp, hi, Bool.false_eq_true, if_false] at hnum
    obtain ⟨hmin, hfactor⟩ := hnum
    simp only [phaseSetUp, hi, hi', Bool.false_eq_true, if_false]
    exact {
      wp := sweepMin_of_ne_nan hmin t'
      minWp := sweepMin_of_ne_nan hmin t'
      maxWp := sweepMax_of_ne_nan hlib hmin t'
      sweepUp := sweepFactor_of_ne_nan hlib hfactor t'
      sweep := sweepFactor_of_ne_nan hlib hfactor t' }

/-- R121: the advance multiplies `Wp` by `Sweep`, so a number comes from numbers only. -/
theorem isNumber_of_sweepAdvance {F : Fmt} (hnum : (sweepAdvance F t h).IsNumber) : h.IsNumber :=
  ne_nan_of_fmulIn hnum.1

theorem sweepAdvance_sameSweep {F : Fmt} (hsame : h.SameSweep h') (hnum : (sweepAdvance F t h).IsNumber) (t' : Nat) :
    (sweepAdvance F t h).SameSweep (sweepAdvance F t' h') := by
  obtain ⟨hwp, hsweep⟩ := hnum
  have hw : fmulIn F (t + 21) h.wp h.sweep = fmulIn F (t' + 21) h.wp h.sweep := fmulIn_of_ne_nan hwp _
  refine ⟨hw.trans (by rw [hsame.wp, hsame.sweep]; rfl), hsame.minWp, hsame.maxWp, hsame.sweepUp, ?_⟩
  simp only [sweepAdvance, hw] at hsweep
  simp only [sweepAdvance, hw, ← hsame.wp, ← hsame.minWp, ← hsame.maxWp, ← hsame.sweepUp, ← hsame.sweep]
  split_ifs at hsweep ⊢
  · exact fdivIn_of_ne_nan hsweep _
  · rfl
  · rfl

theorem isNumber_phaseSetUp_of_phaseApply (hnum : (phaseApply q t rate v h u).1.IsNumber) :
    (phaseSetUp q t rate h).IsNumber :=
  isNumber_of_sweepAdvance (h := phaseStages ..) hnum

/-- Two phase shifters in lock-step stay so, whatever their samples, signs and draws. -/
theorem phaseApply_sameSweep (hlib : q.faithful = true) (hinit : h.init = h'.init)
    (hsame : h.init = true → h.SameSweep h') (hnum : (phaseApply q t rate v h u).1.IsNumber)
    (t' : Nat) (v' : Bool) (u' : B32) :
    (phaseApply q t rate v h u).1.SameSweep (phaseApply q t' rate v' h' u').1 := by
  obtain ⟨hwp, hmin, hmax, hup, hsweep⟩ :=
    phaseSetUp_sameSweep hlib hinit hsame (isNumber_phaseSetUp_of_phaseApply hnum) t'
  exact sweepAdvance_sameSweep (h := phaseStages ..) (h' := phaseStages ..) ⟨hwp, hmin, hmax, hup, hsweep⟩ hnum t'

end

/-! ### Lock-step -/

section
variable {s t : State}

theorem lockstep_of_p_eq (hp : t.p = s.p) (h : s.lockstep) : t.lockstep := by
  simpa only [State.lockstep, hp] using h

theorem lockstep_of_p_zero (hp : s.p = Vector.replicate 4 PhaseState.zero) : s.lockstep := by
  intro i j
  simp [hp, PhaseState.zero]

theorem State.lockstep.sameSweep (h : s.lockstep) (i j : Fin 4) (hinit : s.p[i].init = true) :
    s.p[i].SameSweep s.p[j] := by
  obtain ⟨hwp, hmin, hmax, hup, hsweep⟩ := (h i j).2 hinit
  exact ⟨hwp, hmin, hmax, hup, hsweep⟩

/-- Lock-step with the first phase shifter is lock-step of all. -/
theorem lockstep_of_sameSweep (hinit : ∀ j : Fin 4, t.p[j].init = true)
    (hsame : ∀ j : Fin 4, t.p[(0 : Fin 4)].SameSweep t.p[j]) : t.lockstep := fun i j =>
  ⟨(hinit i).trans (hinit j).symm, fun _ =>
    ⟨(hsame i).wp.symm.trans (hsame j).wp, (hsame i).minWp.symm.trans (hsame j).minWp,
      (hsame i).maxWp.symm.trans (hsame j).maxWp, (hsame i).sweepUp.symm.trans (hsame j).sweepUp,
      (hsame i).sweep.symm.trans (hsame j).sweep⟩⟩

/-- One application to each phase shifter keeps lock-step. -/
theorem lockstep_of_applied (hlib : s.params.faithful = true) (h : s.lockstep)
    (hp : ∀ j : Fin 4, ∃ t' v u, t.p[j] = (phaseApply s.params t' s.sampleRate v s.p[j] u).1)
    (hnum : t.p[(0 : Fin 4)].IsNumber) : t.lockstep ∧ ∀ j : Fin 4, t.p[j].init = true := by
  have hinit (j : Fin 4) : t.p[j].init = true := by
    obtain ⟨t', v, u, hj⟩ := hp j
    rw [hj, phaseApply_init]
  refine ⟨lockstep_of_sameSweep hinit fun j => ?_, hinit⟩
  obtain ⟨t0, v0, u0, h0⟩ := hp 0
  obtain ⟨t', v, u, hj⟩ := hp j
  rw [h0] at hnum ⊢
  rw [hj]
  exact phaseApply_sameSweep hlib (h 0 j).1 (h.sameSweep 0 j) hnum t' v u

theorem frame_lockstep (hlib : s.params.faithful = true) (h : s.lockstep) (hnum : s.frame.p[(0 : Fin 4)].IsNumber) :
    s.frame.lockstep :=
  (lockstep_of_applied hlib h (frame_p s) hnum).1

theorem frame_p_init (j : Fin 4) : s.frame.p[j].init = true := by
  obtain ⟨t', v, u, hj⟩ := frame_p s j
  rw [hj, phaseApply_init]

/-- Once set up, a NaN in a phase shifter's sweep stays: numbers after a frame were numbers before it. -/
theorem isNumber_of_frame {j : Fin 4} (hinit : s.p[j].init = true) (hnum : s.frame.p[j].IsNumber) :
    s.p[j].IsNumber := by
  obtain ⟨t', v, u, hj⟩ := frame_p s j
  rw [hj] at hnum
  have hsetUp := isNumber_phaseSetUp_of_phaseApply hnum
  rwa [phaseSetUp_of_init _ _ _ hinit] at hsetUp

theorem isNumber_of_frames {n : Nat} {j : Fin 4} (hinit : s.p[j].init = true) (hnum : (s.frames n).p[j].IsNumber) :
    s.p[j].IsNumber := by
  induction n generalizing s with
  | zero => exact hnum
  | succ n ih => exact isNumber_of_frame hinit (ih (frame_p_init j) hnum)

theorem frames_lockstep {n : Nat} (hlib : s.params.faithful = true) (h : s.lockstep)
    (hnum : (s.frames n).p[(0 : Fin 4)].IsNumber) : (s.frames n).lockstep := by
  induction n generalizing s with
  | zero => exact h
  | succ n ih =>
    rw [State.frames] at hnum ⊢
    have hframe : s.frame.lockstep := frame_lockstep hlib h (isNumber_of_frames (frame_p_init 0) hnum)
    exact ih (by simpa using hlib) hframe hnum

theorem CommandCase.lockstep {i : Instr} (hcase : CommandCase s t i) (hlib : s.params.faithful = true)
    (h : s.lockstep) (hnum : t.p[(0 : Fin 4)].IsNumber) : t.lockstep := by
  cases hcase with
  | rejected _ ht | stored _ ht | nothing ht => exact lockstep_of_p_eq (by simp [ht]) h
  | reset _ ht => exact lockstep_of_p_zero (by rw [ht]; rfl)
  | frames _ _ ht =>
    rw [ht] at hnum ⊢
    exact lockstep_of_p_eq (State.accept_p _) (frames_lockstep hlib (lockstep_of_p_eq (State.atFrame_p _ 0) h) hnum)
  | framesAfterReset _ _ _ ht =>
    rw [ht] at hnum ⊢
    exact lockstep_of_p_eq (State.accept_p _) (frames_lockstep hlib (lockstep_of_p_zero rfl) hnum)

end

/-- Settles O39: a step leaves the phase shifters, zeroes them or runs frames over them (`CommandCase.lockstep`), and
a frame applies each once (`lockstep_of_applied`). -/
theorem stepKeepsPhasesInLockstep : Obligations.StepKeepsPhasesInLockstep := by
  refine ⟨fun s t hinv hlock hstep hwp hsweep => ?_, fun i l r s hlock hlib hwp hsweep => ?_⟩
  · have hnum : t.p[(0 : Fin 4)].IsNumber := ⟨isNaN64_eq_false_iff.mp hwp, isNaN64_eq_false_iff.mp hsweep⟩
    cases step_next hstep with
    | unitWord hbus => simp [hinv.busIdle] at hbus
    | command _ _ hdec hexec =>
      exact (commandCase_of_exec (isHostCommand_of_decodeH64 hdec) hexec).lockstep hinv.libraryFaithful hlock hnum
    | hardwareReset _ _ ht => exact lockstep_of_p_zero (by simp [ht])
    | idle _ _ ht | illegal _ _ _ ht | fillIn _ _ ht | provideOut _ _ ht =>
      exact lockstep_of_p_eq (by simp [ht]) hlock
  · exact lockstep_of_applied hlib hlock (mixFrame_p i l r s)
      ⟨isNaN64_eq_false_iff.mp hwp, isNaN64_eq_false_iff.mp hsweep⟩

end Sys2Proof.Machine
end
section
/-! PROOFS. No step's behaviour depends on `STATUS` (R14, R175): every operation on the state passes another value in it
through. -/

namespace Sys2Proof.Machine

/-- `s` with another value in `STATUS`. -/
def State.withStatus (x : BitVec 5) (s : State) : State := { s with status := x }

section
variable (x : BitVec 5) (s : State)

/-! ### The frames pass `STATUS` through -/

theorem filter_withStatus (i : Fin 7) (j : Fin 4) (u : B32) :
    (s.withStatus x).filter i j u = (s.filter i j u).withStatus x := rfl

theorem shift_withStatus (i : Fin 4) (v : Bool) (u : B32) :
    (s.withStatus x).shift i v u = (s.shift i v u).withStatus x := rfl

theorem delay_withStatus (i : Fin 2) (u : B32) : (s.withStatus x).delay i u = (s.delay i u).withStatus x := rfl

theorem lowEffects_withStatus (m : B32) : (s.withStatus x).lowEffects m = (s.lowEffects m).withStatus x := rfl

theorem emit_withStatus (t i : Nat) (fl fr ce lfe sl sr : B32) :
    (s.withStatus x).emit t i fl fr ce lfe sl sr = (s.emit t i fl fr ce lfe sl sr).withStatus x := rfl

theorem atFrame_withStatus (i : Nat) : (s.withStatus x).atFrame i = (s.atFrame i).withStatus x := rfl

theorem withStatus_uOut : (s.withStatus x).uOut = s.uOut := rfl

theorem centre_withStatus (m : B32) : (s.withStatus x).centre m = (s.centre m).withStatus x := by
  obtain ⟨a, ha⟩ : ∃ a, s.filter 0 0 m = a := ⟨_, rfl⟩
  have ha' : (s.withStatus x).filter 0 0 m = a.withStatus x := by rw [filter_withStatus, ha]
  rw [centre_of ha' rfl, filter_withStatus, withStatus_uOut, centre_of ha rfl]

theorem surround_withStatus (F : Fmt) (t : Nat) (fl fr : Fin 7) (pl pr : Fin 4) (d : Fin 2) (l r : B32) :
    (s.withStatus x).surround F t fl fr pl pr d l r = (s.surround F t fl fr pl pr d l r).withStatus x := by
  obtain ⟨a, ha⟩ : ∃ a, s.filter fl 2 l = a := ⟨_, rfl⟩
  obtain ⟨b, hb⟩ : ∃ b, a.shift pl true a.uOut = b := ⟨_, rfl⟩
  obtain ⟨c, hc⟩ : ∃ c, b.filter fr 2 r = c := ⟨_, rfl⟩
  obtain ⟨e, he⟩ : ∃ e, c.shift pr false c.uOut = e := ⟨_, rfl⟩
  have ha' : (s.withStatus x).filter fl 2 l = a.withStatus x := by rw [filter_withStatus, ha]
  have hb' : (a.withStatus x).shift pl true (a.withStatus x).uOut = b.withStatus x := by
    rw [shift_withStatus, withStatus_uOut, hb]
  have hc' : (b.withStatus x).filter fr 2 r = c.withStatus x := by rw [filter_withStatus, hc]
  have he' : (c.withStatus x).shift pr false (c.withStatus x).uOut = e.withStatus x := by
    rw [shift_withStatus, withStatus_uOut, he]
  rw [surround_of ha' hb' hc' he' rfl, delay_withStatus, withStatus_uOut, withStatus_uOut,
    surround_of ha hb hc he rfl]

theorem frame_withStatus : (s.withStatus x).frame = s.frame.withStatus x := by
  obtain ⟨F, hF⟩ : ∃ F, F = s.params.mixFmt := ⟨_, rfl⟩
  obtain ⟨l, hl⟩ : ∃ l, l = f32OfI16 (s.readIn (2 * s.frameIdx)) := ⟨_, rfl⟩
  obtain ⟨r, hr⟩ : ∃ r, r = f32OfI16 (s.readIn (2 * s.frameIdx + 1)) := ⟨_, rfl⟩
  obtain ⟨m, hm⟩ : ∃ m, m = midSignal F s.draws l r := ⟨_, rfl⟩
  obtain ⟨a, ha⟩ : ∃ a, s.tick.centre m = a := ⟨_, rfl⟩
  obtain ⟨b, hb⟩ : ∃ b, a.surround F (s.draws + 2) 2 3 0 1 0 (mixMul F (s.draws + 3) l kMain)
    (mixMul F (s.draws + 4) r kCross) = b := ⟨_, rfl⟩
  obtain ⟨c, hc⟩ : ∃ c, b.surround F (s.draws + 5) 4 5 2 3 1 (mixMul F (s.draws + 6) l kCross)
    (mixMul F (s.draws + 7) r kMain) = c := ⟨_, rfl⟩
  obtain ⟨e, he⟩ : ∃ e, c.lowEffects m = e := ⟨_, rfl⟩
  have ha' : (s.tick.withStatus x).centre m = a.withStatus x := by rw [centre_withStatus, ha]
  have hb' : (a.withStatus x).surround F (s.draws + 2) 2 3 0 1 0 (mixMul F (s.draws + 3) l kMain)
      (mixMul F (s.draws + 4) r kCross) = b.withStatus x := by rw [surround_withStatus, hb]
  have hc' : (b.withStatus x).surround F (s.draws + 5) 4 5 2 3 1 (mixMul F (s.draws + 6) l kCross)
      (mixMul F (s.draws + 7) r kMain) = c.withStatus x := by rw [surround_withStatus, hc]
  have he' : (c.withStatus x).lowEffects m = e.withStatus x := by rw [lowEffects_withStatus, he]
  rw [frame_of hF hl hr hm ha hb hc he, frame_of (s := s.withStatus x) hF hl hr hm ha' hb' hc' he',
    emit_withStatus, atFrame_withStatus]
  rfl

theorem frames_withStatus (n : Nat) : (s.withStatus x).frames n = (s.frames n).withStatus x := by
  induction n generalizing s with
  | zero => rfl
  | succ n ih => rw [State.frames, frame_withStatus, ih, State.frames]

/-! ### Two states, and two ends of a step, that agree but for `STATUS` -/

/-- `u` is `t` but for `STATUS` and the copy of it in the response. -/
def AgreeButStatus (t u : State) : Prop :=
  { u with status := t.status, response := t.response } = t ∧
    u.response.map (fun r => (r.err, r.code)) = t.response.map (fun r => (r.err, r.code))

theorem agreeButStatus_withStatus : AgreeButStatus s (s.withStatus x) := ⟨rfl, rfl⟩

theorem agreeButStatus_accept : AgreeButStatus s.accept (s.withStatus x).accept := ⟨rfl, rfl⟩

theorem agreeButStatus_raise (c : Cause) : AgreeButStatus (s.raise c) ((s.withStatus x).raise c) := ⟨rfl, rfl⟩

/-- The same end: states that agree, or a stop of the same name. -/
inductive SameEnd : Host.Outcome State Fault Refusal → Host.Outcome State Fault Refusal → Prop where
  | next {t u : State} (h : AgreeButStatus t u) : SameEnd (.next t) (.next u)
  | fault (r : Fault) : SameEnd (.fault r) (.fault r)
  | refused (r : Refusal) : SameEnd (.refused r) (.refused r)

/-! ### The commands -/

theorem execSetrate_sameEnd (rate : BitVec 32) : SameEnd (execSetrate rate s) (execSetrate rate (s.withStatus x)) := by
  simp only [execSetrate]
  split
  · exact .next (agreeButStatus_raise x s .eRate)
  · exact .next (agreeButStatus_accept x (s.storeRate rate))

theorem runFrames_sameEnd (n : Nat) : SameEnd (s.runFrames n) ((s.withStatus x).runFrames n) := by
  have hframes : ((s.withStatus x).atFrame 0).frames n = ((s.atFrame 0).frames n).withStatus x :=
    frames_withStatus x (s.atFrame 0) n
  have hfit : (s.withStatus x).buffersFit n = s.buffersFit n := rfl
  have hslots : (s.withStatus x).slotsPresent = s.slotsPresent := rfl
  simp only [State.runFrames, hframes, hfit, hslots]
  split_ifs
  · exact .next (agreeButStatus_accept x _)
  · exact .fault .delaySlotAbsent
  · exact .refused .bufferContract

theorem resetBody_withStatus : (s.withStatus x).resetBody = s.resetBody.map (State.withStatus x) := by
  cases hz : zeroDelay s.sampleRate with
  | true => rw [resetBody_none.mpr hz, (resetBody_none (s := s.withStatus x)).mpr hz, Option.map_none]
  | false =>
    rw [resetBody_of_zeroDelay hz, resetBody_of_zeroDelay (s := s.withStatus x) hz, Option.map_some]
    rfl

theorem execReset_sameEnd : SameEnd (execReset s) (execReset (s.withStatus x)) := by
  simp only [execReset, resetBody_withStatus]
  cases s.resetBody with
  | none => exact .next (agreeButStatus_raise x s .eZeroDelay)
  | some r => exact .next (agreeButStatus_accept x r)

theorem execProcess_sameEnd (n : BitVec 32) : SameEnd (execProcess n s) (execProcess n (s.withStatus x)) := by
  have hstale : (s.withStatus x).stale = s.stale := rfl
  have hinit : (s.withStatus x).initialized = s.initialized := rfl
  have hparams : (s.withStatus x).params = s.params := rfl
  simp only [execProcess, resetBody_withStatus, hstale, hinit, hparams]
  split_ifs
  · exact .next (agreeButStatus_raise x s .eCount)
  · exact .next (agreeButStatus_raise x s .eStale)
  · exact runFrames_sameEnd x s _
  · exact .next (agreeButStatus_accept x s)
  · cases s.resetBody with
    | none => exact .next (agreeButStatus_raise x s .eZeroDelay)
    | some r => exact runFrames_sameEnd x r _

/-! ### The micro-operations -/

theorem withIndex_sameEnd {n : Nat} (i : BitVec 4) {op op' : Fin n → Host.Outcome State Fault Refusal}
    (h : ∀ j, SameEnd (op j) (op' j)) : SameEnd (withIndex n i op) (withIndex n i op') := by
  simp only [withIndex]
  split
  · exact h _
  · exact .refused .reservedMicroOp

theorem execDlCfg_sameEnd : SameEnd (execDlCfg s) (execDlCfg (s.withStatus x)) := by
  cases hz : zeroDelay s.sampleRate with
  | true =>
    simp only [execDlCfg, dlCfg_none hz, dlCfg_none (s := s.withStatus x) hz]
    exact .next (agreeButStatus_raise x s .eZeroDelay)
  | false =>
    simp only [execDlCfg, dlCfg_some hz, dlCfg_some (s := s.withStatus x) hz]
    exact .next (agreeButStatus_withStatus x (s.withDelayLen _))

theorem execDlPush_sameEnd (d : BitVec 4) : SameEnd (execDlPush d s) (execDlPush d (s.withStatus x)) := by
  refine withIndex_sameEnd d fun j => ?_
  by_cases hslot : s.d[j].cursor < s.params.maxDelay
  · have hslot' : (s.withStatus x).d[j].cursor < (s.withStatus x).params.maxDelay := hslot
    rw [if_pos hslot, if_pos hslot']
    exact .next (agreeButStatus_withStatus x (s.dlPush j))
  · have hslot' : ¬ (s.withStatus x).d[j].cursor < (s.withStatus x).params.maxDelay := hslot
    rw [if_neg hslot, if_neg hslot']
    exact .fault .delaySlotAbsent

theorem exec_sameEnd (i : Instr) : SameEnd (exec i s) (exec i (s.withStatus x)) := by
  cases i with
  | setrate rate => exact execSetrate_sameEnd x s rate
  | reset => exact execReset_sameEnd x s
  | process n => exact execProcess_sameEnd x s n
  | bqClr f => exact withIndex_sameEnd f fun j => .next (agreeButStatus_withStatus x (s.bqClr j))
  | bqLpc k => exact withIndex_sameEnd k fun j => .next (agreeButStatus_withStatus x (s.bqLpc j))
  | bqHpc k => exact withIndex_sameEnd k fun j => .next (agreeButStatus_withStatus x (s.bqHpc j))
  | bqApply f k =>
    exact withIndex_sameEnd f fun i => withIndex_sameEnd k fun j =>
      .next (agreeButStatus_withStatus x (s.bqApply i j))
  | psClr p => exact withIndex_sameEnd p fun j => .next (agreeButStatus_withStatus x (s.psClr j))
  | psApply p v => exact withIndex_sameEnd p fun j => .next (agreeButStatus_withStatus x (s.psApply j v))
  | dlClr d => exact withIndex_sameEnd d fun j => .next (agreeButStatus_withStatus x (s.dlClr j))
  | dlCfg => exact execDlCfg_sameEnd x s
  | dlPush d => exact execDlPush_sameEnd x s d

/-! ### The step -/

theorem step_of_reserved {w : UnitWord} {rest : List UnitWord} {r : DecodeReject} (hbus : s.unitBus = w :: rest)
    (hdec : decodeU16 w = .error r) : step s = .refused .reservedMicroOp := by
  simp [step, fetch, hbus, hdec]

theorem hostAction_sameEnd (e : HostEvent) :
    (∃ i, hostAction e s = .run i s ∧ hostAction e (s.withStatus x) = .run i (s.withStatus x)) ∨
    ∃ t u, hostAction e s = .done t ∧ hostAction e (s.withStatus x) = .done u ∧ AgreeButStatus t u := by
  cases e with
  | command w =>
    cases hdec : decodeH64 w with
    | ok i => exact .inl ⟨i, by simp [hostAction, hdec], by simp [hostAction, hdec]⟩
    | error r =>
      exact .inr ⟨_, _, by simp only [hostAction, hdec], by simp only [hostAction, hdec],
        agreeButStatus_raise x s .eOp⟩
  | fillIn vals => exact .inr ⟨_, _, rfl, rfl, agreeButStatus_withStatus x (s.fillIn vals)⟩
  | provideOut size => exact .inr ⟨_, _, rfl, rfl, agreeButStatus_withStatus x (s.provideOut size)⟩
  | hardwareReset => exact .inr ⟨_, _, rfl, rfl, rfl, rfl⟩

theorem step_sameEnd : SameEnd (step s) (step (s.withStatus x)) := by
  obtain ⟨w, rest, i, hbus, hdec, -⟩ | ⟨w, rest, r, hbus, hdec, -⟩ | ⟨hbus, hport, -⟩ | ⟨e, rest, hbus, hport, hf⟩ :=
    fetch_cases s
  · rw [step_of_unitWord hbus hdec, step_of_unitWord (s := s.withStatus x) hbus hdec]
    exact exec_sameEnd x { s with unitBus := rest } i
  · rw [step_of_reserved s hbus hdec, step_of_reserved (s.withStatus x) hbus hdec]
    exact .refused .reservedMicroOp
  · rw [step_of_idle hbus hport, step_of_idle (s := s.withStatus x) hbus hport]
    exact .next (agreeButStatus_withStatus x s)
  · have hf' : fetch (s.withStatus x) = hostAction e (({ s with port := rest } : State).withStatus x) :=
      fetch_of_port (s := s.withStatus x) hbus hport
    obtain ⟨i, ha, ha'⟩ | ⟨t, u, ha, ha', hagree⟩ := hostAction_sameEnd x { s with port := rest } e
    · simp only [step, hf, hf', ha, ha']
      exact exec_sameEnd x _ i
    · simp only [step, hf, hf', ha, ha']
      exact .next hagree

end

/-- Settles O56, by `step_sameEnd`. -/
theorem statusDecidesNothing : Obligations.StatusDecidesNothing := by
  intro s x
  have h : SameEnd (step s) (step { s with status := x }) := step_sameEnd x s
  generalize step s = o, step { s with status := x } = o' at h
  cases h with
  | next hagree => exact hagree
  | fault | refused => rfl

end Sys2Proof.Machine
end

section
/-! PROOFS. An accepted PROCESS: the state its frames start from (R145, R146), what they write to `OUT` (R48, R154), and
the buffers they ask for (R47). -/

namespace Sys2Proof.Machine

/-! ### What the frames write to `OUT` (R48, R154) -/

section
variable {s : State} {n i j : Nat}

theorem readOut_writeOut (v : Sample) : (s.writeOut i v).readOut j = if j = i then some v else s.readOut j := by
  split_ifs with h
  · rw [h]
    exact Memory.peek_poke_same ..
  · exact Memory.peek_poke_other _ _ h

theorem emit_readOut_own (t : Nat) (fl fr ce lfe sl sr : B32) (hlo : 6 * i ≤ j) (hhi : j < 6 * i + 6) :
    ((s.emit t i fl fr ce lfe sl sr).readOut j).isSome = true := by
  obtain ⟨c, rfl⟩ := Nat.exists_eq_add_of_le hlo
  have hc : c < 6 := by omega
  simp only [State.emit, readOut_writeOut]
  interval_cases c <;> simp

theorem emit_readOut_other (t : Nat) (fl fr ce lfe sl sr : B32) (h : j < 6 * i ∨ 6 * i + 6 ≤ j) :
    (s.emit t i fl fr ce lfe sl sr).readOut j = s.readOut j := by
  have hne (c : Nat) (hc : c < 6) : j ≠ 6 * i + c := by omega
  have h0 : j ≠ 6 * i := hne 0 (by decide)
  simp [State.emit, readOut_writeOut, h0, hne]

theorem readOut_of_outBuf {t : State} (h : t.outBuf = s.outBuf) : t.readOut j = s.readOut j := by
  rw [State.readOut, h, State.readOut]

/-- A frame's writes to `OUT` are the six of its step 7, at its own index. -/
theorem frame_emits (s : State) : ∃ (e : State) (fl fr ce lfe sl sr : B32), e.outBuf = s.outBuf ∧
    s.frame.outBuf = (e.emit s.draws s.frameIdx fl fr ce lfe sl sr).outBuf := by
  have hframe := frame_of (s := s) rfl rfl rfl rfl rfl rfl rfl rfl
  exact ⟨_, _, _, _, _, _, _, by simp, (congrArg State.outBuf hframe).trans (State.atFrame_outBuf _ _)⟩

theorem frame_readOut_own (hlo : 6 * s.frameIdx ≤ j) (hhi : j < 6 * s.frameIdx + 6) :
    (s.frame.readOut j).isSome = true := by
  obtain ⟨e, fl, fr, ce, lfe, sl, sr, -, hframe⟩ := frame_emits s
  rw [readOut_of_outBuf hframe]
  exact emit_readOut_own _ _ _ _ _ _ _ hlo hhi

theorem frame_readOut_other (h : j < 6 * s.frameIdx ∨ 6 * s.frameIdx + 6 ≤ j) :
    s.frame.readOut j = s.readOut j := by
  obtain ⟨e, fl, fr, ce, lfe, sl, sr, hout, hframe⟩ := frame_emits s
  rw [readOut_of_outBuf hframe, emit_readOut_other _ _ _ _ _ _ _ h, readOut_of_outBuf hout]

@[simp] theorem State.frames_frameIdx (n : Nat) (s : State) : (s.frames n).frameIdx = s.frameIdx + n := by
  induction n generalizing s with
  | zero => rfl
  | succ n ih =>
    rw [State.frames, ih, State.frame_frameIdx]
    omega

theorem frames_readOut_other (h : j < 6 * s.frameIdx ∨ 6 * (s.frameIdx + n) ≤ j) :
    (s.frames n).readOut j = s.readOut j := by
  induction n generalizing s with
  | zero => rfl
  | succ n ih =>
    have hrest : j < 6 * s.frame.frameIdx ∨ 6 * (s.frame.frameIdx + n) ≤ j := by
      rw [State.frame_frameIdx]
      omega
    rw [State.frames, ih hrest, frame_readOut_other (by omega)]

/-- Each element belongs to one frame, which writes it, and no later frame touches it. -/
theorem frames_readOut_own (hlo : 6 * s.frameIdx ≤ j) (hhi : j < 6 * (s.frameIdx + n)) :
    ((s.frames n).readOut j).isSome = true := by
  induction n generalizing s with
  | zero => omega
  | succ n ih =>
    rw [State.frames]
    by_cases hfirst : j < 6 * s.frameIdx + 6
    · rw [frames_readOut_other (.inl (by rw [State.frame_frameIdx]; omega))]
      exact frame_readOut_own hlo hfirst
    · exact ih (by rw [State.frame_frameIdx]; omega) (by rw [State.frame_frameIdx]; omega)

end

/-! ### The state the frames start from (R145, R146) -/

/-- The state itself, or on a never-reset decoder the one the implicit reset leaves. -/
def State.processStart (s : State) : State := if s.initialized then s else s.afterResetBody

section
variable {s : State} {n : BitVec 32}

theorem processStart_of_initialized (h : s.initialized = true) : s.processStart = s := by
  simp [State.processStart, h]

theorem processStart_of_neverReset (h : s.initialized = false) : s.processStart = s.afterResetBody := by
  simp [State.processStart, h]

/-- The implicit reset leaves the host's side and the counters alone. -/
theorem processStart_keeps (s : State) : s.processStart.params = s.params ∧
    s.processStart.sampleRate = s.sampleRate ∧ s.processStart.status = s.status ∧ s.processStart.inBuf = s.inBuf ∧
    s.processStart.outBuf = s.outBuf ∧ s.processStart.outSize = s.outSize ∧ s.processStart.port = s.port ∧
    s.processStart.unitBus = s.unitBus ∧ s.processStart.cpc = s.cpc := by
  unfold State.processStart
  split <;> simp [State.afterResetBody]

theorem processStart_initialized (s : State) : s.processStart.initialized = true := by
  cases h : s.initialized with
  | true => rw [processStart_of_initialized h, h]
  | false =>
    rw [processStart_of_neverReset h]
    rfl

theorem processStart_rateDirty (hacc : s.accepts n) : s.processStart.rateDirty = false := by
  obtain ⟨-, hfresh, -⟩ := hacc
  cases h : s.initialized with
  | true => rw [processStart_of_initialized h, hfresh h]
  | false =>
    rw [processStart_of_neverReset h]
    rfl

/-- The implicit reset puts both cursors at slot 0 and keeps `DelayLen` within the arrays. -/
theorem processStart_slotsPresent (hslots : s.initialized = true → s.slotsPresent = true)
    (hvalid : s.params.valid = true) : s.processStart.slotsPresent = true := by
  cases h : s.initialized with
  | true =>
    rw [processStart_of_initialized h]
    exact hslots h
  | false =>
    obtain ⟨-, hmax⟩ := valid_iff.mp hvalid
    rw [processStart_of_neverReset h, slotsPresent_iff]
    refine ⟨fun i => ?_, Nat.min_le_right _ _⟩
    have hcursor : s.afterResetBody.d[i] = DelayLine.zero := by simp [State.afterResetBody]
    rw [hcursor]
    exact Nat.zero_lt_of_lt hmax

theorem buffersFit_processStart (m : Nat) : s.processStart.buffersFit m = s.buffersFit m := by
  obtain ⟨-, -, -, hin, -, hsize, -⟩ := processStart_keeps s
  rw [State.buffersFit, State.buffersFit, hin, hsize]

/-- R145, R146: an acceptable PROCESS of at least one frame is its frames, from `processStart`. -/
theorem exec_process_of_accepts (hacc : s.accepts n) (hn : n ≠ 0#32) :
    exec (.process n) s = s.processStart.runFrames n.toInt.toNat := by
  obtain ⟨hcount, hfresh, hrate⟩ := hacc
  have hc : countRejected n = false := by simpa [countRejected] using hcount
  change execProcess n s = _
  cases h : s.initialized with
  | true =>
    rw [processStart_of_initialized h]
    simp [execProcess, hc, h, State.stale, hfresh h, frameCount]
  | false =>
    have hpos : n.toInt.toNat ≠ 0 := fun h0 => hn (BitVec.eq_of_toInt_eq (by rw [BitVec.toInt_zero]; omega))
    have hbody := resetBody_of_zeroDelay (zeroDelay_eq_false_iff.mpr (hrate h))
    rw [processStart_of_neverReset h]
    simp [execProcess, hc, h, State.stale, hbody, frameCount, hpos]

/-- R143: RESET at a rate of at least 50 Hz is its body and the response. -/
theorem exec_reset_of_rate (hrate : 50 ≤ s.sampleRate.toInt) : exec .reset s = .next s.afterResetBody.accept := by
  simp only [exec, execReset, resetBody_of_zeroDelay (zeroDelay_eq_false_iff.mpr hrate)]

/-- R145: with its buffers supplied it completes. -/
theorem exec_process_completes (hacc : s.accepts n) (hn : n ≠ 0#32) (hfit : s.buffersFit n.toInt.toNat = true)
    (hslots : s.initialized = true → s.slotsPresent = true) (hvalid : s.params.valid = true) :
    exec (.process n) s = .next ((s.processStart.atFrame 0).frames n.toInt.toNat).accept := by
  rw [exec_process_of_accepts hacc hn, State.runFrames, buffersFit_processStart, if_pos hfit,
    if_pos (processStart_slotsPresent hslots hvalid)]

end

/-! ### The host's buffers (R47) -/

theorem buffersSupplied_of_buffersFit {s : State} {n : Nat} (h : s.buffersFit n = true) : s.buffersSupplied n := by
  simp only [State.buffersFit, Bool.and_eq_true, decide_eq_true_eq] at h
  obtain ⟨hin, hout⟩ := h
  refine ⟨fun i hi => ?_, hout⟩
  simpa using Memory.peek_isSome_of_listedFrom hin hi

/-! ### The statements -/

/-- Settles O22: the implicit reset leaves the buffers alone, and the frames' own check fails on them. -/
theorem shortBuffersRefused : Obligations.ShortBuffersRefused := by
  intro n s hacc hn hshort
  have hfit : s.buffersFit n.toInt.toNat = false :=
    Bool.eq_false_iff.mpr fun h => hshort (buffersSupplied_of_buffersFit h)
  rw [exec_process_of_accepts hacc hn, State.runFrames, buffersFit_processStart, hfit]
  rfl

/-- Settles O21: the frames run from `processStart`, `frames_keeps` is their frame, and `frames_readOut_own` and
`frames_readOut_other` say which elements of `OUT` they write. -/
theorem processWritesExactlyItsFrames : Obligations.ProcessWritesExactlyItsFrames := by
  intro n s hacc hn hfit hslots hvalid
  obtain ⟨hparams0, hrate0, hstatus0, hin0, hout0, hsize0, hport0, hbus0, hcpc0⟩ := processStart_keeps s
  obtain ⟨hparams, hrate, hinit, hdirty, hstatus, hlen, hk, hin, hsize, hcpc, -, hbus, hport⟩ :=
    frames_keeps n.toInt.toNat (s.processStart.atFrame 0)
  have hreset (h : s.initialized = false) : exec .reset s = .next s.afterResetBody.accept := by
    obtain ⟨-, -, hrate50⟩ := hacc
    exact exec_reset_of_rate (hrate50 h)
  have hresponse : ((s.processStart.atFrame 0).frames n.toInt.toNat).accept.response =
      some ⟨false, 0#3, s.status⟩ := by
    rw [State.accept_response, hstatus.trans hstatus0]
  have hcount : ((s.processStart.atFrame 0).frames n.toInt.toNat).accept.cpc = s.cpc + 1 := by
    rw [State.accept_cpc, hcpc.trans hcpc0]
  refine ⟨s.processStart, _, exec_process_completes hacc hn hfit hslots hvalid, processStart_of_initialized,
    fun h => ⟨_, hreset h, processStart_of_neverReset h⟩, ?_, fun j hj => ?_, fun j hj => ?_,
    hin.trans hin0, hsize.trans hsize0, hinit.trans (processStart_initialized s),
    hdirty.trans (processStart_rateDirty hacc), hrate.trans hrate0, hstatus.trans hstatus0, hparams.trans hparams0,
    hport.trans hport0, hbus.trans hbus0, hresponse, hcount, ?_, fun h => ?_, fun h => ?_⟩
  · rw [← hresponse, ← hcount, ← frames_eq_iterate]
    rfl
  · exact frames_readOut_own (Nat.zero_le j) (by simpa using hj)
  · calc _ = (s.processStart.atFrame 0).readOut j := frames_readOut_other (.inr (by simpa using hj))
      _ = s.readOut j := readOut_of_outBuf hout0
  · simp
  · have hstart := processStart_of_initialized h
    exact ⟨hk.trans (by simp [hstart]), hlen.trans (by simp [hstart])⟩
  · have hstart := processStart_of_neverReset h
    exact ⟨hk.trans (by rw [hstart]; rfl), hlen.trans (by rw [hstart]; rfl)⟩

end Sys2Proof.Machine
end

section
/-! PROOFS. The two word formats field by field (R61, R66), and the decoder as the inverse of the encoder (R62, R67, R68,
R74). -/

namespace Sys2Proof

/-! ### Host words (R61, R74) -/

section
variable (op : BitVec 8) (imm : BitVec 32)

@[simp] theorem opField_h64 : opField (h64 op imm) = op :=
  calc (h64 op imm).extractLsb' 56 8
    _ = (op ++ 0#24).extractLsb' 24 8 := BitVec.extractLsb'_append_eq_of_le (by decide)
    _ = op := BitVec.extractLsb'_append_eq_left

@[simp] theorem rsvField_h64 : rsvField (h64 op imm) = 0#24 :=
  calc (h64 op imm).extractLsb' 32 24
    _ = (op ++ 0#24).extractLsb' 0 24 := BitVec.extractLsb'_append_eq_of_le (by decide)
    _ = 0#24 := BitVec.extractLsb'_append_eq_right

@[simp] theorem immField_h64 : immField (h64 op imm) = imm := BitVec.extractLsb'_append_eq_right

theorem h64_eq_shiftLeft_or : h64 op imm = op.zeroExtend 64 <<< 56 ||| imm.zeroExtend 64 := by
  rw [h64, ← BitVec.setWidth_eq (op ++ 0#24 ++ imm), BitVec.setWidth_append_append_eq_shiftLeft_setWidth_or]
  simp

end

/-- A word whose reserved field is zero is the one its other two fields make. -/
theorem h64_fields {w : CommandWord} (h : rsvField w = 0#24) : h64 (opField w) (immField w) = w := by
  have hhigh : opField w ++ rsvField w = w.extractLsb' 32 32 :=
    BitVec.extractLsb'_append_extractLsb'_eq_extractLsb' rfl
  rw [h64, ← h, hhigh]
  exact BitVec.extractLsb'_append_extractLsb'

theorem decodeH64_of_rsvField_ne {w : CommandWord} (h : rsvField w ≠ 0#24) :
    decodeH64 w = .error .reservedFieldSet := if_pos h

theorem decodeH64_of_rsvField_eq {w : CommandWord} (h : rsvField w = 0#24) : decodeH64 w =
    if opField w = 0x01#8 then .ok (.setrate (immField w))
    else if opField w = 0x02#8 then if immField w = 0#32 then .ok .reset else .error .resetOperandSet
    else if opField w = 0x03#8 then .ok (.process (immField w))
    else .error .opcodeUnassigned := if_neg (not_not_intro h)

theorem encode_of_decodeH64 {w : CommandWord} {i : Instr} (h : decodeH64 w = .ok i) :
    i.wellFormed = true ∧ encode i = .h64 w := by
  by_cases hrsv : rsvField w = 0#24
  · rw [decodeH64_of_rsvField_eq hrsv] at h
    rw [← h64_fields hrsv]
    split_ifs at h with hop hop himm hop <;> cases h
    case pos => exact ⟨rfl, by simp [encode, hop]⟩
    case pos => exact ⟨rfl, by simp [encode, hop, himm]⟩
    case pos => exact ⟨rfl, by simp [encode, hop]⟩
  · rw [decodeH64_of_rsvField_ne hrsv] at h
    cases h

/-! ### Micro-operation words (R66, R67) -/

/-- `unit`, bits 15:12 (R66). -/
def unitField (w : UnitWord) : BitVec 4 := w.extractLsb' 12 4

/-- `fn`, bits 11:8 (R66). -/
def fnField (w : UnitWord) : BitVec 4 := w.extractLsb' 8 4

theorem u16_fields (w : UnitWord) : u16 (unitField w) (fnField w) (instField w) (argField w) = w := by
  have hhigh : unitField w ++ fnField w = w.extractLsb' 8 8 :=
    BitVec.extractLsb'_append_extractLsb'_eq_extractLsb' rfl
  have hrest : w.extractLsb' 8 8 ++ instField w = w.extractLsb' 4 12 :=
    BitVec.extractLsb'_append_extractLsb'_eq_extractLsb' rfl
  rw [u16, hhigh, hrest]
  exact BitVec.extractLsb'_append_extractLsb'

theorem append_eq_append_iff {m n : Nat} {x x' : BitVec m} {y y' : BitVec n} :
    x ++ y = x' ++ y' ↔ x = x' ∧ y = y' := by
  refine ⟨fun h => ⟨?_, ?_⟩, fun ⟨hx, hy⟩ => by rw [hx, hy]⟩
  · simpa only [BitVec.extractLsb'_append_eq_left] using congrArg (BitVec.extractLsb' n m) h
  · simpa only [BitVec.extractLsb'_append_eq_right] using congrArg (BitVec.extractLsb' 0 n) h

/-- The mask of PS.APPLY's row lets `arg` hold the invert flag alone (R67, R68). -/
theorem and_flagMask_eq_iff {arg : BitVec 4} :
    arg &&& 0xE#4 = 0x0#4 ↔ 0#3 ++ BitVec.ofBool (arg.getLsbD 0) = arg := by
  decide +revert

section
variable {unit fn inst arg unit' fn' inst' arg' : BitVec 4}

theorem u16_eq_u16_iff : u16 unit fn inst arg = u16 unit' fn' inst' arg' ↔
    unit = unit' ∧ fn = fn' ∧ inst = inst' ∧ arg = arg' := by
  refine ⟨fun h => ?_, fun ⟨hunit, hfn, hinst, harg⟩ => by rw [hunit, hfn, hinst, harg]⟩
  obtain ⟨h, harg⟩ := append_eq_append_iff.mp h
  obtain ⟨h, hinst⟩ := append_eq_append_iff.mp h
  obtain ⟨hunit, hfn⟩ := append_eq_append_iff.mp h
  exact ⟨hunit, hfn, hinst, harg⟩

@[simp] theorem instField_u16 : instField (u16 unit fn inst arg) = inst := by
  obtain ⟨-, -, hinst, -⟩ := u16_eq_u16_iff.mp (u16_fields (u16 unit fn inst arg))
  exact hinst

@[simp] theorem argField_u16 : argField (u16 unit fn inst arg) = arg := by
  obtain ⟨-, -, -, harg⟩ := u16_eq_u16_iff.mp (u16_fields (u16 unit fn inst arg))
  exact harg

theorem getLsbD_zero_u16 : (u16 unit fn inst arg).getLsbD 0 = arg.getLsbD 0 := by
  rw [u16, BitVec.getLsbD_append]
  rfl

theorem u16_and_u16 : u16 unit fn inst arg &&& u16 unit' fn' inst' arg' =
    u16 (unit &&& unit') (fn &&& fn') (inst &&& inst') (arg &&& arg') := by
  simp only [u16, ← BitVec.and_append]

/-- Every mask of R67 but DL.CFG's keeps `unit` and `fn`, drops `inst` and keeps the bits `m` of `arg`. -/
theorem u16_and_mask_eq_iff (m : BitVec 4) (mask word : UnitWord)
    (hmask : mask = u16 (.allOnes 4) (.allOnes 4) 0x0 m) (hword : word = u16 unit' fn' 0x0 0x0) :
    u16 unit fn inst arg &&& mask = word ↔ unit = unit' ∧ fn = fn' ∧ arg &&& m = 0x0 := by
  rw [hmask, hword, u16_and_u16, u16_eq_u16_iff, BitVec.and_allOnes, BitVec.and_allOnes]
  simp

end

/-- Decoding by match and mask is decoding by the fields of R67's rows. -/
theorem decodeU16_u16 (unit fn inst arg : BitVec 4) : decodeU16 (u16 unit fn inst arg) =
    if unit = 0x1 ∧ fn = 0x0 ∧ arg = 0x0 then ifWellFormed (.bqClr inst)
    else if unit = 0x1 ∧ fn = 0x1 ∧ arg = 0x0 then ifWellFormed (.bqLpc inst)
    else if unit = 0x1 ∧ fn = 0x2 ∧ arg = 0x0 then ifWellFormed (.bqHpc inst)
    else if unit = 0x1 ∧ fn = 0x3 then ifWellFormed (.bqApply inst arg)
    else if unit = 0x2 ∧ fn = 0x0 ∧ arg = 0x0 then ifWellFormed (.psClr inst)
    else if unit = 0x2 ∧ fn = 0x3 ∧ 0#3 ++ BitVec.ofBool (arg.getLsbD 0) = arg then
      ifWellFormed (.psApply inst (arg.getLsbD 0))
    else if unit = 0x3 ∧ fn = 0x0 ∧ arg = 0x0 then ifWellFormed (.dlClr inst)
    else if unit = 0x3 ∧ fn = 0x1 ∧ inst = 0x0 ∧ arg = 0x0 then .ok .dlCfg
    else if unit = 0x3 ∧ fn = 0x3 ∧ arg = 0x0 then ifWellFormed (.dlPush inst)
    else .error .unitWordUnassigned := by
  have hindex {unit' fn' : BitVec 4} {word : UnitWord} (hword : word = u16 unit' fn' 0x0 0x0) :
      u16 unit fn inst arg &&& 0xFF0F#16 = word ↔ unit = unit' ∧ fn = fn' ∧ arg = 0x0 := by
    rw [u16_and_mask_eq_iff (.allOnes 4) 0xFF0F#16 word rfl hword, BitVec.and_allOnes]
  have happly : u16 unit fn inst arg &&& 0xFF00#16 = 0x1300#16 ↔ unit = 0x1 ∧ fn = 0x3 := by
    simpa using u16_and_mask_eq_iff (unit' := 0x1) (fn' := 0x3) 0x0 0xFF00#16 0x1300#16 rfl rfl
  have hshift : u16 unit fn inst arg &&& 0xFF0E#16 = 0x2300#16 ↔
      unit = 0x2 ∧ fn = 0x3 ∧ 0#3 ++ BitVec.ofBool (arg.getLsbD 0) = arg := by
    rw [← and_flagMask_eq_iff]
    exact u16_and_mask_eq_iff 0xE 0xFF0E#16 0x2300#16 rfl rfl
  have hcfg : u16 unit fn inst arg = 0x3100#16 ↔ unit = 0x3 ∧ fn = 0x1 ∧ inst = 0x0 ∧ arg = 0x0 :=
    u16_eq_u16_iff (unit' := 0x3) (fn' := 0x1) (inst' := 0x0) (arg' := 0x0)
  simp only [decodeU16, instField_u16, argField_u16, getLsbD_zero_u16]
  exact if_congr (hindex rfl) rfl <| if_congr (hindex rfl) rfl <| if_congr (hindex rfl) rfl <|
    if_congr happly rfl <| if_congr (hindex rfl) rfl <| if_congr hshift rfl <| if_congr (hindex rfl) rfl <|
    if_congr hcfg rfl <| if_congr (hindex rfl) rfl rfl

theorem ifWellFormed_of_wellFormed {i : Instr} (h : i.wellFormed = true) : ifWellFormed i = .ok i := if_pos h

theorem encode_of_ifWellFormed {i j : Instr} {w : UnitWord} (h : ifWellFormed j = .ok i) (hj : encode j = .u16 w) :
    i.wellFormed = true ∧ encode i = .u16 w := by
  by_cases hwf : j.wellFormed = true
  · rw [ifWellFormed_of_wellFormed hwf] at h
    cases h
    exact ⟨hwf, hj⟩
  · rw [ifWellFormed, if_neg hwf] at h
    cases h

theorem encode_of_decodeU16 {w : UnitWord} {i : Instr} (h : decodeU16 w = .ok i) :
    i.wellFormed = true ∧ encode i = .u16 w := by
  rw [← u16_fields w, decodeU16_u16] at h
  rw [← u16_fields w]
  split_ifs at h with hrow hrow hrow hrow hrow hrow hrow hrow hrow
  on_goal 8 =>
    cases h
    simp [Instr.wellFormed, encode, hrow]
  all_goals exact encode_of_ifWellFormed h (by simp only [encode, hrow])

/-! ### The decoder and the encoder -/

theorem decode_encode {i : Instr} (h : i.wellFormed = true) : decode (encode i) = .ok i := by
  cases i with
  | setrate rate | reset | process n => simp [encode, decode, decodeH64_of_rsvField_eq]
  | dlCfg => rfl
  | psApply p v => cases v <;> simp [encode, decode, decodeU16_u16, ifWellFormed_of_wellFormed h]
  | bqClr f | bqLpc k | bqHpc k | bqApply f k | psClr p | dlClr d | dlPush d =>
    simp [encode, decode, decodeU16_u16, ifWellFormed_of_wellFormed h]

theorem encode_of_decode {w : PortWord} {i : Instr} (h : decode w = .ok i) :
    i.wellFormed = true ∧ encode i = w := by
  cases w with
  | h64 w => exact encode_of_decodeH64 h
  | u16 w => exact encode_of_decodeU16 h

/-! ### The statements on the encoding -/

/-- Settles O1: the decoder's equations on the words the encoder builds, constructor by constructor. -/
theorem decodeEncodeRoundTrip : Obligations.DecodeEncodeRoundTrip := fun _ h => decode_encode h

/-- Settles O2: each row of either decoder fixes every field of the word that its instruction does not carry. -/
theorem decodedWordIsTheEncoding : Obligations.DecodedWordIsTheEncoding := fun _ _ h => encode_of_decode h

/-- Settles O3: the decoder by fields, the encoding as a shift and an or, and the examples by evaluation. -/
theorem hostWordDecoding : Obligations.HostWordDecoding := by
  refine ⟨fun w => ⟨fun hrsv => ⟨_, decodeH64_of_rsvField_ne hrsv⟩, fun hrsv => ?_⟩,
    fun r => congrArg PortWord.h64 (h64_eq_shiftLeft_or 0x01 r), rfl,
    fun n => congrArg PortWord.h64 (h64_eq_shiftLeft_or 0x03 n), rfl, rfl, rfl, rfl, rfl, rfl⟩
  rw [decodeH64_of_rsvField_eq hrsv]
  refine ⟨fun (hop : opField w = 0x01#8) => if_pos hop, fun (hop : opField w = 0x02#8) => ?_,
    fun (hop : opField w = 0x03#8) => ?_,
    fun (h1 : opField w ≠ 0x01#8) (h2 : opField w ≠ 0x02#8) (h3 : opField w ≠ 0x03#8) => ?_⟩
  · exact ⟨fun (himm : immField w = 0#32) => by simp [hop, himm],
      fun (himm : immField w ≠ 0#32) => ⟨.resetOperandSet, by simp [hop, himm]⟩⟩
  · simp [hop, immField, BitVec.extractLsb]
  · exact ⟨.opcodeUnassigned, by simp [h1, h2, h3]⟩

end Sys2Proof
end

section
/-! PROOFS. What a step does with a word that decodes and with one that does not (R60, R70, R140). -/

namespace Sys2Proof.Machine

theorem step_of_command {s : State} {w : CommandWord} {rest : List HostEvent} {i : Instr}
    (hw : s.commandPending w rest) (hdec : decodeH64 w = .ok i) : step s = exec i { s with port := rest } := by
  obtain ⟨hbus, hport⟩ := hw
  simp [step, fetch_of_port hbus hport, hostAction, hdec]

/-- The micro-operations of RESET (R144) and of a frame (R147), in issue order. -/
def microprograms : List Instr :=
  [.dlCfg, .bqHpc 0, .bqLpc 1, .bqHpc 2, .bqLpc 3, .bqClr 0, .bqClr 1, .bqClr 2, .bqClr 3, .bqClr 4, .bqClr 5, .bqClr 6,
   .psClr 0, .psClr 1, .psClr 2, .psClr 3, .dlClr 0, .dlClr 1,
   .bqApply 0 0, .bqApply 1 1, .bqApply 2 2, .psApply 0 true, .bqApply 3 2, .psApply 1 false, .dlPush 0,
   .bqApply 4 2, .psApply 2 true, .bqApply 5 2, .psApply 3 false, .dlPush 1, .bqApply 6 3]

theorem encode_microprograms : microprograms.map encode = (resetWords ++ frameWords).map .u16 := by decide

theorem wellFormed_of_mem_microprograms : ∀ i ∈ microprograms, i.wellFormed = true := by decide

/-- R68, R70: an index that fails the check of `Instr.wellFormed` is refused, whatever the operation. -/
theorem withIndex_refused (n : Nat) (i : BitVec 4) {op : Fin n → Host.Outcome State Fault Refusal}
    (h : decide (i.toNat < n) = false) : withIndex n i op = .refused .reservedMicroOp :=
  withIndex_of_ge (not_lt.mp (of_decide_eq_false h))

/-! ### The statements on the step -/

/-- Settles O5: a word that decodes is an encoding, so a word that is none has no instruction for the fetch to run. -/
theorem reservedUnitWordRefused : Obligations.ReservedUnitWordRefused := by
  refine ⟨fun s w rest hbus hnone => ?_, fun w hw => ?_⟩
  · cases hdec : decodeU16 w with
    | ok i =>
      obtain ⟨hwf, henc⟩ := encode_of_decodeU16 hdec
      exact absurd henc (hnone i hwf)
    | error r => exact step_of_reserved s hbus hdec
  · have hmem : PortWord.u16 w ∈ microprograms.map encode := encode_microprograms ▸ List.mem_map_of_mem hw
    obtain ⟨i, hi, henc⟩ := List.mem_map.mp hmem
    exact ⟨i, wellFormed_of_mem_microprograms i hi, henc⟩

/-- Settles O6: `withIndex` refuses an index past the units, BQ.APPLY's second one after a first in range. -/
theorem indexOutOfRangeRefused : Obligations.IndexOutOfRangeRefused := by
  intro i s h
  cases i with
  | setrate rate | reset | process n | dlCfg => cases h
  | bqClr f => simp only [exec, execBqClr, withIndex_refused 7 f h]
  | bqLpc k => simp only [exec, execBqLpc, withIndex_refused 4 k h]
  | bqHpc k => simp only [exec, execBqHpc, withIndex_refused 4 k h]
  | bqApply f k =>
    by_cases hf : f.toNat < 7
    · have hk : decide (k.toNat < 4) = false := Bool.and_eq_false_imp.mp h (decide_eq_true hf)
      simp only [exec, execBqApply, withIndex_of_lt hf, withIndex_refused 4 k hk]
    · simp only [exec, execBqApply, withIndex_of_ge (not_lt.mp hf)]
  | psClr p => simp only [exec, execPsClr, withIndex_refused 4 p h]
  | psApply p v => simp only [exec, execPsApply, withIndex_refused 4 p h]
  | dlClr d => simp only [exec, execDlClr, withIndex_refused 2 d h]
  | dlPush d => simp only [exec, execDlPush, withIndex_refused 2 d h]

/-- Settles O7: the fetch reads the port whose word is next, through that port's decoder. -/
theorem stepRunsDecodedInstruction : Obligations.StepRunsDecodedInstruction :=
  ⟨fun _ _ _ _ hw hdec => step_of_command hw hdec, fun _ _ _ _ hbus hdec => step_of_unitWord hbus hdec⟩

end Sys2Proof.Machine
end
section
/-! PROOFS. The one rounding of R81, to nearest with ties to even, in any binary interchange format: what `roundMag`
gives is as near as any finite value, and an infinity from half a unit past the largest on. -/

namespace Sys2Proof.Machine

/-! ### Rounding to an integer -/

/-- `r` is the integer nearest `y`, the even one of two that are as near. -/
def NearestInt (r : Nat) (y : ℚ) : Prop :=
  2 * r - 1 ≤ 2 * y ∧ 2 * y ≤ 2 * r + 1 ∧ (2 * y = 2 * r - 1 ∨ 2 * y = 2 * r + 1 → r % 2 = 0)

theorem nearestInt_self (r : Nat) : NearestInt r r :=
  ⟨by linarith, by linarith, fun h => by rcases h with h | h <;> linarith⟩

section
variable {r : Nat} {y : ℚ}

theorem NearestInt.abs_le_half (h : NearestInt r y) : |(r : ℚ) - y| ≤ 1 / 2 := by
  obtain ⟨hlo, hhi, -⟩ := h
  exact abs_le.mpr ⟨by linarith, by linarith⟩

theorem NearestInt.abs_sub_le (h : NearestInt r y) (z : ℤ) : |(r : ℚ) - y| ≤ |z - y| := by
  obtain ⟨hlo, hhi, -⟩ := id h
  rcases lt_trichotomy z r with hz | rfl | hz
  · have hz : (z : ℚ) + 1 ≤ r := mod_cast hz
    exact h.abs_le_half.trans (le_abs.mpr (.inr (by linarith)))
  · exact le_rfl
  · have hz : (r : ℚ) + 1 ≤ z := mod_cast hz
    exact h.abs_le_half.trans (le_abs.mpr (.inl (by linarith)))

theorem NearestInt.even_of_tie (h : NearestInt r y) {z : ℤ} (htie : |(r : ℚ) - y| = |z - y|) (hne : z ≠ r) :
    r % 2 = 0 := by
  obtain ⟨hlo, hhi, heven⟩ := id h
  have hhalf : |z - y| ≤ 1 / 2 := htie ▸ h.abs_le_half
  obtain ⟨hzlo, hzhi⟩ := abs_le.mp hhalf
  rcases lt_or_gt_of_ne hne with hz | hz
  · have hz : (z : ℚ) + 1 ≤ r := mod_cast hz
    exact heven (.inl (by linarith))
  · have hz : (r : ℚ) + 1 ≤ z := mod_cast hz
    exact heven (.inr (by linarith))

/-- Nothing that is an integer, or lies below one that is no more than `y`, is nearer. -/
theorem NearestInt.nearest (h : NearestInt r y) {u : ℚ} (hu : (∃ z : ℤ, u = z) ∨ ∃ z : ℤ, u < z ∧ (z : ℚ) ≤ y) :
    |(r : ℚ) - y| ≤ |u - y| ∧ (|(r : ℚ) - y| = |u - y| → u ≠ r → r % 2 = 0) := by
  rcases hu with ⟨z, rfl⟩ | ⟨z, huz, hzy⟩
  · exact ⟨h.abs_sub_le z, fun htie hne => h.even_of_tie htie (mod_cast hne)⟩
  · have hlt : |(r : ℚ) - y| < |u - y| :=
      calc |(r : ℚ) - y| ≤ |z - y| := h.abs_sub_le z
        _ = y - z := by rw [abs_of_nonpos (by linarith), neg_sub]
        _ < y - u := by linarith
        _ ≤ |u - y| := by rw [← neg_sub u y]; exact neg_le_abs _
    exact ⟨hlt.le, fun htie => absurd htie hlt.ne⟩

/-- A tie below an even integer goes to it. -/
theorem NearestInt.two_mul_le_iff (h : NearestInt r y) (k : Nat) : 2 * k ≤ r ↔ 4 * (k : ℚ) - 1 ≤ 2 * y := by
  obtain ⟨hlo, hhi, heven⟩ := h
  constructor
  · intro hk
    have hk : 2 * (k : ℚ) ≤ r := mod_cast hk
    linarith
  · intro hk
    by_contra hlt
    have hr : (r : ℚ) + 1 ≤ 2 * k := mod_cast not_le.mp hlt
    have htie := heven (.inr (by linarith))
    have hr' : 2 * (k : ℚ) ≤ r + 1 := by linarith
    have hr' : 2 * k ≤ r + 1 := mod_cast hr'
    omega

end

/-- `roundShift` in integers: at most half a step away, and even in a tie. -/
theorem roundShift_spec {m : Nat} {d : Int} (hd : 0 < d) :
    2 * (roundShift m d * 2 ^ d.toNat) ≤ 2 * m + 2 ^ d.toNat ∧
    2 * m ≤ 2 * (roundShift m d * 2 ^ d.toNat) + 2 ^ d.toNat ∧
    (2 * (roundShift m d * 2 ^ d.toNat) = 2 * m + 2 ^ d.toNat ∨
      2 * m = 2 * (roundShift m d * 2 ^ d.toNat) + 2 ^ d.toNat → roundShift m d % 2 = 0) := by
  have hsplit := Nat.div_add_mod' m (2 ^ d.toNat)
  have hlt := Nat.mod_lt m (Nat.two_pow_pos d.toNat)
  simp only [roundShift, if_neg (not_le.mpr hd)]
  split
  · rw [Nat.add_mul]
    omega
  · omega

/-- `m` stands for `x` where the places below `2 ^ d` are rounded off: it is `x`, or it is odd, at least two places
go, and `x` lies strictly between its neighbours, so that no tie is in between. -/
def StandsFor (m : Nat) (x : ℚ) (d : Int) : Prop := x = m ∨ (m % 2 = 1 ∧ 2 ≤ d ∧ (m : ℚ) - 1 < x ∧ x < m + 1)

theorem roundShift_spec_of_standsFor {m k : Nat} {x : ℚ} (hk : 0 < k) (hx : StandsFor m x k) :
    2 * (roundShift m k * 2 ^ k) ≤ 2 * x + 2 ^ k ∧ 2 * x ≤ 2 * (roundShift m k * 2 ^ k) + 2 ^ k ∧
    (2 * (roundShift m k * 2 ^ k) = 2 * x + 2 ^ k ∨ 2 * x = 2 * (roundShift m k * 2 ^ k) + 2 ^ k →
      roundShift m k % 2 = 0) := by
  obtain ⟨hlo, hhi, heven⟩ := roundShift_spec (m := m) (Int.natCast_pos.mpr hk)
  generalize roundShift m k = r at *
  simp only [Int.toNat_natCast] at hlo hhi heven
  rcases hx with rfl | ⟨hodd, htwo, hxlo, hxhi⟩
  · exact ⟨mod_cast hlo, mod_cast hhi, fun h => heven (mod_cast h)⟩
  · obtain ⟨j, rfl⟩ : ∃ j, k = j + 2 := ⟨k - 2, by omega⟩
    have hrD : r * 2 ^ (j + 2) = 4 * (r * 2 ^ j) := by ring
    have hD : 2 ^ (j + 2) = 4 * 2 ^ j := by ring
    have hlo' : 2 * (r * 2 ^ (j + 2)) + 2 ≤ 2 * m + 2 ^ (j + 2) := by
      rw [hrD, hD] at hlo ⊢
      omega
    have hhi' : 2 * m + 2 ≤ 2 * (r * 2 ^ (j + 2)) + 2 ^ (j + 2) := by
      rw [hrD, hD] at hhi ⊢
      omega
    have hlo'' : 2 * ((r : ℚ) * 2 ^ (j + 2)) + 2 ≤ 2 * m + 2 ^ (j + 2) := mod_cast hlo'
    have hhi'' : 2 * (m : ℚ) + 2 ≤ 2 * (r * 2 ^ (j + 2)) + 2 ^ (j + 2) := mod_cast hhi'
    exact ⟨by linarith, by linarith, fun h => by rcases h with h | h <;> linarith⟩

/-- `roundShift` rounds what `m` stands for. -/
theorem nearestInt_roundShift {m : Nat} {d : Int} {x : ℚ} (hx : StandsFor m x d) :
    NearestInt (roundShift m d) (x * 2 ^ (-d)) := by
  rcases le_or_gt d 0 with hd | hd
  · obtain rfl : x = m := hx.resolve_right fun h => by omega
    have hexact : (m : ℚ) * 2 ^ (-d) = roundShift m d := by
      obtain ⟨k, hk⟩ := Int.eq_ofNat_of_zero_le (neg_nonneg.mpr hd)
      simp [roundShift, if_pos hd, hk]
    rw [hexact]
    exact nearestInt_self _
  · obtain ⟨k, rfl⟩ := Int.eq_ofNat_of_zero_le hd.le
    obtain ⟨hlo, hhi, heven⟩ := roundShift_spec_of_standsFor (Int.natCast_pos.mp hd) hx
    have hpos : (0 : ℚ) < 2 ^ k := by positivity
    obtain ⟨y, rfl⟩ : ∃ y, x = y * 2 ^ k := ⟨x / 2 ^ k, (div_mul_cancel₀ x hpos.ne').symm⟩
    rw [zpow_neg, zpow_natCast, mul_inv_cancel_right₀ hpos.ne']
    refine ⟨?_, ?_, fun h => heven ?_⟩
    · exact le_of_mul_le_mul_right (by linarith) hpos
    · exact le_of_mul_le_mul_right (by linarith) hpos
    · rcases h with h | h
      · exact .inl (by linear_combination (-2 ^ k) * h)
      · exact .inr (by linear_combination 2 ^ k * h)

/-! ### Rounding a magnitude to a format -/

/-- `m * 2 ^ e` stands for the magnitude `x` in a rounding to `F`. -/
def Represents (F : FloatFormat) (m : Nat) (e : Int) (x : ℚ) : Prop :=
  ∃ y, x = y * 2 ^ e ∧ StandsFor m y (m.log2 - F.fracBits)

theorem represents_self (F : FloatFormat) (m : Nat) (e : Int) : Represents F m e (m * 2 ^ e) := ⟨m, rfl, .inl rfl⟩

/-- The bits that `roundMag` gives before it stops at those of an infinity. -/
def roundBits (F : FloatFormat) (m : Nat) (e : Int) : Nat :=
  (ulpExp F m e - minExp F).toNat * 2 ^ F.fracBits + roundShift m (ulpExp F m e - e)

/-- Half a unit past the largest finite value. -/
def overflowFrom (F : FloatFormat) : ℚ := (2 ^ (F.fracBits + 2) - 1) * 2 ^ (minExp F + 2 ^ F.expBits - 4)

theorem minExp_le_ulpExp (F : FloatFormat) (m : Nat) (e : Int) : minExp F ≤ ulpExp F m e := le_max_right _ _

section
variable {F : FloatFormat} {m : Nat} {e : Int} {x : ℚ}

theorem roundMag_eq_min (hm : m ≠ 0) : roundMag F m e = min (roundBits F m e) (infBits F) := by
  simp [roundMag, hm, roundBits]

theorem StandsFor.bounds {y : ℚ} (hm : m ≠ 0) (hy : StandsFor m y (m.log2 - F.fracBits)) :
    2 ^ m.log2 ≤ y ∧ y < 2 ^ (m.log2 + 1) := by
  have hlo := Nat.log2_self_le hm
  have hhi : m + 1 ≤ 2 ^ (m.log2 + 1) := Nat.lt_log2_self
  have hhi' : (m : ℚ) + 1 ≤ 2 ^ (m.log2 + 1) := mod_cast hhi
  rcases hy with rfl | ⟨hodd, htwo, hylo, hyhi⟩
  · exact ⟨mod_cast hlo, by linarith⟩
  · obtain ⟨k, hk⟩ : ∃ k, m.log2 = k + 1 := ⟨m.log2 - 1, by omega⟩
    have hlo : 2 ^ m.log2 + 1 ≤ m := by
      rw [hk, pow_succ] at hlo ⊢
      omega
    have hlo' : (2 : ℚ) ^ m.log2 + 1 ≤ m := mod_cast hlo
    exact ⟨by linarith, by linarith⟩

/-- The rounded significand. -/
theorem Represents.nearestInt (hx : Represents F m e x) :
    NearestInt (roundShift m (ulpExp F m e - e)) (x * 2 ^ (-ulpExp F m e)) := by
  obtain ⟨y, rfl, hy⟩ := hx
  have hq : e + m.log2 - F.fracBits ≤ ulpExp F m e := le_max_left _ _
  have hd : StandsFor m y (ulpExp F m e - e) :=
    hy.imp_right fun ⟨hodd, htwo, hyy⟩ => ⟨hodd, by omega, hyy⟩
  have hscale : y * 2 ^ e * 2 ^ (-ulpExp F m e) = y * 2 ^ (-(ulpExp F m e - e)) := by
    rw [mul_assoc, ← zpow_add₀ two_ne_zero]
    congr 2
    ring
  rw [hscale]
  exact nearestInt_roundShift hd

theorem Represents.lt_two_pow (hx : Represents F m e x) (hm : m ≠ 0) :
    x * 2 ^ (-ulpExp F m e) < 2 ^ (F.fracBits + 1) := by
  obtain ⟨y, rfl, hy⟩ := hx
  have hq : e + m.log2 - F.fracBits ≤ ulpExp F m e := le_max_left _ _
  calc y * 2 ^ e * 2 ^ (-ulpExp F m e)
      < 2 ^ (m.log2 + 1) * 2 ^ e * 2 ^ (-ulpExp F m e) := by gcongr; exact (hy.bounds hm).2
    _ = (2 : ℚ) ^ ((m.log2 + 1 : ℤ) + e + -ulpExp F m e) := by
      rw [zpow_add₀ two_ne_zero, zpow_add₀ two_ne_zero, ← zpow_natCast, Nat.cast_add_one]
    _ ≤ 2 ^ ((F.fracBits + 1 : ℕ) : ℤ) := zpow_le_zpow_right₀ one_le_two (by omega)
    _ = 2 ^ (F.fracBits + 1) := zpow_natCast ..

/-- Above the subnormals the significand has its top bit. -/
theorem Represents.two_pow_le (hx : Represents F m e x) (hm : m ≠ 0) (hq : minExp F < ulpExp F m e) :
    2 ^ F.fracBits ≤ x * 2 ^ (-ulpExp F m e) := by
  obtain ⟨y, rfl, hy⟩ := hx
  have hq : ulpExp F m e = e + m.log2 - F.fracBits := max_eq_left (lt_max_iff.mp hq |>.resolve_right (lt_irrefl _)).le
  calc (2 : ℚ) ^ F.fracBits
      = 2 ^ ((m.log2 : ℤ) + e + -ulpExp F m e) := by
        rw [← zpow_natCast, hq]
        congr 1
        ring
    _ = 2 ^ m.log2 * 2 ^ e * 2 ^ (-ulpExp F m e) := by
      rw [zpow_add₀ two_ne_zero, zpow_add₀ two_ne_zero, zpow_natCast]
    _ ≤ y * 2 ^ e * 2 ^ (-ulpExp F m e) := by gcongr; exact (hy.bounds hm).1

theorem Represents.roundShift_le (hx : Represents F m e x) (hm : m ≠ 0) :
    roundShift m (ulpExp F m e - e) ≤ 2 ^ (F.fracBits + 1) := by
  have hlt := hx.lt_two_pow hm
  obtain ⟨hlo, -⟩ := hx.nearestInt
  have h : (2 : ℚ) * roundShift m (ulpExp F m e - e) < 2 * 2 ^ (F.fracBits + 1) + 1 := by linarith
  have h : 2 * roundShift m (ulpExp F m e - e) < 2 * 2 ^ (F.fracBits + 1) + 1 := mod_cast h
  omega

theorem Represents.le_roundShift (hx : Represents F m e x) (hm : m ≠ 0) (hq : minExp F < ulpExp F m e) :
    2 ^ F.fracBits ≤ roundShift m (ulpExp F m e - e) := by
  have hle := hx.two_pow_le hm hq
  obtain ⟨-, hhi, -⟩ := hx.nearestInt
  have h : (2 : ℚ) * 2 ^ F.fracBits ≤ 2 * roundShift m (ulpExp F m e - e) + 1 := by linarith
  have h : 2 * 2 ^ F.fracBits ≤ 2 * roundShift m (ulpExp F m e - e) + 1 := mod_cast h
  omega

/-- The bits reach those of an infinity exactly where the magnitude reaches half a unit past the largest finite value.
Below the last binade neither does, above it both do; in it the tie at the threshold goes up, its lower side being odd. -/
theorem Represents.infBits_le_iff (hx : Represents F m e x) (hm : m ≠ 0) (hE : 2 ≤ F.expBits) :
    infBits F ≤ roundBits F m e ↔ overflowFrom F ≤ x := by
  have hlt := hx.lt_two_pow hm
  have hge := hx.two_pow_le hm
  have hrle := hx.roundShift_le hm
  have hler := hx.le_roundShift hm
  have hnear := hx.nearestInt
  have hB : 4 ≤ 2 ^ F.expBits := Nat.pow_le_pow_right two_pos hE
  have hBcast : (2 : ℤ) ^ F.expBits = (2 ^ F.expBits : ℕ) := by push_cast; rfl
  have hAcast : (2 : ℚ) ^ F.fracBits = (2 ^ F.fracBits : ℕ) := by push_cast; rfl
  have hA : 1 ≤ 2 ^ F.fracBits := Nat.one_le_two_pow
  obtain ⟨t, ht⟩ := Int.le.dest (minExp_le_ulpExp F m e)
  have htn : (ulpExp F m e - minExp F).toNat = t := by omega
  have hxy : x = x * 2 ^ (-ulpExp F m e) * 2 ^ ulpExp F m e := by
    rw [mul_assoc, ← zpow_add₀ two_ne_zero, neg_add_cancel, zpow_zero, mul_one]
  rw [roundBits, infBits, htn, overflowFrom, hxy, pow_add, hAcast, hBcast]
  rw [pow_succ] at hrle
  rw [pow_succ, hAcast] at hlt
  rw [hAcast] at hge
  generalize x * 2 ^ (-ulpExp F m e) = y at *
  generalize roundShift m (ulpExp F m e - e) = r at *
  generalize ulpExp F m e = q at *
  generalize 2 ^ F.fracBits = A at *
  generalize 2 ^ F.expBits = B at *
  have hA' : (1 : ℚ) ≤ A := mod_cast hA
  have hpos : (0 : ℚ) < 2 ^ q := by positivity
  rcases lt_trichotomy (t + 3) B with htB | rfl | htB
  · have hbits : (t + 3) * A ≤ (B - 1) * A := Nat.mul_le_mul_right A (by omega)
    have hscale : (2 : ℚ) ^ q ≤ 2 ^ (minExp F + B - 4) := zpow_le_zpow_right₀ one_le_two (by omega)
    refine iff_of_false (by rw [add_mul] at hbits; omega) (not_le.mpr ?_)
    calc y * 2 ^ q < A * 2 * 2 ^ q := by gcongr
      _ ≤ (A * 2 ^ 2 - 1) * 2 ^ (minExp F + B - 4) := mul_le_mul (by linarith) hscale hpos.le (by linarith)
  · have hthreshold : minExp F + ((t + 3 : ℕ) : ℤ) - 4 = q + -1 := by omega
    rw [hthreshold, zpow_add₀ two_ne_zero, zpow_neg_one, mul_comm (2 ^ q : ℚ), ← mul_assoc, mul_le_mul_iff_left₀ hpos]
    have hbits : (t + 3 - 1) * A = t * A + 2 * A := by rw [Nat.add_sub_assoc (by decide), add_mul]
    rw [hbits, Nat.add_le_add_iff_left, hnear.two_mul_le_iff A]
    constructor <;> intro h <;> linarith
  · have hq : minExp F < q := by omega
    have hbits : (B - 1) * A ≤ (t + 1) * A := Nat.mul_le_mul_right A (by omega)
    have hscale : (2 : ℚ) ^ (minExp F + B - 4) ≤ 2 ^ (q + -2) := zpow_le_zpow_right₀ one_le_two (by omega)
    refine iff_of_true (by rw [add_mul] at hbits; have := hler hq; omega) ?_
    calc ((A : ℚ) * 2 ^ 2 - 1) * 2 ^ (minExp F + B - 4)
        ≤ (A * 2 ^ 2 - 1) * 2 ^ (q + -2) := mul_le_mul_of_nonneg_left hscale (by linarith)
      _ ≤ (A : ℚ) * 2 ^ 2 * 2 ^ (q + -2) := by gcongr; linarith
      _ = (A : ℚ) * 2 ^ q := by rw [zpow_add₀ two_ne_zero]; field_simp
      _ ≤ y * 2 ^ q := by gcongr; exact hge hq

end

/-! ### What a pattern denotes -/

/-- The sign as a factor. -/
def signFactor (neg : Bool) : ℚ := if neg then -1 else 1

theorem abs_signFactor (neg : Bool) : |signFactor neg| = 1 := by
  cases neg <;> simp [signFactor]

theorem signFactor_mul_self (neg : Bool) : signFactor neg * signFactor neg = 1 := by
  cases neg <;> simp [signFactor]

theorem fvalRat_fin (neg : Bool) (m : Nat) (e : Int) : fvalRat (.fin neg m e) = some (signFactor neg * m * 2 ^ e) := rfl

section
variable {F : FloatFormat}

theorem infBits_lt (F : FloatFormat) : infBits F < signWeight F := by
  rw [infBits, signWeight, pow_add]
  exact Nat.mul_lt_mul_of_pos_right (Nat.sub_lt (Nat.two_pow_pos _) one_pos) (Nat.two_pow_pos _)

/-- The fields of a pattern of magnitude bits `k`. -/
theorem fields_signBits_add {k : Nat} (neg : Bool) (hk : k < signWeight F) :
    (signBits F neg + k) % 2 ^ F.fracBits = k % 2 ^ F.fracBits ∧
    (signBits F neg + k) / 2 ^ F.fracBits % 2 ^ F.expBits = k / 2 ^ F.fracBits ∧
    ((signBits F neg + k) / signWeight F % 2 == 1) = neg := by
  rw [signWeight, pow_add] at hk
  have hex : k / 2 ^ F.fracBits < 2 ^ F.expBits := Nat.div_lt_of_lt_mul (Nat.mul_comm .. ▸ hk)
  cases neg with
  | false => simp [signBits, signWeight, pow_add, Nat.mod_eq_of_lt hex, Nat.div_eq_of_lt hk]
  | true =>
    have hpos : 0 < 2 ^ F.fracBits := Nat.two_pow_pos _
    simp [signBits, signWeight, pow_add, Nat.add_div_of_dvd_right, Nat.mod_eq_of_lt hex, Nat.div_eq_of_lt hk]

theorem unpack_signBits_add {k : Nat} (neg : Bool) (hk : k < infBits F) : unpack F (signBits F neg + k) =
    if k / 2 ^ F.fracBits = 0 then .fin neg (k % 2 ^ F.fracBits) (minExp F)
    else .fin neg (k % 2 ^ F.fracBits + 2 ^ F.fracBits) (minExp F + (k / 2 ^ F.fracBits : Nat) - 1) := by
  obtain ⟨hfrac, hex, hneg⟩ := fields_signBits_add neg (hk.trans (infBits_lt F))
  have hfin : k / 2 ^ F.fracBits < 2 ^ F.expBits - 1 := Nat.div_lt_of_lt_mul (Nat.mul_comm .. ▸ hk)
  simp only [unpack, hfrac, hex, hneg, if_neg hfin.ne]

theorem unpack_signBits_add_infBits (neg : Bool) :
    unpack F (signBits F neg + infBits F) = .inf neg := by
  obtain ⟨hfrac, hex, hneg⟩ := fields_signBits_add neg (infBits_lt F)
  have hA : 0 < 2 ^ F.fracBits := Nat.two_pow_pos _
  simp only [unpack, hfrac, hex, hneg]
  simp [infBits, Nat.mul_div_cancel _ hA]

/-- A significand `r` with its least bit at `2 ^ t` units of the subnormals, packed, is worth what it was. A carry out
of the significand, `r = 2 ^ (fracBits + 1)`, is one in the exponent field. -/
theorem fvalRat_unpack_packed {t r : Nat} (neg : Bool) (hr : r ≤ 2 ^ (F.fracBits + 1)) (ht : t = 0 ∨ 2 ^ F.fracBits ≤ r)
    (hk : t * 2 ^ F.fracBits + r < infBits F) :
    fvalRat (unpack F (signBits F neg + (t * 2 ^ F.fracBits + r))) =
      some (signFactor neg * (r * 2 ^ (minExp F + t))) := by
  have hA : 0 < 2 ^ F.fracBits := Nat.two_pow_pos _
  rw [unpack_signBits_add neg hk]
  rw [pow_succ] at hr
  rcases lt_or_ge r (2 ^ F.fracBits) with hlt | hge
  · obtain rfl : t = 0 := ht.resolve_right (not_le.mpr hlt)
    simp [Nat.div_eq_of_lt hlt, Nat.mod_eq_of_lt hlt, fvalRat_fin, mul_assoc]
  · rcases lt_or_ge r (2 ^ F.fracBits * 2) with hlt | hge'
    · obtain ⟨f, rfl⟩ := Nat.exists_eq_add_of_le hge
      have hf : f < 2 ^ F.fracBits := by omega
      have hsplit : t * 2 ^ F.fracBits + (2 ^ F.fracBits + f) = f + 2 ^ F.fracBits * (t + 1) := by ring
      rw [hsplit, Nat.add_mul_div_left _ _ hA, Nat.add_mul_mod_self_left, Nat.div_eq_of_lt hf, Nat.mod_eq_of_lt hf,
        if_neg (by omega), fvalRat_fin, mul_assoc]
      congr 4
      · rw [Nat.add_comm]
      · push_cast
        ring
    · obtain rfl : r = 2 ^ F.fracBits * 2 := le_antisymm hr hge'
      have hsplit : t * 2 ^ F.fracBits + 2 ^ F.fracBits * 2 = 2 ^ F.fracBits * (t + 2) := by ring
      have hexp : minExp F + ((t + 2 : ℕ) : ℤ) - 1 = minExp F + t + 1 := by push_cast; ring
      rw [hsplit, Nat.mul_div_cancel_left _ hA, Nat.mul_mod_right, if_neg (by omega), fvalRat_fin, hexp,
        zpow_add_one₀ two_ne_zero]
      congr 1
      push_cast
      ring

theorem unpack_fin_bounds {w m : Nat} {neg : Bool} {e : Int} (h : unpack F w = .fin neg m e) :
    m < 2 ^ (F.fracBits + 1) ∧ minExp F ≤ e ∧ e < minExp F + 2 ^ F.expBits := by
  have hfrac := Nat.mod_lt w (Nat.two_pow_pos F.fracBits)
  have hex := Nat.mod_lt (w / 2 ^ F.fracBits) (Nat.two_pow_pos F.expBits)
  have hE : (2 : ℤ) ^ F.expBits = (2 ^ F.expBits : ℕ) := by push_cast; rfl
  rw [pow_succ, hE]
  simp only [unpack] at h
  generalize 2 ^ F.fracBits = A at *
  generalize 2 ^ F.expBits = B at *
  split at h
  · split at h <;> cases h
  · split at h <;> obtain ⟨-, rfl, rfl⟩ := FVal.fin.inj h <;> omega

/-- A finite value is a whole multiple of `2 ^ q`, or else is smaller than the significands of that unit. -/
theorem multiple_or_small {w : Nat} {v : ℚ} {q : Int} (hv : fvalRat (unpack F w) = some v) (hq : minExp F ≤ q) :
    (∃ z : ℤ, v = z * 2 ^ q) ∨ (minExp F < q ∧ |v| < 2 ^ F.fracBits * 2 ^ q) := by
  cases hw : unpack F w with
  | nan | inf => simp [hw, fvalRat] at hv
  | fin neg m e =>
    obtain ⟨hm, he, -⟩ := unpack_fin_bounds hw
    rw [hw, fvalRat_fin] at hv
    obtain rfl := Option.some.inj hv
    rcases le_or_gt q e with hqe | hqe
    · obtain ⟨k, rfl⟩ := Int.le.dest hqe
      refine .inl ⟨(if neg then -1 else 1) * m * 2 ^ k, ?_⟩
      rw [zpow_add₀ two_ne_zero, zpow_natCast, signFactor]
      split <;> push_cast <;> ring
    · refine .inr ⟨by omega, ?_⟩
      have hm' : (m : ℚ) < 2 ^ (F.fracBits + 1) := mod_cast hm
      rw [abs_mul, abs_mul, abs_signFactor, one_mul, Nat.abs_cast, abs_of_pos (by positivity : (0 : ℚ) < 2 ^ e)]
      calc (m : ℚ) * 2 ^ e < 2 ^ (F.fracBits + 1) * 2 ^ e := by gcongr
        _ = 2 ^ F.fracBits * 2 ^ (e + 1) := by rw [zpow_add_one₀ two_ne_zero]; ring
        _ ≤ 2 ^ F.fracBits * 2 ^ q := by gcongr <;> [norm_num; omega]

end

/-! ### The rounding of R81 in a format -/

/-- An interchange format (R80) with patterns of `n` bits. -/
structure Interchange (F : FloatFormat) (n : Nat) : Prop where
  expBits : 2 ≤ F.expBits
  fracBits : 1 ≤ F.fracBits
  width : n = F.expBits + F.fracBits + 1

theorem interchange_b64 : Interchange b64Format 64 := ⟨by decide, by decide, rfl⟩

theorem interchange_b32 : Interchange b32Format 32 := ⟨by decide, by decide, rfl⟩

section
variable {n : Nat}

/-- What the pattern `a` denotes in `F`. -/
def valueIn (F : FloatFormat) (a : BitVec n) : FVal := unpack F a.toNat

/-- The rational number the pattern `a` is in `F`. -/
def ratIn (F : FloatFormat) (a : BitVec n) : Option ℚ := fvalRat (valueIn F a)

/-- An exact value rounded to `F`. -/
def roundTo (F : FloatFormat) (nan : BitVec n) (v : FVal) : BitVec n := BitVec.ofNat n (deliver F nan.toNat v)

/-- The pattern of a sign and magnitude bits. -/
def signed (F : FloatFormat) (n : Nat) (neg : Bool) (k : Nat) : BitVec n := BitVec.ofNat n (signBits F neg + k)

/-- `NearestEven64` in any format. -/
def NearestEvenIn (F : FloatFormat) (q : ℚ) (r : BitVec n) : Prop :=
  ∃ v, ratIn F r = some v ∧ ∀ (x : BitVec n) (w : ℚ), ratIn F x = some w →
    |v - q| ≤ |w - q| ∧ (|v - q| = |w - q| → w ≠ v → r.getLsbD 0 = false)

/-- `Rounds64` in any format. -/
def RoundsIn (F : FloatFormat) (q : ℚ) (r : BitVec n) : Prop :=
  if overflowFrom F ≤ q then r = signed F n false (infBits F)
  else if q ≤ -overflowFrom F then r = signed F n true (infBits F)
  else NearestEvenIn F q r

variable {F : FloatFormat} {m : Nat} {e : Int} {x : ℚ}

theorem Interchange.two_pow (hF : Interchange F n) : 2 ^ n = 2 * signWeight F := by
  rw [hF.width, pow_succ', signWeight]

theorem Interchange.toNat_signed (hF : Interchange F n) (neg : Bool) {k : Nat} (hk : k ≤ infBits F) :
    (signed F n neg k).toNat = signBits F neg + k := by
  have hlt := infBits_lt F
  rw [signed, BitVec.toNat_ofNat, hF.two_pow, Nat.mod_eq_of_lt]
  cases neg <;> simp only [signBits, if_true, if_false, Bool.false_eq_true] <;> omega

theorem roundTo_fin (nan : BitVec n) (neg : Bool) (m : Nat) (e : Int) :
    roundTo F nan (.fin neg m e) = signed F n neg (roundMag F m e) := rfl

theorem roundTo_inf (nan : BitVec n) (neg : Bool) : roundTo F nan (.inf neg) = signed F n neg (infBits F) := rfl

theorem overflowFrom_pos (F : FloatFormat) : 0 < overflowFrom F := by
  have hA : (1 : ℚ) < 2 ^ (F.fracBits + 2) := one_lt_pow₀ one_lt_two (by omega)
  exact mul_pos (by linarith) (by positivity)

theorem Represents.nonneg (hx : Represents F m e x) : 0 ≤ x := by
  obtain ⟨y, rfl, hy⟩ := hx
  have hy : 0 ≤ y := by
    rcases hy with rfl | ⟨hodd, -, hlo, -⟩
    · positivity
    · have hm : (1 : ℚ) ≤ m := mod_cast (by omega : 1 ≤ m)
      linarith
  positivity

theorem Represents.eq_zero (hx : Represents F 0 e x) : x = 0 := by
  obtain ⟨y, rfl, rfl | ⟨hodd, -⟩⟩ := hx
  · simp
  · cases hodd

/-- Below the overflow threshold the pattern is worth the rounded significand in its unit. -/
theorem Represents.ratIn_signed (hF : Interchange F n) (hx : Represents F m e x) (hm : m ≠ 0)
    (hover : x < overflowFrom F) (neg : Bool) : ratIn F (signed F n neg (roundMag F m e)) =
      some (signFactor neg * (roundShift m (ulpExp F m e - e) * 2 ^ ulpExp F m e)) := by
  have hfin : roundBits F m e < infBits F :=
    not_le.mp ((hx.infBits_le_iff hm hF.expBits).not.mpr (not_le.mpr hover))
  obtain ⟨t, ht⟩ := Int.le.dest (minExp_le_ulpExp F m e)
  have htn : (ulpExp F m e - minExp F).toNat = t := by omega
  have hpacked : t = 0 ∨ 2 ^ F.fracBits ≤ roundShift m (ulpExp F m e - e) :=
    (Nat.eq_zero_or_pos t).imp_right fun hpos => hx.le_roundShift hm (by omega)
  rw [roundMag_eq_min hm, min_eq_left hfin.le, ratIn, valueIn, hF.toNat_signed neg hfin.le, roundBits, htn,
    fvalRat_unpack_packed neg (hx.roundShift_le hm) hpacked (htn ▸ hfin), ht]

theorem getLsbD_zero_signed (hF : Interchange F n) (neg : Bool) (t r : Nat) (hr : r % 2 = 0) :
    (signed F n neg (t * 2 ^ F.fracBits + r)).getLsbD 0 = false := by
  obtain ⟨j, hj⟩ : ∃ j, F.fracBits = j + 1 := ⟨F.fracBits - 1, by have := hF.fracBits; omega⟩
  have hs : signBits F neg % 2 = 0 := by
    cases neg <;> simp [signBits, signWeight, hj, pow_succ, ← add_assoc]
  have ht : t * 2 ^ F.fracBits % 2 = 0 := by simp [hj, pow_succ, ← mul_assoc]
  rw [signed, BitVec.getLsbD_ofNat, Nat.testBit_zero]
  have heven : (signBits F neg + (t * 2 ^ F.fracBits + r)) % 2 = 0 := by omega
  simp [heven]

theorem ratIn_signed_zero (hF : Interchange F n) (neg : Bool) : ratIn F (signed F n neg 0) = some 0 := by
  have hpos : 0 < infBits F :=
    Nat.mul_pos (Nat.sub_pos_of_lt (Nat.one_lt_two_pow (by have := hF.expBits; omega))) (Nat.two_pow_pos _)
  have hzero := fvalRat_unpack_packed (F := F) (t := 0) (r := 0) neg (Nat.zero_le _) (.inl rfl) (by simpa using hpos)
  simpa [ratIn, valueIn, hF.toNat_signed neg hpos.le] using hzero

/-- A number in units of `2 ^ q`, less its sign. -/
def inUnits (neg : Bool) (q : Int) (a : ℚ) : ℚ := signFactor neg * a * 2 ^ (-q)

theorem inUnits_of_eq (neg : Bool) (q : Int) (r : ℚ) : inUnits neg q (signFactor neg * (r * 2 ^ q)) = r := by
  have hcancel : (2 : ℚ) ^ q * 2 ^ (-q) = 1 := by rw [← zpow_add₀ two_ne_zero, add_neg_cancel, zpow_zero]
  calc inUnits neg q (signFactor neg * (r * 2 ^ q))
      = signFactor neg * signFactor neg * r * (2 ^ q * 2 ^ (-q)) := by rw [inUnits]; ring
    _ = r := by rw [signFactor_mul_self, hcancel, one_mul, mul_one]

theorem eq_of_inUnits (neg : Bool) (q : Int) (a : ℚ) : a = signFactor neg * (inUnits neg q a * 2 ^ q) := by
  have hcancel : (2 : ℚ) ^ (-q) * 2 ^ q = 1 := by rw [← zpow_add₀ two_ne_zero, neg_add_cancel, zpow_zero]
  calc a = signFactor neg * signFactor neg * a * (2 ^ (-q) * 2 ^ q) := by
        rw [signFactor_mul_self, hcancel, one_mul, mul_one]
    _ = _ := by rw [inUnits]; ring

theorem abs_sub_eq_inUnits (neg : Bool) (q : Int) (a b : ℚ) :
    |a - b| = |inUnits neg q a - inUnits neg q b| * 2 ^ q := by
  calc |a - b|
      = |signFactor neg * (inUnits neg q a * 2 ^ q) - signFactor neg * (inUnits neg q b * 2 ^ q)| := by
        rw [← eq_of_inUnits, ← eq_of_inUnits]
    _ = |signFactor neg| * |(inUnits neg q a - inUnits neg q b) * 2 ^ q| := by
        rw [← abs_mul]
        ring_nf
    _ = _ := by rw [abs_signFactor, one_mul, abs_mul, abs_of_pos (by positivity : (0 : ℚ) < 2 ^ q)]

/-- `multiple_or_small` in units. -/
theorem inUnits_integer_or_small {w : Nat} {v : ℚ} {q : Int} (neg : Bool) (hv : fvalRat (unpack F w) = some v)
    (hq : minExp F ≤ q) : (∃ z : ℤ, inUnits neg q v = z) ∨ (minExp F < q ∧ inUnits neg q v < 2 ^ F.fracBits) := by
  rcases multiple_or_small hv hq with ⟨z, rfl⟩ | ⟨hlt, hsmall⟩
  · have hz : (z : ℚ) * 2 ^ q = signFactor neg * ((signFactor neg * z) * 2 ^ q) := by
      linear_combination (-z * 2 ^ q : ℚ) * signFactor_mul_self neg
    refine .inl ⟨(if neg then -1 else 1) * z, ?_⟩
    rw [hz, inUnits_of_eq, signFactor]
    push_cast
    rfl
  · refine .inr ⟨hlt, ?_⟩
    rw [← sub_zero v, abs_sub_eq_inUnits neg q] at hsmall
    have hzero : inUnits neg q 0 = 0 := by simp [inUnits]
    rw [hzero, sub_zero] at hsmall
    exact (le_abs_self _).trans_lt (lt_of_mul_lt_mul_right hsmall (by positivity))

theorem Represents.nearestEven (hF : Interchange F n) (hx : Represents F m e x) (hover : x < overflowFrom F)
    (neg : Bool) : NearestEvenIn F (signFactor neg * x) (signed F n neg (roundMag F m e)) := by
  rcases eq_or_ne m 0 with rfl | hm
  · rw [hx.eq_zero, mul_zero, roundMag, if_pos rfl]
    refine ⟨0, ratIn_signed_zero hF neg, fun _ w _ => ⟨by simp, fun htie hne => ?_⟩⟩
    exact absurd (by simpa using htie.symm) hne
  · refine ⟨_, hx.ratIn_signed hF hm hover neg, fun a w hw => ?_⟩
    have hfin : roundBits F m e < infBits F :=
      not_le.mp ((hx.infBits_le_iff hm hF.expBits).not.mpr (not_le.mpr hover))
    have hpos : (0 : ℚ) < 2 ^ ulpExp F m e := by positivity
    have hy : inUnits neg (ulpExp F m e) (signFactor neg * x) = x * 2 ^ (-ulpExp F m e) := by
      rw [inUnits, ← mul_assoc, signFactor_mul_self, one_mul]
    have hu : (∃ z : ℤ, inUnits neg (ulpExp F m e) w = z) ∨
        ∃ z : ℤ, inUnits neg (ulpExp F m e) w < z ∧ (z : ℚ) ≤ x * 2 ^ (-ulpExp F m e) := by
      refine (inUnits_integer_or_small neg hw (minExp_le_ulpExp F m e)).imp_right fun ⟨hq, hsmall⟩ => ?_
      exact ⟨2 ^ F.fracBits, mod_cast hsmall, mod_cast hx.two_pow_le hm hq⟩
    obtain ⟨hle, heven⟩ := hx.nearestInt.nearest hu
    rw [abs_sub_eq_inUnits neg (ulpExp F m e), abs_sub_eq_inUnits neg (ulpExp F m e) w, inUnits_of_eq, hy]
    refine ⟨mul_le_mul_of_nonneg_right hle hpos.le, fun htie hne => ?_⟩
    rw [roundMag_eq_min hm, min_eq_left hfin.le]
    refine getLsbD_zero_signed hF neg _ _ (heven (mul_right_cancel₀ hpos.ne' htie) fun h => hne ?_)
    rw [eq_of_inUnits neg (ulpExp F m e) w, h]

/-- R81: what rounding `m * 2 ^ e` gives is the rounding of every number it stands for. -/
theorem Represents.roundsIn (hF : Interchange F n) (hx : Represents F m e x) (nan : BitVec n) (neg : Bool) :
    RoundsIn F (signFactor neg * x) (roundTo F nan (.fin neg m e)) := by
  have hpos := overflowFrom_pos F
  have hx0 := hx.nonneg
  rw [roundTo_fin]
  rcases lt_or_ge x (overflowFrom F) with hover | hover
  · obtain ⟨habove, hbelow⟩ : ¬overflowFrom F ≤ signFactor neg * x ∧ ¬signFactor neg * x ≤ -overflowFrom F := by
      cases neg <;> simp only [signFactor, if_true, if_false, Bool.false_eq_true] <;> constructor <;> linarith
    rw [RoundsIn, if_neg habove, if_neg hbelow]
    exact hx.nearestEven hF hover neg
  · have hm : m ≠ 0 := by
      rintro rfl
      linarith [hx.eq_zero]
    rw [roundMag_eq_min hm, min_eq_right ((hx.infBits_le_iff hm hF.expBits).mpr hover), RoundsIn]
    cases neg with
    | false =>
      have hpos : signFactor false * x = x := by simp [signFactor]
      rw [hpos, if_pos hover]
    | true =>
      have hneg : signFactor true * x = -x := by simp [signFactor]
      rw [hneg, if_neg (by linarith), if_pos (by linarith)]

end

end Sys2Proof.Machine
end
section
/-! PROOFS. The exact operations before the rounding (R81, R84): on finite operands they are those of the rational
numbers; the quotient, cut short, stands for the exact one. -/

namespace Sys2Proof.Machine

/-! ### Exact operations on finite values -/

theorem fvalRat_eq_some {v : FVal} {q : ℚ} (h : fvalRat v = some q) :
    ∃ neg m e, v = .fin neg m e ∧ q = signFactor neg * m * 2 ^ e := by
  cases v with
  | nan => cases h
  | inf neg => cases h
  | fin neg m e => exact ⟨neg, m, e, rfl, (Option.some.inj h).symm⟩

theorem signFactor_not (neg : Bool) : signFactor (!neg) = -signFactor neg := by
  cases neg <;> simp [signFactor]

theorem signFactor_bne (a b : Bool) : signFactor (a != b) = signFactor a * signFactor b := by
  cases a <;> cases b <;> simp [signFactor]

theorem signFactor_ne_zero (neg : Bool) : signFactor neg ≠ 0 := by
  cases neg <;> simp [signFactor]

theorem scaled_mul {e e0 : Int} (neg : Bool) (m : Nat) (h : e0 ≤ e) :
    (scaled neg m e e0 : ℚ) * 2 ^ e0 = signFactor neg * m * 2 ^ e := by
  obtain ⟨k, rfl⟩ := Int.le.dest h
  have hk : (e0 + k - e0).toNat = k := by omega
  rw [zpow_add₀ two_ne_zero, zpow_natCast, scaled, hk, signFactor]
  split <;> push_cast <;> ring

theorem signFactor_mul_natAbs (v : Int) : signFactor (decide (v < 0)) * (v.natAbs : ℚ) = v := by
  rcases lt_or_ge v 0 with hv | hv
  · rw [decide_eq_true hv, signFactor, if_pos rfl, Nat.cast_natAbs, abs_of_neg hv]
    push_cast
    ring
  · rw [decide_eq_false (not_lt.mpr hv), signFactor, if_neg (by decide), Nat.cast_natAbs, abs_of_nonneg hv, one_mul]

section
variable {v w : FVal} {p q : ℚ}

theorem fvalRat_fvalNeg (hv : fvalRat v = some p) : fvalRat (fvalNeg v) = some (-p) := by
  obtain ⟨neg, m, e, rfl, rfl⟩ := fvalRat_eq_some hv
  rw [fvalNeg, fvalRat_fin, signFactor_not, neg_mul, neg_mul]

theorem scaled_add_eq (a b : Bool) (m n : Nat) (e g : Int) :
    ((scaled a m e (min e g) + scaled b n g (min e g) : ℤ) : ℚ) * 2 ^ min e g =
      signFactor a * m * 2 ^ e + signFactor b * n * 2 ^ g := by
  rw [Int.cast_add, add_mul, scaled_mul a m (min_le_left e g), scaled_mul b n (min_le_right e g)]

theorem fvalRat_fvalAdd (hv : fvalRat v = some p) (hw : fvalRat w = some q) : fvalRat (fvalAdd v w) = some (p + q) := by
  obtain ⟨a, m, e, rfl, rfl⟩ := fvalRat_eq_some hv
  obtain ⟨b, n, g, rfl, rfl⟩ := fvalRat_eq_some hw
  rw [← scaled_add_eq, fvalAdd]
  split
  · next hzero => simp [hzero, fvalRat_fin]
  · rw [fvalRat_fin, signFactor_mul_natAbs]

/-- A sum that is zero carries a minus sign only where both terms do. -/
theorem fvalAdd_of_add_eq_zero {a b : Bool} {m n : Nat} {e g : Int}
    (h : signFactor a * m * 2 ^ e + signFactor b * n * 2 ^ g = 0) :
    fvalAdd (.fin a m e) (.fin b n g) = .fin (a && b) 0 (min e g) := by
  rw [← scaled_add_eq] at h
  have hpos : (2 : ℚ) ^ min e g ≠ 0 := by positivity
  exact if_pos (Int.cast_eq_zero.mp ((mul_eq_zero.mp h).resolve_right hpos))

theorem fvalRat_fvalMul (hv : fvalRat v = some p) (hw : fvalRat w = some q) : fvalRat (fvalMul v w) = some (p * q) := by
  obtain ⟨a, m, e, rfl, rfl⟩ := fvalRat_eq_some hv
  obtain ⟨b, n, g, rfl, rfl⟩ := fvalRat_eq_some hw
  rw [fvalMul, fvalRat_fin, signFactor_bne, zpow_add₀ two_ne_zero]
  push_cast
  ring_nf

end

/-! ### The quotient -/

section
variable {F : FloatFormat} {m n : Nat}

/-- The shifted dividend has at least 65 bits more than the divisor. -/
theorem two_pow_mul_le_shifted (n : Nat) (hm : m ≠ 0) : 2 ^ 65 * n ≤ m * 2 ^ divShift m n := by
  have hmlo : 2 ^ m.log2 ≤ m := Nat.log2_self_le hm
  have hnhi : n ≤ 2 ^ (n.log2 + 1) := Nat.lt_log2_self.le
  calc 2 ^ 65 * n ≤ 2 ^ 65 * 2 ^ (n.log2 + 1) := Nat.mul_le_mul_left _ hnhi
    _ = 2 ^ (66 + n.log2) := by rw [← pow_add]; congr 1; omega
    _ ≤ 2 ^ (m.log2 + divShift m n) := Nat.pow_le_pow_right two_pos (by rw [divShift]; omega)
    _ = 2 ^ m.log2 * 2 ^ divShift m n := pow_add ..
    _ ≤ m * 2 ^ divShift m n := Nat.mul_le_mul_right _ hmlo

/-- A quotient cut after its integer part, the last bit recording an inexact tail, stands for the exact one. -/
theorem standsFor_quotient {d : Int} (hn : n ≠ 0) (hd : m ≠ 0 → 2 ≤ d) :
    StandsFor (2 * (m / n) + if m % n = 0 then 0 else 1) (2 * (m / n : ℚ)) d := by
  have hpos : (0 : ℚ) < n := mod_cast Nat.pos_of_ne_zero hn
  have hsplit : (m / n : ℚ) = (m / n : ℕ) + (m % n : ℕ) / n := by
    rw [div_eq_iff hpos.ne', add_mul, div_mul_cancel₀ _ hpos.ne']
    exact mod_cast (Nat.div_add_mod' m n).symm
  split
  · next hexact =>
    left
    rw [hsplit, hexact]
    simp
  · next hinexact =>
    have hm : m ≠ 0 := by
      rintro rfl
      exact hinexact (Nat.zero_mod n)
    have htail : (0 : ℚ) < (m % n : ℕ) / n := div_pos (mod_cast Nat.pos_of_ne_zero hinexact) hpos
    have htail' : ((m % n : ℕ) / n : ℚ) < 1 := (div_lt_one hpos).mpr (mod_cast Nat.mod_lt m (Nat.pos_of_ne_zero hn))
    rw [hsplit]
    refine .inr ⟨by omega, hd hm, ?_, ?_⟩ <;> push_cast <;> linarith

theorem represents_quotient {e g : Int} (hF : F.fracBits ≤ 60) (hn : n ≠ 0) :
    Represents F (2 * (m * 2 ^ divShift m n / n) + if m * 2 ^ divShift m n % n = 0 then 0 else 1)
      (e - g - divShift m n - 1) (m * 2 ^ e / (n * 2 ^ g)) := by
  refine ⟨2 * ((m * 2 ^ divShift m n : ℕ) / n), ?_, standsFor_quotient hn fun hM => ?_⟩
  · have hsplit : e = (e - g - divShift m n - 1) + g + divShift m n + 1 := by ring
    have hpow : (2 : ℚ) ^ e = 2 ^ (e - g - divShift m n - 1) * 2 ^ g * 2 ^ divShift m n * 2 := by
      conv_lhs => rw [hsplit]
      rw [zpow_add_one₀ two_ne_zero, zpow_add₀ two_ne_zero, zpow_add₀ two_ne_zero, zpow_natCast]
    rw [hpow]
    push_cast
    field_simp
  · have hm : m ≠ 0 := fun h => hM (by rw [h, Nat.zero_mul])
    have hquot : 2 ^ 65 ≤ m * 2 ^ divShift m n / n :=
      (Nat.le_div_iff_mul_le (Nat.pos_of_ne_zero hn)).mpr (two_pow_mul_le_shifted n hm)
    have hlog : 66 ≤ (2 * (m * 2 ^ divShift m n / n) + if m * 2 ^ divShift m n % n = 0 then 0 else 1).log2 := by
      rw [Nat.le_log2 (by omega)]
      omega
    omega

/-- A quotient by a number other than zero, and its sign. -/
theorem fvalDiv_fin {a b : Bool} {e g : Int} (hF : F.fracBits ≤ 60) (hn : n ≠ 0) :
    ∃ k t x, fvalDiv (.fin a m e) (.fin b n g) = .fin (a != b) k t ∧ Represents F k t x ∧
      signFactor a * m * 2 ^ e / (signFactor b * n * 2 ^ g) = signFactor (a != b) * x := by
  refine ⟨_, _, _, if_neg hn, represents_quotient hF hn, ?_⟩
  have hb := signFactor_ne_zero b
  rw [signFactor_bne]
  field_simp
  rw [sq, signFactor_mul_self, mul_one]

end

end Sys2Proof.Machine
end
section
/-! PROOFS. The operations of R81 on patterns of any format: rounding, signs of zeros, infinities, NaNs. -/

namespace Sys2Proof.Machine

/-! ### A pattern by its sign and its magnitude bits -/

section
variable {F : FloatFormat} {n : Nat}

theorem Interchange.msb_eq (hF : Interchange F n) (a : BitVec n) : a.msb = (a.toNat / signWeight F % 2 == 1) := by
  have hlt : a.toNat < 2 * signWeight F := hF.two_pow ▸ a.isLt
  have hw : 2 ^ (n - 1) = signWeight F := by rw [hF.width, Nat.add_sub_cancel, signWeight]
  have hpos : 0 < signWeight F := Nat.two_pow_pos _
  rw [BitVec.msb_eq_decide, hw]
  rcases lt_or_ge a.toNat (signWeight F) with h | h
  · simp [Nat.div_eq_of_lt h, h]
  · have hdiv : a.toNat / signWeight F = 1 := Nat.div_eq_of_lt_le (by omega) (by omega)
    simp [hdiv, h]

theorem Interchange.toNat_eq (hF : Interchange F n) (a : BitVec n) :
    a.toNat = signBits F a.msb + a.toNat % signWeight F := by
  have hlt : a.toNat < 2 * signWeight F := hF.two_pow ▸ a.isLt
  have hsplit := Nat.div_add_mod' a.toNat (signWeight F)
  have hsign : a.toNat / signWeight F ≤ 1 := Nat.lt_succ_iff.mp (Nat.div_lt_of_lt_mul (by omega))
  rw [hF.msb_eq, signBits]
  obtain hzero | hone := Nat.le_one_iff_eq_zero_or_eq_one.mp hsign
  · rw [hzero] at hsplit ⊢
    simpa using hsplit.symm
  · rw [hone] at hsplit ⊢
    simpa using hsplit.symm

theorem Interchange.ext (hF : Interchange F n) {a b : BitVec n} (hmsb : a.msb = b.msb)
    (hlow : a.toNat % signWeight F = b.toNat % signWeight F) : a = b := by
  apply BitVec.eq_of_toNat_eq
  rw [hF.toNat_eq a, hF.toNat_eq b, hmsb, hlow]

theorem Interchange.toNat_signed_mod (hF : Interchange F n) (neg : Bool) {k : Nat} (hk : k ≤ infBits F) :
    (signed F n neg k).toNat % signWeight F = k := by
  rw [hF.toNat_signed neg hk]
  cases neg <;> simp [signBits, Nat.mod_eq_of_lt (hk.trans_lt (infBits_lt F))]

theorem Interchange.msb_of_fin (hF : Interchange F n) {a : BitVec n} {neg : Bool} {m : Nat} {e : Int}
    (h : valueIn F a = .fin neg m e) : a.msb = neg := by
  rw [hF.msb_eq]
  simp only [valueIn, unpack] at h
  split at h
  · split at h <;> cases h
  · split at h <;> exact (FVal.fin.inj h).1

theorem Interchange.valueIn_inf (hF : Interchange F n) (neg : Bool) :
    valueIn F (signed F n neg (infBits F)) = .inf neg := by
  rw [valueIn, hF.toNat_signed neg le_rfl, unpack_signBits_add_infBits]

theorem Interchange.msb_signed (hF : Interchange F n) (neg : Bool) {k : Nat} (hk : k ≤ infBits F) :
    (signed F n neg k).msb = neg := by
  rw [hF.msb_eq, hF.toNat_signed neg hk]
  exact (fields_signBits_add neg (hk.trans_lt (infBits_lt F))).2.2

/-- The only patterns of an infinity. -/
theorem Interchange.eq_signed_of_inf (hF : Interchange F n) {a : BitVec n} {neg : Bool} (h : valueIn F a = .inf neg) :
    a = signed F n neg (infBits F) := by
  obtain ⟨hfrac, hex, hneg⟩ := fields_signBits_add (F := F) (k := a.toNat % signWeight F) a.msb
    (Nat.mod_lt _ (Nat.two_pow_pos _))
  rw [← hF.toNat_eq a] at hfrac hex hneg
  simp only [valueIn, unpack, hfrac, hex, hneg] at h
  split at h
  · next hexp =>
    split at h
    · next hzero =>
      refine hF.ext ?_ ?_
      · rw [hF.msb_signed neg le_rfl, FVal.inf.inj h]
      · rw [hF.toNat_signed_mod neg le_rfl, infBits, ← hexp, Nat.div_mul_cancel (Nat.dvd_of_mod_eq_zero hzero)]
    · cases h
  · split at h <;> cases h

theorem Interchange.msb_of_inf (hF : Interchange F n) {a : BitVec n} {neg : Bool} (h : valueIn F a = .inf neg) :
    a.msb = neg := by
  rw [hF.eq_signed_of_inf h, hF.msb_signed neg le_rfl]

/-! ### Operations on finite operands -/

section
variable {a b nan : BitVec n} {p q : ℚ} {v : FVal}

theorem Interchange.roundsIn (hF : Interchange F n) (hv : fvalRat v = some p) : RoundsIn F p (roundTo F nan v) := by
  obtain ⟨neg, m, e, rfl, rfl⟩ := fvalRat_eq_some hv
  rw [mul_assoc]
  exact (represents_self F m e).roundsIn hF nan neg

theorem ratIn_eq_some (h : ratIn F a = some p) :
    ∃ neg m e, valueIn F a = .fin neg m e ∧ p = signFactor neg * m * 2 ^ e :=
  fvalRat_eq_some h

/-- R81: a sum that is zero. -/
theorem Interchange.zero_sum (hF : Interchange F n) (ha : ratIn F a = some p) (hb : ratIn F b = some q)
    (h : p + q = 0) :
    roundTo F nan (fvalAdd (valueIn F a) (valueIn F b)) = signed F n (a.msb && b.msb) 0 := by
  obtain ⟨na, m, e, hav, rfl⟩ := ratIn_eq_some ha
  obtain ⟨nb, k, g, hbv, rfl⟩ := ratIn_eq_some hb
  rw [hF.msb_of_fin hav, hF.msb_of_fin hbv, hav, hbv, fvalAdd_of_add_eq_zero h, roundTo_fin, roundMag, if_pos rfl]

theorem Interchange.zero_difference (hF : Interchange F n) (ha : ratIn F a = some p) (hb : ratIn F b = some q)
    (h : p - q = 0) :
    roundTo F nan (fvalAdd (valueIn F a) (fvalNeg (valueIn F b))) = signed F n (a.msb && !b.msb) 0 := by
  obtain ⟨na, m, e, hav, rfl⟩ := ratIn_eq_some ha
  obtain ⟨nb, k, g, hbv, rfl⟩ := ratIn_eq_some hb
  have h : signFactor na * m * 2 ^ e + signFactor (!nb) * k * 2 ^ g = 0 := by
    rw [← h, signFactor_not]
    ring
  rw [hF.msb_of_fin hav, hF.msb_of_fin hbv, hav, hbv, fvalNeg, fvalAdd_of_add_eq_zero h, roundTo_fin,
    roundMag, if_pos rfl]

theorem Interchange.msb_product (hF : Interchange F n) (ha : ratIn F a = some p) (hb : ratIn F b = some q) :
    (roundTo F nan (fvalMul (valueIn F a) (valueIn F b))).msb = (a.msb ^^ b.msb) := by
  obtain ⟨na, m, e, hav, rfl⟩ := ratIn_eq_some ha
  obtain ⟨nb, k, g, hbv, rfl⟩ := ratIn_eq_some hb
  rw [hF.msb_of_fin hav, hF.msb_of_fin hbv, hav, hbv, fvalMul, roundTo_fin, hF.msb_signed _ (roundMag_le ..)]

/-- R81: sums, differences and products of finite operands. -/
theorem Interchange.finite_operands (hF : Interchange F n) (nan a b : BitVec n) (p q : ℚ) (ha : ratIn F a = some p)
    (hb : ratIn F b = some q) :
    RoundsIn F (p + q) (roundTo F nan (fvalAdd (valueIn F a) (valueIn F b))) ∧
    RoundsIn F (p - q) (roundTo F nan (fvalAdd (valueIn F a) (fvalNeg (valueIn F b)))) ∧
    RoundsIn F (p * q) (roundTo F nan (fvalMul (valueIn F a) (valueIn F b))) ∧
    (p + q = 0 → roundTo F nan (fvalAdd (valueIn F a) (valueIn F b)) = signed F n (a.msb && b.msb) 0) ∧
    (p - q = 0 →
      roundTo F nan (fvalAdd (valueIn F a) (fvalNeg (valueIn F b))) = signed F n (a.msb && !b.msb) 0) ∧
    (roundTo F nan (fvalMul (valueIn F a) (valueIn F b))).msb = (a.msb ^^ b.msb) :=
  ⟨hF.roundsIn (fvalRat_fvalAdd ha hb), hF.roundsIn (sub_eq_add_neg p q ▸ fvalRat_fvalAdd ha (fvalRat_fvalNeg hb)),
    hF.roundsIn (fvalRat_fvalMul ha hb), hF.zero_sum ha hb, hF.zero_difference ha hb, hF.msb_product ha hb⟩

/-- R81: a quotient of finite operands, the divisor not zero. -/
theorem Interchange.quotient (hF : Interchange F n) (hfrac : F.fracBits ≤ 60) (nan : BitVec n) (ha : ratIn F a = some p)
    (hb : ratIn F b = some q) (hq : q ≠ 0) : RoundsIn F (p / q) (roundTo F nan (fvalDiv (valueIn F a) (valueIn F b))) ∧
      (roundTo F nan (fvalDiv (valueIn F a) (valueIn F b))).msb = (a.msb ^^ b.msb) := by
  obtain ⟨na, m, e, hav, rfl⟩ := ratIn_eq_some ha
  obtain ⟨nb, k, g, hbv, rfl⟩ := ratIn_eq_some hb
  have hk : k ≠ 0 := by
    rintro rfl
    exact hq (by simp)
  obtain ⟨j, t, x, hdiv, hx, hquot⟩ := fvalDiv_fin (a := na) (m := m) (e := e) (b := nb) (g := g) hfrac hk
  rw [hF.msb_of_fin hav, hF.msb_of_fin hbv, hav, hbv, hdiv, hquot]
  exact ⟨hx.roundsIn hF nan _, hF.msb_signed _ (roundMag_le ..)⟩

/-- R81: division by zero. -/
theorem Interchange.quotient_by_zero (hF : Interchange F n) (nan : BitVec n) (ha : ratIn F a = some p)
    (hb : ratIn F b = some 0) (hp : p ≠ 0) :
    roundTo F nan (fvalDiv (valueIn F a) (valueIn F b)) = signed F n (a.msb ^^ b.msb) (infBits F) := by
  obtain ⟨na, m, e, hav, rfl⟩ := ratIn_eq_some ha
  obtain ⟨nb, k, g, hbv, hzero⟩ := ratIn_eq_some hb
  have hm : m ≠ 0 := by
    rintro rfl
    exact hp (by simp)
  have hg : (2 : ℚ) ^ g ≠ 0 := by positivity
  have hk : k = 0 := by simpa [signFactor_ne_zero, hg] using hzero
  rw [hF.msb_of_fin hav, hF.msb_of_fin hbv, hav, hbv]
  simp only [fvalDiv, if_pos hk, if_neg hm, roundTo_inf]

/-- R81: a quotient with one infinite operand. -/
theorem Interchange.quotient_inf (hF : Interchange F n) (nan : BitVec n) (ha : ratIn F a = some p) (s : Bool) :
    roundTo F nan (fvalDiv (.inf s) (valueIn F a)) = signed F n (s ^^ a.msb) (infBits F) ∧
    roundTo F nan (fvalDiv (valueIn F a) (.inf s)) = signed F n (a.msb ^^ s) 0 := by
  obtain ⟨na, m, e, hav, rfl⟩ := ratIn_eq_some ha
  rw [hF.msb_of_fin hav, hav]
  exact ⟨rfl, by rw [fvalDiv, roundTo_fin, roundMag, if_pos rfl]⟩

end

/-! ### Conversion from a format to another -/

/-- R86, R87: a conversion keeps the sign. -/
theorem Interchange.msb_convert (hF : Interchange F n) {G : FloatFormat} {k : Nat} (hG : Interchange G k)
    (nan : BitVec k) {a : BitVec n} (ha : valueIn F a ≠ .nan) : (roundTo G nan (valueIn F a)).msb = a.msb := by
  cases hv : valueIn F a with
  | nan => exact absurd hv ha
  | inf s => rw [hF.msb_of_inf hv, roundTo_inf, hG.msb_signed s le_rfl]
  | fin s m e => rw [hF.msb_of_fin hv, roundTo_fin, hG.msb_signed s (roundMag_le ..)]

/-- R86, R87: a conversion keeps the infinities. -/
theorem Interchange.convert_inf (hF : Interchange F n) {G : FloatFormat} {k : Nat} (nan : BitVec k) (s : Bool) :
    roundTo G nan (valueIn F (signed F n s (infBits F))) = signed G k s (infBits G) := by
  rw [hF.valueIn_inf, roundTo_inf]

/-! ### Infinite operands -/

section
variable {v : FVal} {s : Bool}

theorem inf_fvalAdd (hv : v ≠ .nan) (hs : v ≠ .inf (!s)) : fvalAdd (.inf s) v = .inf s := by
  cases v with
  | nan => exact absurd rfl hv
  | inf t =>
    have hst : s = t := by
      by_contra hne
      exact hs (congrArg FVal.inf (Bool.eq_not.mpr (Ne.symm hne)))
    exact if_pos hst
  | fin t m e => rfl

theorem fvalAdd_inf (hv : v ≠ .nan) (hs : v ≠ .inf (!s)) : fvalAdd v (.inf s) = .inf s := by
  cases v with
  | nan => exact absurd rfl hv
  | inf t =>
    have hst : t = s := by
      by_contra hne
      exact hs (congrArg FVal.inf (Bool.eq_not.mpr hne))
    exact (if_pos hst).trans (congrArg FVal.inf hst)
  | fin t m e => rfl

theorem fvalNeg_inf (s : Bool) : fvalNeg (.inf s) = .inf (!s) := rfl

theorem fvalNeg_ne_nan (hv : v ≠ .nan) : fvalNeg v ≠ .nan := by
  cases v with
  | nan => exact absurd rfl hv
  | inf t => nofun
  | fin t m e => nofun

theorem fvalNeg_eq_inf_not_iff : fvalNeg v = .inf (!s) ↔ v = .inf s := by
  cases v <;> simp [fvalNeg]

/-- An infinity times what is neither a NaN nor a zero, on either side. -/
theorem Interchange.product_inf (hF : Interchange F n) {b : BitVec n} (hb : valueIn F b ≠ .nan)
    (hzero : ratIn F b ≠ some 0) (s : Bool) :
    fvalMul (.inf s) (valueIn F b) = .inf (s ^^ b.msb) ∧ fvalMul (valueIn F b) (.inf s) = .inf (s ^^ b.msb) := by
  cases hv : valueIn F b with
  | nan => exact absurd hv hb
  | inf t =>
    rw [hF.msb_of_inf hv]
    exact ⟨rfl, congrArg FVal.inf (Bool.xor_comm t s)⟩
  | fin t m e =>
    have hm : m ≠ 0 := by
      rintro rfl
      exact hzero (by simp [ratIn, hv, fvalRat_fin])
    rw [hF.msb_of_fin hv]
    exact ⟨if_neg hm, (if_neg hm).trans (congrArg FVal.inf (Bool.xor_comm t s))⟩

/-- R81: an infinite operand beside one that is no NaN, in the sums, differences and products that are not invalid. -/
theorem Interchange.infinite_operand (hF : Interchange F n) (nan b : BitVec n) (s : Bool) (hb : valueIn F b ≠ .nan) :
    (b ≠ signed F n (!s) (infBits F) →
      roundTo F nan (fvalAdd (valueIn F (signed F n s (infBits F))) (valueIn F b)) = signed F n s (infBits F) ∧
      roundTo F nan (fvalAdd (valueIn F b) (valueIn F (signed F n s (infBits F)))) = signed F n s (infBits F) ∧
      roundTo F nan (fvalAdd (valueIn F b) (fvalNeg (valueIn F (signed F n (!s) (infBits F))))) =
        signed F n s (infBits F)) ∧
    (b ≠ signed F n s (infBits F) →
      roundTo F nan (fvalAdd (valueIn F (signed F n s (infBits F))) (fvalNeg (valueIn F b))) =
        signed F n s (infBits F)) ∧
    (ratIn F b ≠ some 0 →
      roundTo F nan (fvalMul (valueIn F (signed F n s (infBits F))) (valueIn F b)) =
        signed F n (s ^^ b.msb) (infBits F) ∧
      roundTo F nan (fvalMul (valueIn F b) (valueIn F (signed F n s (infBits F)))) =
        signed F n (s ^^ b.msb) (infBits F)) := by
  have hne {t : Bool} (h : b ≠ signed F n t (infBits F)) : valueIn F b ≠ .inf t := fun hv => h (hF.eq_signed_of_inf hv)
  simp only [hF.valueIn_inf]
  refine ⟨fun h => ⟨?_, ?_, ?_⟩, fun h => ?_, fun h => ?_⟩
  · rw [inf_fvalAdd hb (hne h), roundTo_inf]
  · rw [fvalAdd_inf hb (hne h), roundTo_inf]
  · rw [fvalNeg_inf, Bool.not_not, fvalAdd_inf hb (hne h), roundTo_inf]
  · rw [inf_fvalAdd (fvalNeg_ne_nan hb) (fvalNeg_eq_inf_not_iff.not.mpr (hne h)), roundTo_inf]
  · obtain ⟨hleft, hright⟩ := hF.product_inf hb h s
    exact ⟨by rw [hleft, roundTo_inf], by rw [hright, roundTo_inf]⟩

end

end

/-! ### The statements on `b64` and `b32` -/

theorem infinity64_eq (s : Bool) : infinity64 s = signed b64Format 64 s (infBits b64Format) := by
  cases s <;> rfl

theorem infinity32_eq (s : Bool) : infinity32 s = signed b32Format 32 s (infBits b32Format) := by
  cases s <;> rfl

theorem signedZero64_eq (s : Bool) : signedZero64 s = signed b64Format 64 s 0 := by
  cases s <;> rfl

theorem signedZero32_eq (s : Bool) : signedZero32 s = signed b32Format 32 s 0 := by
  cases s <;> rfl

theorem rounds64_eq (q : ℚ) (r : B64) : Rounds64 q r = RoundsIn b64Format q r := by
  have hthreshold : overflowFrom b64Format = 2 ^ 1024 - 2 ^ 970 := by
    have hexp : minExp b64Format + 2 ^ b64Format.expBits - 4 = (970 : ℕ) := by decide
    rw [overflowFrom, hexp, zpow_natCast, sub_mul, one_mul, ← pow_add]
    rfl
  rw [RoundsIn, hthreshold, ← infinity64_eq, ← infinity64_eq]
  rfl

theorem rounds32_eq (q : ℚ) (r : B32) : Rounds32 q r = RoundsIn b32Format q r := by
  have hthreshold : overflowFrom b32Format = 2 ^ 128 - 2 ^ 103 := by
    have hexp : minExp b32Format + 2 ^ b32Format.expBits - 4 = (103 : ℕ) := by decide
    rw [overflowFrom, hexp, zpow_natCast, sub_mul, one_mul, ← pow_add]
    rfl
  rw [RoundsIn, hthreshold, ← infinity32_eq, ← infinity32_eq]
  rfl

/-- Settles O45: the finite operands and the infinite ones, in the format `b64`. -/
theorem doubleArithmeticRoundsToNearestEven : Obligations.DoubleArithmeticRoundsToNearestEven := by
  simp only [Obligations.DoubleArithmeticRoundsToNearestEven, rounds64_eq, infinity64_eq, signedZero64_eq]
  refine ⟨interchange_b64.finite_operands, fun nan b s hb => ?_⟩
  obtain ⟨hadd, hsub, hmul⟩ := interchange_b64.infinite_operand nan b s (isNaN64_eq_false_iff.mp hb)
  exact ⟨hadd, hsub, fun hzero => hmul (of_decide_eq_false hzero)⟩

theorem isNaN32_eq_false_iff {a : B32} : isNaN32 a = false ↔ fval32 a ≠ .nan := by
  simp [isNaN32]

/-- Settles O46: the shortened quotient represents the exact one, and an infinity or a zero has its sign. -/
theorem doubleDivisionRoundsToNearestEven : Obligations.DoubleDivisionRoundsToNearestEven := by
  simp only [Obligations.DoubleDivisionRoundsToNearestEven, rounds64_eq, infinity64_eq, signedZero64_eq]
  refine ⟨fun nan a b p q ha hb => ⟨fun hq => ?_, fun hq hp => ?_⟩, fun nan a s ha => ?_⟩
  · exact interchange_b64.quotient (by decide) nan ha hb hq
  · exact interchange_b64.quotient_by_zero nan ha (hq ▸ hb) hp
  · obtain ⟨p, hp⟩ := Option.isSome_iff_exists.mp ha
    have hinf : fval64 (signed b64Format 64 s (infBits b64Format)) = .inf s := interchange_b64.valueIn_inf s
    rw [fdiv64, fdiv64, hinf]
    exact interchange_b64.quotient_inf nan hp s

/-- Settles O47: the format `b32`, and narrowing, which rounds what the `b64` denotes. -/
theorem singleArithmeticRoundsToNearestEven : Obligations.SingleArithmeticRoundsToNearestEven := by
  simp only [Obligations.SingleArithmeticRoundsToNearestEven, rounds32_eq, infinity32_eq, signedZero32_eq,
    infinity64_eq]
  refine ⟨interchange_b32.finite_operands, fun nan b s hb => ?_, fun nan a p ha => ?_, fun nan a ha => ?_,
    fun nan s => ?_⟩
  · obtain ⟨hadd, hsub, hmul⟩ := interchange_b32.infinite_operand nan b s (isNaN32_eq_false_iff.mp hb)
    exact ⟨hadd, hsub, fun hzero => hmul (of_decide_eq_false hzero)⟩
  · exact interchange_b32.roundsIn ha
  · exact interchange_b64.msb_convert interchange_b32 nan (isNaN64_eq_false_iff.mp ha)
  · exact interchange_b64.convert_inf nan s

end Sys2Proof.Machine
end
section
/-! PROOFS. A NaN result is the draw, and the draws are the quiet NaNs (R82). -/

namespace Sys2Proof.Machine

/-! ### A NaN operand -/

section
variable {v w : FVal}

theorem fvalAdd_of_nan (h : v = .nan ∨ w = .nan) : fvalAdd v w = .nan := by
  rcases h with rfl | rfl
  · rfl
  · cases v <;> rfl

theorem fvalMul_of_nan (h : v = .nan ∨ w = .nan) : fvalMul v w = .nan := by
  rcases h with rfl | rfl
  · rfl
  · exact fvalMul_nan_right v

theorem fvalDiv_of_nan (h : v = .nan ∨ w = .nan) : fvalDiv v w = .nan := by
  rcases h with rfl | rfl
  · rfl
  · cases v <;> rfl

end

/-! ### The quiet NaNs -/

theorem quiet64_iff {x : B64} : quiet64 x = true ↔ x.toNat / 2 ^ 51 % 2 ^ 12 = 0xFFF := by
  rw [quiet64, Bool.and_eq_true, isNaN64, decide_eq_true_iff, fval64, unpack_eq_nan_iff, BitVec.getLsbD,
    Nat.testBit_eq_decide_div_mod_eq, decide_eq_true_iff]
  simp only [b64Format]
  omega

theorem quiet32_iff {x : B32} : quiet32 x = true ↔ x.toNat / 2 ^ 22 % 2 ^ 9 = 0x1FF := by
  rw [quiet32, Bool.and_eq_true, isNaN32, decide_eq_true_iff, fval32, unpack_eq_nan_iff, BitVec.getLsbD,
    Nat.testBit_eq_decide_div_mod_eq, decide_eq_true_iff]
  simp only [b32Format]
  omega

theorem quiet64_iff_draw (x : B64) : quiet64 x = true ↔ ∃ d, quietNaN64 d = x := by
  rw [quiet64_iff]
  constructor
  · intro h
    refine ⟨x.extractLsb' 63 1 ++ x.extractLsb' 0 51, BitVec.eq_of_toNat_eq ?_⟩
    rw [quietNaN64_toNat, BitVec.extractLsb'_append_eq_left, BitVec.extractLsb'_append_eq_right,
      BitVec.extractLsb'_toNat, BitVec.extractLsb'_toNat, Nat.shiftRight_eq_div_pow, Nat.shiftRight_zero]
    omega
  · rintro ⟨d, rfl⟩
    have hsign := (d.extractLsb' 51 1).isLt
    have hpay := (d.extractLsb' 0 51).isLt
    rw [quietNaN64_toNat]
    omega

theorem quiet32_iff_draw (x : B32) : quiet32 x = true ↔ ∃ d, quietNaN32 d = x := by
  rw [quiet32_iff]
  constructor
  · intro h
    refine ⟨x.extractLsb' 31 1 ++ x.extractLsb' 0 22, BitVec.eq_of_toNat_eq ?_⟩
    rw [quietNaN32_toNat, BitVec.extractLsb'_append_eq_left, BitVec.extractLsb'_append_eq_right,
      BitVec.extractLsb'_toNat, BitVec.extractLsb'_toNat, Nat.shiftRight_eq_div_pow, Nat.shiftRight_zero]
    omega
  · rintro ⟨d, rfl⟩
    have hsign := (d.extractLsb' 22 1).isLt
    have hpay := (d.extractLsb' 0 22).isLt
    rw [quietNaN32_toNat]
    omega

/-! ### The infinities and the zeros -/

@[simp] theorem fval64_infinity64 (s : Bool) : fval64 (infinity64 s) = .inf s := by
  cases s <;> decide

@[simp] theorem fval32_infinity32 (s : Bool) : fval32 (infinity32 s) = .inf s := by
  cases s <;> decide

@[simp] theorem fval64_signedZero64 (s : Bool) : fval64 (signedZero64 s) = .fin s 0 (-1074) := by
  cases s <;> decide

@[simp] theorem fval32_signedZero32 (s : Bool) : fval32 (signedZero32 s) = .fin s 0 (-149) := by
  cases s <;> decide

/-- Settles O48: the exact operation is a NaN, and a rounded NaN is the draw. -/
theorem naNResultIsTheDraw : Obligations.NaNResultIsTheDraw := by
  refine ⟨fun nan a b h => ?_, fun nan a b h => ?_, fun nan a h => ?_, fun nan a h => ?_, fun nan s t => ?_,
    fun nan s t => ?_, quiet64_iff_draw, quiet32_iff_draw⟩
  · have h := h.imp of_decide_eq_true of_decide_eq_true
    exact ⟨by rw [fadd64, fvalAdd_of_nan h, round64_nan],
      by rw [fsub64, fvalAdd_of_nan (h.imp_right (congrArg fvalNeg)), round64_nan],
      by rw [fmul64, fvalMul_of_nan h, round64_nan], by rw [fdiv64, fvalDiv_of_nan h, round64_nan]⟩
  · have h := h.imp of_decide_eq_true of_decide_eq_true
    exact ⟨by rw [fadd32, fvalAdd_of_nan h, round32_nan],
      by rw [fsub32, fvalAdd_of_nan (h.imp_right (congrArg fvalNeg)), round32_nan],
      by rw [fmul32, fvalMul_of_nan h, round32_nan]⟩
  · rw [f64OfF32, of_decide_eq_true h, round64_nan]
  · rw [f32OfF64, of_decide_eq_true h, round32_nan]
  · simp [fadd64, fsub64, fmul64, fdiv64, fvalAdd, fvalMul, fvalDiv, fvalNeg, round64_nan]
  · simp [fadd32, fsub32, fmul32, fvalAdd, fvalMul, fvalNeg, round32_nan]

end Sys2Proof.Machine
end

section
/-! PROOFS. The conversions that lose nothing: widening (R85, R86), and negation, which commutes with narrowing
(R81, R120). -/

namespace Sys2Proof.Machine

/-! ### Widening (R85, R86) -/

section
variable {F : FloatFormat} {n : Nat}

/-- What fits the significand and the exponent range of the format is rounded to itself. -/
theorem Interchange.ratIn_roundTo_exact (hF : Interchange F n) (nan : BitVec n) (neg : Bool) {m : Nat} {e : Int}
    (hm : m < 2 ^ (F.fracBits + 1)) (he : minExp F ≤ e) (hover : (m : ℚ) * 2 ^ e < overflowFrom F) :
    ratIn F (roundTo F nan (.fin neg m e)) = some (signFactor neg * m * 2 ^ e) := by
  rw [roundTo_fin]
  rcases eq_or_ne m 0 with rfl | hm0
  · simpa [roundMag] using ratIn_signed_zero hF neg
  · have hlog : m.log2 < F.fracBits + 1 := (Nat.log2_lt hm0).mpr hm
    have hq : ulpExp F m e ≤ e := max_le (by omega) he
    obtain ⟨k, hk⟩ := Int.le.dest hq
    have hshift : (roundShift m (ulpExp F m e - e) : ℚ) = m * 2 ^ k := by
      have hneg : (-(ulpExp F m e - e)).toNat = k := by omega
      rw [roundShift, if_pos (by omega), hneg]
      push_cast
      rfl
    rw [(represents_self F m e).ratIn_signed hF hm0 hover neg, hshift]
    congr 1
    conv_rhs => rw [← hk, zpow_add₀ two_ne_zero, zpow_natCast]
    ring

end

theorem two_pow_lt_overflowFrom_b64 : (2 : ℚ) ^ 200 < overflowFrom b64Format := by
  have hexp : minExp b64Format + 2 ^ b64Format.expBits - 4 = (970 : ℕ) := by decide
  rw [overflowFrom, hexp, zpow_natCast]
  calc (2 : ℚ) ^ 200 ≤ 1 * 2 ^ 970 := by rw [one_mul]; exact pow_le_pow_right₀ one_le_two (by decide)
    _ < _ := by gcongr; norm_num [b64Format]

theorem two_pow_lt_overflowFrom_b32 : (2 : ℚ) ^ 100 < overflowFrom b32Format := by
  have hexp : minExp b32Format + 2 ^ b32Format.expBits - 4 = (103 : ℕ) := by decide
  rw [overflowFrom, hexp, zpow_natCast]
  calc (2 : ℚ) ^ 100 ≤ 1 * 2 ^ 103 := by rw [one_mul]; exact pow_le_pow_right₀ one_le_two (by decide)
    _ < _ := by gcongr; norm_num [b32Format]

theorem rat32_f32OfI16 (v : Sample) : rat32 (f32OfI16 v) = some (v.toInt : ℚ) := by
  have hlo := v.le_toInt
  have hhi := v.toInt_lt
  have hm : v.toInt.natAbs < 2 ^ 24 := by omega
  have hm' : (v.toInt.natAbs : ℚ) < 2 ^ 24 := mod_cast hm
  have hover : (v.toInt.natAbs : ℚ) * 2 ^ (0 : ℤ) < overflowFrom b32Format := by
    rw [zpow_zero, mul_one]
    exact hm'.trans (lt_trans (by norm_num) two_pow_lt_overflowFrom_b32)
  have h := interchange_b32.ratIn_roundTo_exact 0 (decide (v.toInt < 0)) hm (e := 0) (by decide) hover
  rwa [signFactor_mul_natAbs, zpow_zero, mul_one] at h

theorem rat64_f64OfI32 (v : BitVec 32) : rat64 (f64OfI32 v) = some (v.toInt : ℚ) := by
  have hlo := v.le_toInt
  have hhi := v.toInt_lt
  have hm : v.toInt.natAbs < 2 ^ 53 := by omega
  have hm' : (v.toInt.natAbs : ℚ) < 2 ^ 53 := mod_cast hm
  have hover : (v.toInt.natAbs : ℚ) * 2 ^ (0 : ℤ) < overflowFrom b64Format := by
    rw [zpow_zero, mul_one]
    exact hm'.trans (lt_trans (by norm_num) two_pow_lt_overflowFrom_b64)
  have h := interchange_b64.ratIn_roundTo_exact 0 (decide (v.toInt < 0)) hm (e := 0) (by decide) hover
  rwa [signFactor_mul_natAbs, zpow_zero, mul_one] at h

theorem rat64_f64OfF32 (nan : B64) {v : B32} {q : ℚ} (h : rat32 v = some q) : rat64 (f64OfF32 nan v) = some q := by
  obtain ⟨neg, m, e, hv, rfl⟩ := ratIn_eq_some (F := b32Format) h
  obtain ⟨hm, helo, hehi⟩ := unpack_fin_bounds hv
  have helo : -149 ≤ e := helo
  have hehi : e < 107 := hehi
  have hm' : (m : ℚ) < 2 ^ 24 := mod_cast hm
  have hover : (m : ℚ) * 2 ^ e < overflowFrom b64Format :=
    calc (m : ℚ) * 2 ^ e ≤ 2 ^ 24 * 2 ^ (107 : ℤ) := by gcongr; norm_num
      _ < 2 ^ 200 := by norm_num
      _ < _ := two_pow_lt_overflowFrom_b64
  have hround : f64OfF32 nan v = roundTo b64Format nan (.fin neg m e) := congrArg (roundTo b64Format nan) hv
  rw [hround]
  exact interchange_b64.ratIn_roundTo_exact nan neg (hm.trans (by decide)) (le_trans (by decide) helo) hover

/-- Settles O49: every operand fits the wider format, so rounding gives it back. -/
theorem wideningIsExact : Obligations.WideningIsExact :=
  ⟨rat32_f32OfI16, by decide, by decide, by decide, by decide, rat64_f64OfI32, by decide, by decide,
    fun nan _ _ h => rat64_f64OfF32 nan h,
    fun nan _ h => interchange_b32.msb_convert interchange_b64 nan (isNaN32_eq_false_iff.mp h),
    fun nan v h => by rw [f64OfF32, of_decide_eq_true h, round64_nan],
    fun nan => ⟨interchange_b32.convert_inf nan false, interchange_b32.convert_inf nan true⟩⟩

/-! ### Negation (R81, R120) -/

section
variable {F : FloatFormat} {n : Nat}

theorem unpack_signBits_not (neg : Bool) {k : Nat} (hk : k < signWeight F) :
    unpack F (signBits F (!neg) + k) = fvalNeg (unpack F (signBits F neg + k)) := by
  obtain ⟨hfrac, hex, hneg⟩ := fields_signBits_add neg hk
  obtain ⟨hfrac', hex', hneg'⟩ := fields_signBits_add (!neg) hk
  simp only [unpack, hfrac, hex, hneg, hfrac', hex', hneg']
  split
  · split <;> rfl
  · split <;> rfl

/-- The sign bit inverted alone negates what a pattern denotes. -/
theorem Interchange.valueIn_of_msb_not (hF : Interchange F n) {a b : BitVec n} (hmsb : b.msb = !a.msb)
    (hlow : b.toNat % signWeight F = a.toNat % signWeight F) : valueIn F b = fvalNeg (valueIn F a) := by
  rw [valueIn, valueIn, hF.toNat_eq a, hF.toNat_eq b, hmsb, hlow]
  exact unpack_signBits_not _ (Nat.mod_lt _ (Nat.two_pow_pos _))

/-- Rounding the negation of a number inverts the sign bit alone. -/
theorem Interchange.eq_roundTo_fvalNeg (hF : Interchange F n) {nan a : BitVec n} {v : FVal} (hv : v ≠ .nan)
    (hmsb : a.msb = !(roundTo F nan v).msb)
    (hlow : a.toNat % signWeight F = (roundTo F nan v).toNat % signWeight F) : roundTo F nan (fvalNeg v) = a := by
  have hsigned (s : Bool) {k : Nat} (hk : k ≤ infBits F) (hmsb : a.msb = !(signed F n s k).msb)
      (hlow : a.toNat % signWeight F = (signed F n s k).toNat % signWeight F) : signed F n (!s) k = a := by
    refine hF.ext ?_ ?_
    · rw [hmsb, hF.msb_signed _ hk, hF.msb_signed _ hk]
    · rw [hlow, hF.toNat_signed_mod _ hk, hF.toNat_signed_mod _ hk]
  cases v with
  | nan => exact absurd rfl hv
  | inf s => exact hsigned s le_rfl hmsb hlow
  | fin s m e => exact hsigned s (roundMag_le ..) hmsb hlow

end

theorem xor_signBit64 (a : BitVec 64) : (a ^^^ 0x8000000000000000#64).msb = !a.msb ∧
    (a ^^^ 0x8000000000000000#64).setWidth 63 = a.setWidth 63 := by
  have htop : (0x8000000000000000#64).msb = true := by decide
  have hlow : (0x8000000000000000#64).setWidth 63 = 0#63 := by decide
  rw [BitVec.msb_xor, htop, BitVec.setWidth_xor, hlow, BitVec.xor_zero, Bool.xor_true]
  exact ⟨rfl, rfl⟩

theorem xor_signBit32 (a : BitVec 32) : (a ^^^ 0x80000000#32).msb = !a.msb ∧
    (a ^^^ 0x80000000#32).setWidth 31 = a.setWidth 31 := by
  have htop : (0x80000000#32).msb = true := by decide
  have hlow : (0x80000000#32).setWidth 31 = 0#31 := by decide
  rw [BitVec.msb_xor, htop, BitVec.setWidth_xor, hlow, BitVec.xor_zero, Bool.xor_true]
  exact ⟨rfl, rfl⟩

theorem fval64_fneg64 (a : B64) : fval64 (fneg64 a) = fvalNeg (fval64 a) := by
  obtain ⟨hmsb, hlow⟩ := xor_signBit64 a
  have hlow := congrArg BitVec.toNat hlow
  rw [BitVec.toNat_setWidth, BitVec.toNat_setWidth] at hlow
  exact interchange_b64.valueIn_of_msb_not hmsb hlow

/-- Settles O52: the magnitude bits of a rounding do not depend on the sign. -/
theorem negationCommutesWithNarrowing : Obligations.NegationCommutesWithNarrowing := by
  refine ⟨xor_signBit64, fun nan a ha => ?_⟩
  obtain ⟨hmsb, hlow⟩ := xor_signBit32 (f32OfF64 nan a)
  have hlow := congrArg BitVec.toNat hlow
  rw [BitVec.toNat_setWidth, BitVec.toNat_setWidth] at hlow
  rw [f32OfF64, fval64_fneg64]
  exact interchange_b32.eq_roundTo_fvalNeg (isNaN64_eq_false_iff.mp ha) hmsb hlow

end Sys2Proof.Machine
end

section
/-! PROOFS. Saturation to an `int16` (R89) and comparison (R92). -/

namespace Sys2Proof.Machine

/-! ### Saturation (R89) -/

theorem truncMag_eq_floor (m : Nat) (e : Int) : (truncMag m e : ℤ) = ⌊(m : ℚ) * 2 ^ e⌋ := by
  rw [truncMag]
  split
  · next he =>
    obtain ⟨k, rfl⟩ : ∃ k : ℕ, e = -k := ⟨e.natAbs, by omega⟩
    have hfloor := Rat.floor_intCast_div_natCast m (2 ^ k)
    rw [neg_neg, Int.toNat_natCast, zpow_neg, zpow_natCast, ← div_eq_mul_inv]
    push_cast at hfloor ⊢
    exact hfloor.symm
  · next he =>
    obtain ⟨k, rfl⟩ : ∃ k : ℕ, e = k := ⟨e.toNat, by omega⟩
    rw [zpow_natCast, Int.toNat_natCast]
    exact_mod_cast (Int.floor_natCast (R := ℚ) (m * 2 ^ k)).symm

/-- The integer part toward zero. -/
theorem tdiv_num_den_of_nonneg {q : ℚ} (h : 0 ≤ q) : q.num.tdiv q.den = ⌊q⌋ := by
  rw [Int.tdiv_eq_ediv_of_nonneg (Rat.num_nonneg.mpr h), Rat.floor_def']

theorem tdiv_num_den_neg (q : ℚ) : (-q).num.tdiv (-q).den = -q.num.tdiv q.den := by
  rw [Rat.num_neg_eq_neg_num, Rat.den_neg_eq_den, Int.neg_tdiv]

theorem toInt_ofInt_sample {z : ℤ} (hlo : -32768 ≤ z) (hhi : z ≤ 32767) : (BitVec.ofInt 16 z).toInt = z :=
  BitVec.toInt_ofInt_eq_self (by decide) hlo (Int.lt_add_one_of_le hhi)

theorem toInt_sat16 (draw : Sample) {v : B32} {q : ℚ} (h : rat32 v = some q) :
    (sat16 draw v).toInt = max (-32768) (min 32767 (q.num.tdiv q.den)) := by
  obtain ⟨neg, m, e, hv, rfl⟩ := ratIn_eq_some (F := b32Format) h
  have hv : fval32 v = .fin neg m e := hv
  have htrunc := truncMag_eq_floor m e
  have hnonneg : (0 : ℚ) ≤ m * 2 ^ e := by positivity
  rw [sat16, hv]
  dsimp only
  rw [mul_assoc]
  cases neg with
  | false =>
    rw [signFactor, if_neg (by decide), if_neg (by decide), one_mul, tdiv_num_den_of_nonneg hnonneg, ← htrunc,
      toInt_ofInt_sample] <;> omega
  | true =>
    rw [signFactor, if_pos rfl, if_pos rfl, neg_one_mul, tdiv_num_den_neg, tdiv_num_den_of_nonneg hnonneg, ← htrunc,
      toInt_ofInt_sample] <;> omega

/-- Settles O50: the model's truncation is the floor of the magnitude. -/
theorem saturationClampsThenTruncates : Obligations.SaturationClampsThenTruncates := by
  refine ⟨fun draw _ _ h => toInt_sat16 draw h, fun _ => ⟨rfl, rfl⟩, fun draw v h => ?_⟩
  have h : fval32 v = .nan := of_decide_eq_true h
  rw [sat16, h]

/-! ### Comparison (R92) -/

theorem fvalGt_of_nan {v w : FVal} (h : v = .nan ∨ w = .nan) : fvalGt v w = false := by
  rcases h with rfl | rfl
  · rfl
  · cases v <;> rfl

theorem fvalGt_iff {v w : FVal} {p q : ℚ} (hv : fvalRat v = some p) (hw : fvalRat w = some q) :
    fvalGt v w = true ↔ q < p := by
  obtain ⟨a, m, e, rfl, rfl⟩ := fvalRat_eq_some hv
  obtain ⟨b, n, g, rfl, rfl⟩ := fvalRat_eq_some hw
  have hpos : (0 : ℚ) < 2 ^ min e g := by positivity
  rw [fvalGt, decide_eq_true_iff, ← scaled_mul a m (min_le_left e g), ← scaled_mul b n (min_le_right e g),
    mul_lt_mul_iff_left₀ hpos, Int.cast_lt]

theorem fvalGt_inf {v : FVal} (hv : v ≠ .nan) : (fvalGt (.inf false) v = true ↔ v ≠ .inf false) ∧
    fvalGt v (.inf false) = false ∧ (fvalGt v (.inf true) = true ↔ v ≠ .inf true) ∧ fvalGt (.inf true) v = false := by
  cases v with
  | nan => exact absurd rfl hv
  | inf s => cases s <;> decide
  | fin s m e => simp [fvalGt]

/-- A `b64` denotes an infinity only where it is that pattern. -/
theorem fval64_eq_inf_iff {b : B64} {s : Bool} : fval64 b = .inf s ↔ b = infinity64 s := by
  refine ⟨fun h => ?_, fun h => h ▸ fval64_infinity64 s⟩
  rw [infinity64_eq]
  exact interchange_b64.eq_signed_of_inf h

/-- Settles O51: both operands are scaled to the lower exponent, which keeps their order. -/
theorem comparisonsAreOfRealNumbers : Obligations.ComparisonsAreOfRealNumbers := by
  refine ⟨fun a b p q ha hb => fvalGt_iff ha hb, fun a b h => ?_, fun b hb => ?_, fun _ _ => rfl⟩
  · have h := h.imp of_decide_eq_true of_decide_eq_true
    exact ⟨fvalGt_of_nan h, fvalGt_of_nan h.symm⟩
  · have h := fvalGt_inf (isNaN64_eq_false_iff.mp hb)
    simp only [ne_eq, fval64_eq_inf_iff] at h
    exact h

end Sys2Proof.Machine
end

section
/-! PROOFS. The library functions at the two values of R91, CoefGen (R106), and the matrix constants (R93). -/

namespace Sys2Proof.Machine

/-! ### The library functions (R91, R104, R106) -/

/-- Settles O53: `CoefGen`'s default is the sequence of R106, with its own draws for the NaNs. -/
theorem parameterFunctionsAndDefaults : Obligations.ParameterFunctionsAndDefaults := by
  refine ⟨fun q => ⟨fun h => ?_, fun h => ?_, fun _ _ _ => pow64_listed, fun _ _ => sqrt64_listed,
    fun _ _ => tan64_listed, fun _ _ _ _ => coefGen_listed⟩, fun q kind fc fs h => ?_, reset_faithful⟩
  · rw [pow64_default h]
    decide +kernel
  · rw [sqrt64_default h]
    decide +kernel
  · refine ⟨fun j => quietNaN64 (Config.coefNaN (kind == .hp) fc fs j), fun j => (quiet64_iff_draw _).mpr ⟨_, rfl⟩, ?_⟩
    rw [coefGen_default h]
    cases kind <;> rfl

/-! ### The matrix constants (R93) -/

theorem rat32_of_fval32 {a : B32} {m : Nat} {e : Int} (h : fval32 a = .fin false m e) :
    rat32 a = some ((m : ℚ) * 2 ^ e) := by
  rw [rat32, h, fvalRat_fin, signFactor, if_neg (by decide), one_mul]

/-- Settles O54: the three values around each constant, and the squares of their midpoints. -/
theorem matrixConstantsAreNearest : Obligations.MatrixConstantsAreNearest := by
  refine ⟨⟨_, _, _, rat32_of_fval32 (m := 0xB504F2) (e := -25) (by decide),
      rat32_of_fval32 (m := 0xB504F3) (e := -25) (by decide),
      rat32_of_fval32 (m := 0xB504F4) (e := -25) (by decide), by norm_num, by norm_num⟩,
    ⟨_, _, _, rat32_of_fval32 (m := 0xDF2CF5) (e := -25) (by decide),
      rat32_of_fval32 (m := 0xDF2CF6) (e := -25) (by decide),
      rat32_of_fval32 (m := 0xDF2CF7) (e := -25) (by decide), by norm_num, by norm_num⟩,
    ⟨_, _, _, rat32_of_fval32 (m := 0xFAD3E6) (e := -26) (by decide),
      rat32_of_fval32 (m := 0xFAD3E7) (e := -26) (by decide),
      rat32_of_fval32 (m := 0xFAD3E8) (e := -26) (by decide), by norm_num, by norm_num⟩, ?_⟩
  rw [rat32_of_fval32 (m := 0x800000) (e := -24) (by decide)]
  norm_num

end Sys2Proof.Machine
end

section
/-! PROOFS. The biquad_iir_filter unit: its four micro-operations (R101 to R108), and silence in, silence out (R109). -/

namespace Sys2Proof.Machine

/-! ### What each operation answers on the unit its index names (R68) -/

theorem exec_bqClr {f : BitVec 4} {i : Fin 7} (s : State) (hf : f.toNat = i) :
    exec (.bqClr f) s = .next (s.bqClr i) := by
  simp only [exec, execBqClr, withIndex_of_eq hf]

theorem exec_bqLpc {k : BitVec 4} {j : Fin 4} (s : State) (hk : k.toNat = j) :
    exec (.bqLpc k) s = .next (s.bqLpc j) := by
  simp only [exec, execBqLpc, withIndex_of_eq hk]

theorem exec_bqHpc {k : BitVec 4} {j : Fin 4} (s : State) (hk : k.toNat = j) :
    exec (.bqHpc k) s = .next (s.bqHpc j) := by
  simp only [exec, execBqHpc, withIndex_of_eq hk]

/-! ### The clamp of the low-pass derivation (R102) -/

/-- A product of finite operands is a number, so it takes no draw (R82). -/
theorem fmul64_of_finite {a b : B64} {p q : ℚ} (ha : rat64 a = some p) (hb : rat64 b = some q) (nan nan' : B64) :
    fmul64 nan a b = fmul64 nan' a b := by
  have hnum : fvalMul (fval64 a) (fval64 b) ≠ .nan := by
    intro h
    have hrat := fvalRat_fvalMul ha hb
    rw [h] at hrat
    cases hrat
  rw [fmul64, fmul64, round64_of_ne_nan hnum, round64_of_ne_nan (n := nan') hnum]

theorem clampedCutoff_f64OfI32 (nan fc : B64) (rate : BitVec 32) : clampedCutoff fc (f64OfI32 rate) =
    if fgt64 fc (fmul64 nan clampRatio (f64OfI32 rate)) then fmul64 nan clampRatio (f64OfI32 rate) else fc := by
  obtain ⟨p, hp⟩ := Option.isSome_iff_exists.mp (by decide : (rat64 clampRatio).isSome = true)
  rw [clampedCutoff, fmul64_of_finite hp (rat64_f64OfI32 rate) _ nan]

/-! ### Zeros through the primitives (R81, R86, R87) -/

theorem zero64_iff {a : B64} : zero64 a = true ↔ rat64 a = some 0 := decide_eq_true_iff

theorem zero32_iff {a : B32} : zero32 a = true ↔ rat32 a = some 0 := decide_eq_true_iff

/-- An exact result that is zero is rounded to a zero. -/
theorem Interchange.ratIn_roundTo_zero {F : FloatFormat} {n : Nat} (hF : Interchange F n) (nan : BitVec n) {v : FVal}
    (hv : fvalRat v = some 0) : ratIn F (roundTo F nan v) = some 0 := by
  obtain ⟨neg, m, e, rfl, hzero⟩ := fvalRat_eq_some hv
  have he : (2 : ℚ) ^ e ≠ 0 := by positivity
  have hm : m = 0 := by simpa [signFactor_ne_zero, he] using hzero
  rw [hm, roundTo_fin, roundMag, if_pos rfl, ratIn_signed_zero hF]

section
variable {a b nan : B64}

theorem zero64_round64 {v : FVal} (hv : fvalRat v = some 0) : zero64 (round64 nan v) = true :=
  zero64_iff.mpr (interchange_b64.ratIn_roundTo_zero nan hv)

theorem zero64_fadd64 (ha : zero64 a = true) (hb : zero64 b = true) : zero64 (fadd64 nan a b) = true :=
  zero64_round64 (by simpa using fvalRat_fvalAdd (zero64_iff.mp ha) (zero64_iff.mp hb))

theorem zero64_fsub64 (ha : zero64 a = true) (hb : zero64 b = true) : zero64 (fsub64 nan a b) = true :=
  zero64_round64 (by simpa using fvalRat_fvalAdd (zero64_iff.mp ha) (fvalRat_fvalNeg (zero64_iff.mp hb)))

theorem zero64_fmul64 (ha : finite64 a = true) (hb : zero64 b = true) : zero64 (fmul64 nan a b) = true := by
  obtain ⟨p, hp⟩ := Option.isSome_iff_exists.mp ha
  exact zero64_round64 (by simpa using fvalRat_fvalMul hp (zero64_iff.mp hb))

theorem zero64_f64OfF32 {u : B32} (hu : zero32 u = true) : zero64 (f64OfF32 nan u) = true :=
  zero64_iff.mpr (rat64_f64OfF32 nan (zero32_iff.mp hu))

theorem zero32_f32OfF64 {nan : B32} (ha : zero64 a = true) : zero32 (f32OfF64 nan a) = true :=
  zero32_iff.mpr (interchange_b32.ratIn_roundTo_zero nan (zero64_iff.mp ha))

end

/-! ### Silence through the filter (R109) -/

section
variable {t : Nat} {c : CoefSet} {h : FilterState}

/-- Every term of the difference equation is a zero, and so is every running sum. -/
theorem zero64_biquadSum {x : B64} (hc : c.finite = true) (hh : h.silent = true) (hx : zero64 x = true) :
    zero64 (biquadSum t c h x) = true := by
  simp only [CoefSet.finite, FilterState.silent, Bool.and_eq_true] at hc hh
  obtain ⟨⟨⟨⟨⟨⟨⟨⟨ha0, ha1⟩, ha2⟩, ha3⟩, ha4⟩, hb1⟩, hb2⟩, hb3⟩, hb4⟩ := hc
  obtain ⟨⟨⟨⟨⟨⟨⟨hx1, hx2⟩, hx3⟩, hx4⟩, hy1⟩, hy2⟩, hy3⟩, hy4⟩ := hh
  refine zero64_fsub64 ?_ (zero64_fmul64 hb4 hy4)
  refine zero64_fsub64 ?_ (zero64_fmul64 hb3 hy3)
  refine zero64_fsub64 ?_ (zero64_fmul64 hb2 hy2)
  refine zero64_fsub64 ?_ (zero64_fmul64 hb1 hy1)
  refine zero64_fadd64 ?_ (zero64_fmul64 ha4 hx4)
  refine zero64_fadd64 ?_ (zero64_fmul64 ha3 hx3)
  refine zero64_fadd64 ?_ (zero64_fmul64 ha2 hx2)
  refine zero64_fadd64 ?_ (zero64_fmul64 ha1 hx1)
  exact zero64_fmul64 ha0 hx

theorem biquadShift_silent {x y : B64} (hh : h.silent = true) (hx : zero64 x = true) (hy : zero64 y = true) :
    (biquadShift h x y).silent = true := by
  simp only [FilterState.silent, Bool.and_eq_true] at hh
  simp [FilterState.silent, biquadShift, hh, hx, hy]

theorem biquadApply_silent {u : B32} (hc : c.finite = true) (hh : h.silent = true) (hu : zero32 u = true) :
    zero32 (biquadApply t c h u).2 = true ∧ (biquadApply t c h u).1.silent = true :=
  have hx := zero64_f64OfF32 hu
  have hy := zero64_biquadSum hc hh hx
  ⟨zero32_f32OfF64 hy, biquadShift_silent hh hx hy⟩

end

/-! ### The statements -/

/-- Settles O31: BQ.CLR on the filter its index names. -/
theorem bqClrZeroesOneFilter : Obligations.BqClrZeroesOneFilter := fun f s hf =>
  exec_bqClr (i := ⟨f.toNat, hf⟩) s rfl

/-- Settles O32: the limit is a number whatever NaN its product is given. -/
theorem bqLpcComputesClampedLowPass : Obligations.BqLpcComputesClampedLowPass := by
  intro k s nan hk
  rw [exec_bqLpc (j := ⟨k.toNat, hk⟩) s rfl, State.bqLpc, lowPassSet, clampedCutoff_f64OfI32 nan]
  rfl

/-- Settles O33: BQ.HPC on the coefficient set its index names. -/
theorem bqHpcComputesHighPass : Obligations.BqHpcComputesHighPass := fun k s hk =>
  exec_bqHpc (j := ⟨k.toNat, hk⟩) s rfl

/-- Settles O34: the NaNs are the draws from the state's count on. -/
theorem bqApplyFiltersOneSample : Obligations.BqApplyFiltersOneSample := fun f k s hf hk =>
  ⟨fun j => nan64 (s.draws + j), nan32 s.draws, fun j => quiet64_nan64 (s.draws + j), quiet32_nan32 s.draws,
    exec_bqApply (i := ⟨f.toNat, hf⟩) (j := ⟨k.toNat, hk⟩) s rfl rfl⟩

/-- Settles O35: the filter of R107 keeps silence. -/
theorem zeroIntoSilentFilter : Obligations.ZeroIntoSilentFilter := by
  intro f k s hf hk hu hh hc
  obtain ⟨hout, hstate⟩ := biquadApply_silent (t := s.draws) hc hh hu
  refine ⟨_, exec_bqApply (i := ⟨f.toNat, hf⟩) (j := ⟨k.toNat, hk⟩) s rfl rfl, hout, ?_⟩
  rw [State.bqApply]
  simpa using hstate

end Sys2Proof.Machine
end

section
/-! PROOFS. The cascaded_allpass_phaseshift unit: PS.CLR (R116), and PS.APPLY in the decided format
`PS_FMT` = binary64 (R117 to R121). -/

namespace Sys2Proof.Machine

theorem exec_psClr {p : BitVec 4} {i : Fin 4} (s : State) (hp : p.toNat = i) :
    exec (.psClr p) s = .next (s.psClr i) := by
  simp only [exec, execPsClr, withIndex_of_eq hp]

/-- Settles O36: PS.CLR on the phase-shift state its index names. -/
theorem psClrZeroesOnePhase : Obligations.PsClrZeroesOnePhase := fun p s hp =>
  exec_psClr (i := ⟨p.toNat, hp⟩) s rfl

/-- Settles O37: in binary64 each operation of the unit is the rules' own primitive; the NaNs are the draws from
the state's count on. -/
theorem psApplyShiftsOneSample : Obligations.PsApplyShiftsOneSample := by
  intro p v s hp hF
  refine ⟨fun j => nan64 (s.draws + j), nan32 s.draws, fun j => quiet64_nan64 (s.draws + j),
    quiet32_nan32 s.draws, ?_⟩
  intro fs range low up h0 h one c x0 y1 y2 y3 y4 w
  have hsetUp : phaseSetUp s.params s.draws s.sampleRate h0 = h := by
    simp only [phaseSetUp, sweepMin, sweepFactor, sweepRange, rateIn, hF]
    rfl
  have hstages : phaseStages .b64 s.draws c x0 h =
      { h with lx1 := x0, lx2 := y1, lx3 := y2, lx4 := y3, ly1 := y1, ly2 := y2, ly3 := y3, ly4 := y4 } := rfl
  have happly : phaseApply s.params s.draws s.sampleRate v h0 s.uIn =
      (sweepAdvance .b64 s.draws (phaseStages .b64 s.draws c x0 h),
        f32OfF64 (nan32 s.draws) (if v then fneg64 y4 else y4)) := by
    rw [phaseApply, hF, hsetUp]
    rfl
  rw [exec_psApply (i := ⟨p.toNat, hp⟩) v s rfl, psApply_eq, Fin.getElem_fin, happly, hstages]
  rfl

end Sys2Proof.Machine
end

section
/-! PROOFS. The circular_delay_line unit: its three micro-operations (R131 to R133), a line as the queue of the samples
it holds (R134), and the rear outputs of cleared lines (R147, S6). -/

namespace Sys2Proof.Machine

/-! ### What each operation answers (R68, R131, R171) -/

theorem exec_dlClr {d : BitVec 4} {i : Fin 2} (s : State) (hd : d.toNat = i) :
    exec (.dlClr d) s = .next (s.dlClr i) := by
  simp only [exec, execDlClr, withIndex_of_eq hd]

theorem exec_dlPush_of_slotAbsent {d : BitVec 4} {i : Fin 2} {s : State} (hd : d.toNat = i)
    (hslot : s.params.maxDelay ≤ s.d[i].cursor) : exec (.dlPush d) s = .fault .delaySlotAbsent := by
  simp only [exec, execDlPush, withIndex_of_eq hd, if_neg (Nat.not_lt.mpr hslot)]

theorem exec_dlCfg_of_rate {s : State} (h : 50 ≤ s.sampleRate.toInt) :
    exec .dlCfg s = .next (s.withDelayLen (delayLength s.params.maxDelay s.sampleRate)) := by
  simp only [exec, execDlCfg, dlCfg_some (zeroDelay_eq_false_iff.mpr h)]

theorem exec_dlCfg_below {s : State} (h : s.sampleRate.toInt < 50) :
    exec .dlCfg s = .next (s.raise .eZeroDelay) := by
  have hz : zeroDelay s.sampleRate = true :=
    Bool.of_not_eq_false fun hz => absurd (zeroDelay_eq_false_iff.mp hz) (by omega)
  simp only [exec, execDlCfg, dlCfg_none hz]

/-- R145: on a decoder that is reset and not stale, PROCESS is its frames, a count of 0 included. -/
theorem exec_process_of_ready {n : BitVec 32} {s : State} (hinit : s.initialized = true) (hfresh : s.rateDirty = false)
    (hcount : 0 ≤ n.toInt) : exec (.process n) s = s.runFrames n.toInt.toNat := by
  have hc : countRejected n = false := by simpa [countRejected] using hcount
  simp [exec, execProcess, hc, State.stale, hinit, hfresh, frameCount]

/-! ### DL.PUSH on the state (R133) -/

section
variable (s : State) (i : Fin 2)

theorem dlPush_uOut : (s.dlPush i).uOut = Memory.peekZ s.d[i].buf s.d[i].cursor := by
  simp [State.dlPush, delayPush]

theorem dlPush_line : (s.dlPush i).d[i] = (delayPush s.draws s.delayLen s.params.maxDelay s.d[i] s.uIn).1 := by
  simp [State.dlPush]

/-- Of the two lines the one that index `i` does not name has index `1 - i`. -/
theorem set_otherLine (v : Vector DelayLine 2) (l : DelayLine) :
    (v.set i l)[1 - (i : Nat)] = v[1 - (i : Nat)] :=
  Vector.getElem_set_ne _ _ (by omega)

theorem dlPush_otherLine : (s.dlPush i).d[1 - (i : Nat)] = s.d[1 - (i : Nat)] := by
  rw [State.dlPush]
  exact set_otherLine i _ _

theorem dlPush_keepsRest : { s.dlPush i with d := s.d, uOut := s.uOut, draws := s.draws } = s := by
  ext1 <;> simp [State.dlPush]

theorem dlPush_delayLen : (s.dlPush i).delayLen = s.delayLen := by simp [State.dlPush]

theorem dlPush_params : (s.dlPush i).params = s.params := by simp [State.dlPush]

end

/-! ### A push on one line (R133) -/

section
variable (t len size : Nat) (l : DelayLine) (u : B32)

theorem delayPush_out : (delayPush t len size l u).2 = Memory.peekZ l.buf l.cursor := rfl

theorem delayPush_cursor : (delayPush t len size l u).1.cursor = nextCursor t len size l.cursor := rfl

variable {l}

theorem delayPush_slot_same (hl : Memory.wf l.buf = true) :
    Memory.peekZ (delayPush t len size l u).1.buf l.cursor = u :=
  Memory.peekZ_pokeZ_same _ _ hl

theorem delayPush_slot_other {c : Nat} (hc : c ≠ l.cursor) :
    Memory.peekZ (delayPush t len size l u).1.buf c = Memory.peekZ l.buf c :=
  Memory.peekZ_pokeZ_other _ _ hc

end

/-- R133: the cursor comes back to 0 from the last slot in use. -/
theorem nextCursor_of_lt {t len size c : Nat} (hc : c < len) :
    nextCursor t len size c = if c + 1 = len then 0 else c + 1 := by
  rw [nextCursor_of_pos (by omega)]
  split_ifs with hlast
  · rw [hlast, Nat.mod_self]
  · exact Nat.mod_eq_of_lt (by omega)

/-- Log 9: with no slot in use the next cursor is still a slot of the array. -/
theorem nextCursor_zero_lt {t size c : Nat} (hsize : 0 < size) : nextCursor t 0 size c < size :=
  Nat.mod_lt _ hsize

/-- R133 at any slot of the array: what DL.PUSH answers, and what it leaves as it was. -/
theorem exec_dlPush_moves {d : BitVec 4} {s : State} (hd : d.toNat < 2)
    (hslot : s.d[d.toNat].cursor < s.params.maxDelay) (hwf : Memory.wf s.d[d.toNat].buf = true) :
    ∃ t, exec (.dlPush d) s = .next t ∧
      t.uOut = Memory.peekZ s.d[d.toNat].buf s.d[d.toNat].cursor ∧
      Memory.peekZ t.d[d.toNat].buf s.d[d.toNat].cursor = s.uIn ∧
      (∀ c, c ≠ s.d[d.toNat].cursor → Memory.peekZ t.d[d.toNat].buf c = Memory.peekZ s.d[d.toNat].buf c) ∧
      t.d[d.toNat].cursor = nextCursor s.draws s.delayLen s.params.maxDelay s.d[d.toNat].cursor ∧
      t.d[1 - d.toNat] = s.d[1 - d.toNat] ∧
      { t with d := s.d, uOut := s.uOut, draws := s.draws } = s := by
  have hline := dlPush_line s ⟨d.toNat, hd⟩
  rw [Fin.getElem_fin, Fin.getElem_fin] at hline
  refine ⟨s.dlPush ⟨d.toNat, hd⟩, exec_dlPush rfl hslot, dlPush_uOut s _, ?_, ?_, ?_, dlPush_otherLine s _,
    dlPush_keepsRest s _⟩ <;> rw [hline]
  · exact delayPush_slot_same _ _ _ _ hwf
  · exact fun c hc => delayPush_slot_other _ _ _ _ hc
  · exact delayPush_cursor ..

/-! ### The line as a queue (R134) -/

/-- The slots in use, from the cursor round, hold the samples `q`: the next push returns the first of them. -/
structure DelayLine.Holds (l : DelayLine) (q : List B32) : Prop where
  canonical : Memory.wfZ l.buf = true
  cursor_lt : l.cursor < q.length
  slots : ∀ j (h : j < q.length), Memory.peekZ l.buf ((l.cursor + j) % q.length) = q[j]

theorem zero_holds {len : Nat} (hlen : 1 ≤ len) : DelayLine.zero.Holds (List.replicate len 0#32) where
  canonical := rfl
  cursor_lt := by rwa [List.length_replicate]
  slots _ _ := by
    rw [List.getElem_replicate]
    rfl

/-- Past the cursor and less than once round, the slot is another one. -/
theorem add_mod_ne_self {c j len : Nat} (hc : c < len) (hj : 0 < j) (hlt : j < len) : (c + j) % len ≠ c := by
  intro h
  have hround : c + j ≡ c + 0 [MOD len] := h.trans (Nat.mod_eq_of_lt hc).symm
  have hzero : j % len = 0 := Nat.ModEq.add_left_cancel' c hround
  rw [Nat.mod_eq_of_lt hlt] at hzero
  omega

theorem wf_of_wfZ {m : Memory B32} (h : Memory.wfZ m = true) : Memory.wf m = true := by
  rw [Memory.wfZ, Bool.and_eq_true] at h
  exact h.1

section
variable {t len size : Nat} {l : DelayLine} {v u : B32} {q : List B32}

theorem DelayLine.Holds.first (h : l.Holds (v :: q)) : Memory.peekZ l.buf l.cursor = v := by
  have hslot := h.slots 0 (Nat.succ_pos _)
  rwa [Nat.add_zero, Nat.mod_eq_of_lt h.cursor_lt] at hslot

/-- A push takes the first sample out of the queue and puts its input at the end. -/
theorem delayPush_holds (h : l.Holds (v :: q)) (hlen : q.length + 1 = len) :
    (delayPush t len size l u).1.Holds (q ++ [u]) := by
  have hround : (q ++ [u]).length = len := by simpa using hlen
  have hcursor : l.cursor < len := hlen ▸ h.cursor_lt
  have hnext : (delayPush t len size l u).1.cursor = (l.cursor + 1) % len := nextCursor_of_pos (by omega)
  refine ⟨Memory.wfZ_pokeZ _ _ h.canonical, ?_, fun j hj => ?_⟩
  · rw [hnext, hround]
    exact Nat.mod_lt _ (by omega)
  · have hslot : ((delayPush t len size l u).1.cursor + j) % (q ++ [u]).length = (l.cursor + (j + 1)) % len := by
      rw [hnext, hround, Nat.mod_add_mod]
      congr 1
      omega
    rw [hslot]
    by_cases hlast : j + 1 = len
    · obtain rfl : j = q.length := by omega
      have hself : (l.cursor + (q.length + 1)) % len = l.cursor := by
        rw [hlast, Nat.add_mod_right, Nat.mod_eq_of_lt hcursor]
      rw [hself, List.getElem_concat_length rfl]
      exact delayPush_slot_same t len size u (wf_of_wfZ h.canonical)
    · have hj' : j < q.length := by omega
      have hold := h.slots (j + 1) (Nat.succ_lt_succ hj')
      rw [delayPush_slot_other t len size u (add_mod_ne_self hcursor j.succ_pos (by omega)),
        List.getElem_append_left hj']
      rwa [List.length_cons, hlen] at hold

end

/-! ### A sequence of pushes (R134) -/

theorem pushAll_cons {d : BitVec 4} {u : B32} {us : List B32} {s t : State}
    (h : exec (.dlPush d) (s.drive u) = .next t) : pushAll d (u :: us) s = (pushAll d us t).map (t.uOut :: ·) := by
  rw [State.drive] at h
  simp only [pushAll, h]

/-- Pushes return what the line holds, and after that their own inputs. -/
theorem pushAll_of_holds {d : BitVec 4} {i : Fin 2} (hd : d.toNat = i) (us : List B32) {q : List B32} {s : State}
    (hq : s.d[i].Holds q) (hlen : q.length = s.delayLen) (hmax : s.delayLen ≤ s.params.maxDelay) :
    pushAll d us s = some ((q ++ us).take us.length) := by
  induction us generalizing q s with
  | nil => simp [pushAll]
  | cons u us ih =>
    obtain ⟨v, q, rfl⟩ := List.exists_cons_of_length_pos (Nat.zero_lt_of_lt hq.cursor_lt)
    have hdrive : (s.drive u).d[i].Holds (v :: q) := by rwa [State.drive_d]
    have hslot : (s.drive u).d[i].cursor < (s.drive u).params.maxDelay :=
      hdrive.cursor_lt.trans_le (hlen.trans_le hmax)
    have hline : ((s.drive u).dlPush i).d[i].Holds (q ++ [u]) := by
      rw [dlPush_line]
      exact delayPush_holds hdrive hlen
    have hout : ((s.drive u).dlPush i).uOut = v := (dlPush_uOut _ i).trans hdrive.first
    have hrest := ih hline (by simpa [dlPush_delayLen] using hlen)
      (by simpa [dlPush_delayLen, dlPush_params] using hmax)
    rw [pushAll_cons (exec_dlPush hd hslot), hrest, hout]
    simp

/-! ### The rear outputs of cleared lines (R147, R152, R154) -/

/-- The next `k` pushes on the line return `+0.0`. -/
def DelayLine.ZeroFor (len k : Nat) (l : DelayLine) : Prop :=
  ∃ us, l.Holds (List.replicate k 0#32 ++ us) ∧ k + us.length = len

theorem zero_zeroFor {len : Nat} (hlen : 1 ≤ len) : DelayLine.zero.ZeroFor len len :=
  ⟨[], by simpa using zero_holds hlen, rfl⟩

section
variable {len k size t : Nat} {l : DelayLine} {u : B32}

theorem DelayLine.ZeroFor.first (h : l.ZeroFor len (k + 1)) : Memory.peekZ l.buf l.cursor = 0#32 := by
  obtain ⟨us, hq, -⟩ := h
  exact hq.first

theorem DelayLine.ZeroFor.push (h : l.ZeroFor len (k + 1)) : (delayPush t len size l u).1.ZeroFor len k := by
  obtain ⟨us, hq, hlen⟩ := h
  refine ⟨us ++ [u], ?_, ?_⟩
  · rw [← List.append_assoc]
    exact delayPush_holds hq (by simpa [Nat.add_right_comm] using hlen)
  · rw [List.length_append, List.length_singleton]
    omega

end

/-- R152: the result of a rear path is the oldest sample of its line. -/
theorem surround_uOut (s : State) (F : Fmt) (t : Nat) (fl fr : Fin 7) (pl pr : Fin 4) (d : Fin 2) (l r : B32) :
    (s.surround F t fl fr pl pr d l r).uOut = Memory.peekZ s.d[d].buf s.d[d].cursor := by
  obtain ⟨a, ha⟩ : ∃ a, s.filter fl 2 l = a := ⟨_, rfl⟩
  obtain ⟨b, hb⟩ : ∃ b, a.shift pl true a.uOut = b := ⟨_, rfl⟩
  obtain ⟨c, hc⟩ : ∃ c, b.filter fr 2 r = c := ⟨_, rfl⟩
  obtain ⟨e, he⟩ : ∃ e, c.shift pr false c.uOut = e := ⟨_, rfl⟩
  have hd : e.d = s.d := by simp [← he, ← hc, ← hb, ← ha]
  rw [surround_of ha hb hc he rfl, State.delay_uOut, delayPush_out, hd]

/-- R152, R154: the two rear results a frame writes are the oldest samples of the two lines. -/
theorem frame_emits_oldest (s : State) : ∃ (e : State) (fl fr ce lfe : B32),
    s.frame.outBuf = (e.emit s.draws s.frameIdx fl fr ce lfe (Memory.peekZ s.d[0].buf s.d[0].cursor)
      (Memory.peekZ s.d[1].buf s.d[1].cursor)).outBuf := by
  obtain ⟨m, hm⟩ : ∃ m, m = midSignal s.params.mixFmt s.draws (f32OfI16 (s.readIn (2 * s.frameIdx)))
    (f32OfI16 (s.readIn (2 * s.frameIdx + 1))) := ⟨_, rfl⟩
  have hframe := congrArg State.outBuf (frame_of rfl rfl rfl hm rfl rfl rfl rfl)
  have hd : (s.tick.centre m).d = s.d := by simp
  rw [State.atFrame_outBuf, surround_uOut, surround_uOut, surround_d_other (d := 0) (i := 1) (by decide), hd] at hframe
  exact ⟨_, _, _, _, _, hframe⟩

theorem frame_readOut_rear (s : State) (d : Fin 2) : ∃ draw, s.frame.readOut (6 * s.frameIdx + (4 + d)) =
    some (sat16 draw (Memory.peekZ s.d[d].buf s.d[d].cursor)) := by
  obtain ⟨e, fl, fr, ce, lfe, hframe⟩ := frame_emits_oldest s
  refine ⟨Config.satDraw (s.draws + (14 + d)), (readOut_of_outBuf hframe).trans ?_⟩
  fin_cases d <;> simp [State.emit, readOut_writeOut]

theorem sat16_zero (draw : Sample) : sat16 draw 0#32 = 0#16 := rfl

/-- On lines whose next `k` pushes return zeros, the rear outputs of the next `k` frames are 0. -/
theorem frames_readOut_rear_zero {n k len i : Nat} {s : State} (hlen : s.delayLen = len)
    (hzero : ∀ d : Fin 2, s.d[d].ZeroFor len k) (hn : i < n) (hk : i < k) (d : Fin 2) :
    (s.frames n).readOut (6 * (s.frameIdx + i) + (4 + d)) = some 0#16 := by
  induction n generalizing s k i with
  | zero => omega
  | succ n ih =>
    obtain ⟨k, rfl⟩ := Nat.exists_eq_add_one_of_ne_zero (Nat.ne_zero_of_lt hk)
    rw [State.frames]
    cases i with
    | zero =>
      obtain ⟨draw, hrear⟩ := frame_readOut_rear s d
      rw [(hzero d).first, sat16_zero] at hrear
      rw [frames_readOut_other (.inl (by rw [State.frame_frameIdx]; omega))]
      exact hrear
    | succ i =>
      have hzero' (d : Fin 2) : s.frame.d[d].ZeroFor len k := by
        obtain ⟨t, u, hpush⟩ := frame_d s d
        rw [hpush, hlen]
        exact (hzero d).push
      have hrest := ih ((State.frame_delayLen s).trans hlen) hzero' (Nat.lt_of_succ_lt_succ hn)
        (Nat.lt_of_succ_lt_succ hk)
      rwa [State.frame_frameIdx, Nat.add_assoc, Nat.add_comm 1] at hrest

/-! ### The statements -/

/-- Settles O40: DL.CFG completes or raises, and each next state is written out. -/
theorem dlCfgSetsDelayLength : Obligations.DlCfgSetsDelayLength := fun _ =>
  ⟨exec_dlCfg_of_rate, exec_dlCfg_below⟩

/-- Settles O41: the line its index names becomes `DelayLine.zero`. -/
theorem dlClrZeroesOneLine : Obligations.DlClrZeroesOneLine := by
  intro d s hd
  have hline : (s.dlClr ⟨d.toNat, hd⟩).d[d.toNat] = DelayLine.zero := by simp [State.dlClr]
  refine ⟨_, exec_dlClr (i := ⟨d.toNat, hd⟩) s rfl, fun c => ?_, ?_, set_otherLine ⟨d.toNat, hd⟩ _ _, rfl⟩
  · rw [hline]
    rfl
  · rw [hline]
    rfl

/-- Settles O42: a push (`exec_dlPush_moves`) at a cursor within `DelayLen`. -/
theorem dlPushMovesOneSample : Obligations.DlPushMovesOneSample := by
  intro d s hd hpos hmax hcursor hwf
  obtain ⟨t, hexec, hout, hslot, hothers, hnext, hrest⟩ := exec_dlPush_moves hd (hcursor.trans_le hmax) hwf
  exact ⟨t, hexec, hout, hslot, hothers, hnext.trans (nextCursor_of_lt hcursor), hrest⟩

/-- Settles O43: a push (`exec_dlPush_moves`) whose new cursor is the free slot; then the two tests of the cursor. -/
theorem dlPushOutsideItsPremise : Obligations.DlPushOutsideItsPremise := by
  refine ⟨fun d s hd hlen hcursor hwf => ?_,
    fun d s hd hslot => exec_dlPush_of_slotAbsent (i := ⟨d.toNat, hd⟩) rfl hslot,
    fun n s hcount hinit hfresh hfit hslots => ?_⟩
  · obtain ⟨t, hexec, hout, hslot, -, hnext, hrest⟩ := exec_dlPush_moves hd hcursor hwf
    refine ⟨t, hexec, hout, hslot, ?_, hrest⟩
    rw [hnext, hlen]
    exact nextCursor_zero_lt (Nat.zero_lt_of_lt hcursor)
  · rw [exec_process_of_ready hinit hfresh hcount, State.runFrames, if_pos hfit, hslots]
    rfl

/-- Settles O44: a cleared line holds `DelayLen` zeros (`zero_holds`), which the pushes return before their own inputs
(`pushAll_of_holds`). -/
theorem delayIsExactlyDelayLen : Obligations.DelayIsExactlyDelayLen := by
  intro d s t us hd hpos hmax hclr
  obtain ⟨i, hi, rfl⟩ := exec_dlClr_next hclr
  have hline : (s.dlClr i).d[i] = DelayLine.zero := by simp [State.dlClr]
  exact pushAll_of_holds hi us (hline ▸ zero_holds hpos) List.length_replicate hmax

/-- Settles O28: the frames run from frame 0 on lines that hold `DelayLen` zeros (`frames_readOut_rear_zero`). -/
theorem rearSilentUntilDelayLen : Obligations.RearSilentUntilDelayLen := by
  intro n s t hinit hfresh hcount hrun h0 h1 i hn hlen
  rw [exec_process_of_ready hinit hfresh hcount] at hrun
  obtain ⟨-, -, rfl⟩ := runFrames_next hrun
  have hzero (d : Fin 2) : (s.atFrame 0).d[d].ZeroFor s.delayLen s.delayLen := by
    have hline : (s.atFrame 0).d[d] = DelayLine.zero := by
      obtain rfl | rfl : d = 0 ∨ d = 1 := by decide +revert
      · exact h0
      · exact h1
    exact hline ▸ zero_zeroFor (by omega)
  have hrear := frames_readOut_rear_zero (State.atFrame_delayLen s 0) hzero hn hlen
  rw [State.atFrame_frameIdx, Nat.zero_add] at hrear
  exact ⟨hrear 0, hrear 1⟩

end Sys2Proof.Machine
end

section
/-! PROOFS. A frame by its paths and its six results, and the frames of a PROCESS one by one (R145, R147, R154). -/

namespace Sys2Proof.Machine

/-! ### The paths of a frame (R147) -/

/-- The two samples `l`, `r` and the mid signal `m` of a frame from `s`, and the states `a`, `b`, `c`, `e` in which its
centre path, its two rear paths and its low-frequency path end. -/
structure State.FramePaths (s : State) (l r m : B32) (a b c e : State) : Prop where
  left : l = f32OfI16 (s.readIn (2 * s.frameIdx))
  right : r = f32OfI16 (s.readIn (2 * s.frameIdx + 1))
  mid : m = midSignal s.params.mixFmt s.draws l r
  centre : s.tick.centre m = a
  rearLeft : a.surround s.params.mixFmt (s.draws + 2) 2 3 0 1 0 (mixMul s.params.mixFmt (s.draws + 3) l kMain)
    (mixMul s.params.mixFmt (s.draws + 4) r kCross) = b
  rearRight : b.surround s.params.mixFmt (s.draws + 5) 4 5 2 3 1 (mixMul s.params.mixFmt (s.draws + 6) l kCross)
    (mixMul s.params.mixFmt (s.draws + 7) r kMain) = c
  low : c.lowEffects m = e

theorem framePaths_exists (s : State) : ∃ l r m a b c e, s.FramePaths l r m a b c e :=
  ⟨_, _, _, _, _, _, _, rfl, rfl, rfl, rfl, rfl, rfl, rfl⟩

/-- The six results of a frame in channel order, before they are saturated (R150 to R154). -/
def frameResults (F : Fmt) (t : Nat) (l r : B32) (a b c e : State) : Vector B32 6 :=
  #v[mixMul F (t + 8) l half32, mixMul F (t + 9) r half32, a.uOut, e.uOut, b.uOut, c.uOut]

theorem emit_readOut (t i : Nat) (v : Vector B32 6) (s : State) (ch : Fin 6) :
    (s.emit t i v[0] v[1] v[2] v[3] v[4] v[5]).readOut (6 * i + ch) =
      some (sat16 (Config.satDraw (t + (10 + ch))) v[ch]) := by
  fin_cases ch <;> simp [State.emit, readOut_writeOut]

section
variable {s a b c e : State} {l r m : B32}

theorem State.FramePaths.frame_eq (h : s.FramePaths l r m a b c e) :
    s.frame = (e.emit s.draws s.frameIdx (mixMul s.params.mixFmt (s.draws + 8) l half32)
      (mixMul s.params.mixFmt (s.draws + 9) r half32) a.uOut e.uOut b.uOut c.uOut).atFrame (s.frameIdx + 1) :=
  frame_of rfl h.left h.right h.mid h.centre h.rearLeft h.rearRight h.low

/-- R154: channel `ch` of a frame is its result, saturated. -/
theorem State.FramePaths.readOut (h : s.FramePaths l r m a b c e) (ch : Fin 6) :
    s.frame.readOut (6 * s.frameIdx + ch) =
      some (sat16 (Config.satDraw (s.draws + (10 + ch))) (frameResults s.params.mixFmt s.draws l r a b c e)[ch]) := by
  rw [h.frame_eq]
  exact emit_readOut s.draws s.frameIdx (frameResults s.params.mixFmt s.draws l r a b c e) e ch

theorem State.FramePaths.frame_f (h : s.FramePaths l r m a b c e) : s.frame.f = e.f := by
  rw [h.frame_eq, State.atFrame_f, State.emit_f]

end

/-! ### The frames one by one (R145) -/

section
variable {s : State} {n i : Nat}

theorem frames_add (m n : Nat) (s : State) : s.frames (m + n) = (s.frames m).frames n := by
  rw [Nat.add_comm, frames_eq_iterate, Function.iterate_add_apply, ← frames_eq_iterate, ← frames_eq_iterate]

theorem frames_succ (n : Nat) (s : State) : s.frames (n + 1) = (s.frames n).frame :=
  frames_add n 1 s

/-- What a state has and each frame keeps, every frame of a run starts with. -/
theorem frames_induction {P : State → Prop} (h0 : P s) (hframe : ∀ i < n, P (s.frames i) → P (s.frames i).frame) :
    ∀ i ≤ n, P (s.frames i) := by
  intro i hi
  induction i with
  | zero => exact h0
  | succ i ih =>
    rw [frames_succ]
    exact hframe i hi (ih (Nat.le_of_succ_le hi))

/-- What frame `i` of a run writes to `OUT`, no later frame touches. -/
theorem frames_readOut (hi : i < n) (ch : Fin 6) :
    (s.frames n).readOut (6 * (s.frameIdx + i) + ch) = (s.frames i).frame.readOut (6 * (s.frames i).frameIdx + ch) := by
  obtain ⟨k, rfl⟩ := Nat.exists_eq_add_of_lt hi
  rw [Nat.add_right_comm, frames_add, frames_succ, State.frames_frameIdx]
  exact frames_readOut_other (.inl (by rw [State.frame_frameIdx, State.frames_frameIdx]; omega))

theorem frames_readIn (n : Nat) (s : State) (j : Nat) : (s.frames n).readIn j = s.readIn j := by
  obtain ⟨-, -, -, -, -, -, -, hin, -⟩ := frames_keeps n s
  rw [State.readIn, hin, State.readIn]

/-! The frames of a PROCESS are those from frame 0 on. -/

theorem processFrame_frameIdx (s : State) (i : Nat) : ((s.atFrame 0).frames i).frameIdx = i := by
  rw [State.frames_frameIdx, State.atFrame_frameIdx, Nat.zero_add]

theorem processFrame_readIn (s : State) (i j : Nat) : ((s.atFrame 0).frames i).readIn j = s.readIn j :=
  frames_readIn i (s.atFrame 0) j

theorem process_readOut (s : State) (hi : i < n) (ch : Fin 6) :
    ((s.atFrame 0).frames n).accept.readOut (6 * i + ch) =
      ((s.atFrame 0).frames i).frame.readOut (6 * ((s.atFrame 0).frames i).frameIdx + ch) := by
  have h := frames_readOut (s := s.atFrame 0) hi ch
  rwa [State.atFrame_frameIdx, Nat.zero_add] at h

end

/-- R145: where an accepted PROCESS on a decoder that is reset and not stale completes, its frames ran from frame 0. -/
theorem process_next_of_ready {n : BitVec 32} {s t : State} (hinit : s.initialized = true) (hfresh : s.rateDirty = false)
    (hcount : 0 ≤ n.toInt) (h : exec (.process n) s = .next t) :
    s.buffersFit n.toInt.toNat = true ∧ s.slotsPresent = true ∧ t = ((s.atFrame 0).frames n.toInt.toNat).accept :=
  runFrames_next ((exec_process_of_ready hinit hfresh hcount).symm.trans h)

end Sys2Proof.Machine
end

section
/-! PROOFS. Silence through a frame: the centre path and the low-frequency path of an input whose channels cancel (R158),
and every path of an input of zeros (R159). -/

namespace Sys2Proof.Machine

/-! ### Zeros through the mixer, in either format (R149 to R153) -/

section
variable {a b c : B32}

theorem zero32_round32 {nan : B32} {v : FVal} (hv : fvalRat v = some 0) : zero32 (round32 nan v) = true :=
  zero32_iff.mpr (interchange_b32.ratIn_roundTo_zero nan hv)

theorem zero32_mixMul (F : Fmt) (t : Nat) (ha : zero32 a = true) (hb : finite32 b = true) :
    zero32 (mixMul F t a b) = true := by
  obtain ⟨q, hq⟩ := Option.isSome_iff_exists.mp hb
  have ha := zero32_iff.mp ha
  cases F with
  | b32 => exact zero32_round32 (by simpa using fvalRat_fvalMul ha hq)
  | b64 =>
    exact zero32_f32OfF64 (zero64_round64 (by
      simpa using fvalRat_fvalMul (rat64_f64OfF32 (nan64 t) ha) (rat64_f64OfF32 (nan64 t) hq)))

theorem zero32_mixAdd (F : Fmt) (t : Nat) (ha : zero32 a = true) (hb : zero32 b = true) :
    zero32 (mixAdd F t a b) = true := by
  cases F with
  | b32 => exact zero32_round32 (by simpa using fvalRat_fvalAdd (zero32_iff.mp ha) (zero32_iff.mp hb))
  | b64 => exact zero32_f32OfF64 (zero64_fadd64 (zero64_f64OfF32 ha) (zero64_f64OfF32 hb))

theorem zero32_f32OfI16 : zero32 (f32OfI16 0#16) = true :=
  zero32_iff.mpr (by simp [rat32_f32OfI16])

/-- R158: samples that cancel have a mid signal that is a zero. -/
theorem zero32_midSignal (F : Fmt) (t : Nat) {l r : Sample} (h : l.toInt + r.toInt = 0) :
    zero32 (midSignal F t (f32OfI16 l) (f32OfI16 r)) = true := by
  have hsum : (l.toInt : ℚ) + r.toInt = 0 := mod_cast h
  have hconst : finite32 kCenter = true := by decide
  cases F with
  | b32 =>
    have hzero := fvalRat_fvalAdd (rat32_f32OfI16 l) (rat32_f32OfI16 r)
    rw [hsum] at hzero
    exact zero32_mixMul .b32 t (zero32_round32 hzero) hconst
  | b64 =>
    obtain ⟨q, hq⟩ := Option.isSome_iff_exists.mp hconst
    have hzero := fvalRat_fvalAdd (rat64_f64OfF32 (nan64 (t + 1)) (rat32_f32OfI16 l))
      (rat64_f64OfF32 (nan64 (t + 1)) (rat32_f32OfI16 r))
    rw [hsum] at hzero
    have hprod := fvalRat_fvalMul (zero64_iff.mp (zero64_round64 (nan := nan64 (t + 1)) hzero))
      (rat64_f64OfF32 (nan64 t) hq)
    rw [zero_mul] at hprod
    exact zero32_f32OfF64 (zero64_round64 hprod)

/-- R89: a zero of either sign saturates to 0. -/
theorem sat16_of_zero32 (draw : Sample) (ha : zero32 a = true) : sat16 draw a = 0#16 :=
  BitVec.eq_of_toInt_eq (by simp [toInt_sat16 draw (zero32_iff.mp ha)])

end

/-! ### Zeros through an all-pass (R119, R120) -/

/-- R119: the all-pass coefficient of the next PS.APPLY is finite, whatever its occurrence numbers. -/
def PhaseState.CoefFinite (q : Params) (rate : BitVec 32) (h : PhaseState) : Prop :=
  ∀ t, finite64 (phaseCoef q.psFmt t (phaseSetUp q t rate h).wp) = true

section
variable {F : Fmt} {t : Nat} {h : PhaseState} {x : B64}

theorem zero64_roundIn {v : FVal} (hv : fvalRat v = some 0) : zero64 (roundIn F t v) = true := by
  cases F with
  | b32 => exact zero64_f64OfF32 (zero32_round32 hv)
  | b64 => exact zero64_round64 hv

theorem zero64_allPass {c lx ly : B64} (hc : finite64 c = true) (hx : zero64 x = true) (hlx : zero64 lx = true)
    (hly : zero64 ly = true) : zero64 (allPass F t c x lx ly) = true := by
  obtain ⟨p, hp⟩ := Option.isSome_iff_exists.mp hc
  have hsum : zero64 (faddIn F (t + 2) ly x) = true :=
    zero64_roundIn (by simpa using fvalRat_fvalAdd (zero64_iff.mp hly) (zero64_iff.mp hx))
  have hprod : zero64 (fmulIn F (t + 1) c (faddIn F (t + 2) ly x)) = true :=
    zero64_roundIn (by simpa using fvalRat_fvalMul hp (zero64_iff.mp hsum))
  exact zero64_roundIn (by simpa using fvalRat_fvalAdd (zero64_iff.mp hprod) (fvalRat_fvalNeg (zero64_iff.mp hlx)))

theorem phaseStages_silent {c : B64} (hc : finite64 c = true) (hx : zero64 x = true) (hh : h.silent = true) :
    (phaseStages F t c x h).silent = true ∧ zero64 (phaseStages F t c x h).ly4 = true := by
  simp only [PhaseState.silent, Bool.and_eq_true] at hh
  obtain ⟨⟨⟨⟨⟨⟨⟨hx1, hx2⟩, hx3⟩, hx4⟩, hy1⟩, hy2⟩, hy3⟩, hy4⟩ := hh
  have h1 := zero64_allPass (F := F) (t := t + 9) hc hx hx1 hy1
  have h2 := zero64_allPass (F := F) (t := t + 12) hc h1 hx2 hy2
  have h3 := zero64_allPass (F := F) (t := t + 15) hc h2 hx3 hy3
  have h4 := zero64_allPass (F := F) (t := t + 18) hc h3 hx4 hy4
  exact ⟨by simp [PhaseState.silent, phaseStages, hx, h1, h2, h3, h4], h4⟩

/-- The set-up writes no history register (R117), and the sweep advance none either (R121). -/
theorem phaseSetUp_silent (q : Params) (t : Nat) (rate : BitVec 32) (h : PhaseState) :
    (phaseSetUp q t rate h).silent = h.silent := by
  unfold phaseSetUp
  split <;> rfl

theorem sweepAdvance_silent (F : Fmt) (t : Nat) (h : PhaseState) : (sweepAdvance F t h).silent = h.silent := rfl

theorem zero64_fneg64 (hx : zero64 x = true) : zero64 (fneg64 x) = true := by
  rw [zero64_iff, rat64, fval64_fneg64]
  simpa using fvalRat_fvalNeg (zero64_iff.mp hx)

theorem zero32_phaseOutput (v : Bool) (hx : zero64 x = true) : zero32 (phaseOutput t v x) = true := by
  cases v with
  | false => exact zero32_f32OfF64 hx
  | true => exact zero32_f32OfF64 (zero64_fneg64 hx)

theorem phaseApply_silent {q : Params} {rate : BitVec 32} {u : B32} (v : Bool) (hc : h.CoefFinite q rate)
    (hh : h.silent = true) (hu : zero32 u = true) :
    zero32 (phaseApply q t rate v h u).2 = true ∧ (phaseApply q t rate v h u).1.silent = true := by
  obtain ⟨hstages, hout⟩ := phaseStages_silent (F := q.psFmt) (t := t) (hc t) (zero64_f64OfF32 (nan := nan64 (t + 8)) hu)
    ((phaseSetUp_silent q t rate h).trans hh)
  exact ⟨zero32_phaseOutput v hout, (sweepAdvance_silent ..).trans hstages⟩

end

/-! ### Zeros through a delay line (R133) -/

section
variable {l : DelayLine} {u : B32}

theorem Memory.of_peek {α : Type} {m : Memory α} {q : Nat × α → Bool} {a : Nat} {v : α} (hall : m.all q = true)
    (h : Memory.peek m a = some v) : q (a, v) = true := by
  induction m with
  | nil => cases h
  | cons e rest ih =>
    obtain ⟨b, w⟩ := e
    simp only [List.all_cons, Bool.and_eq_true] at hall
    obtain ⟨hhead, hrest⟩ := hall
    simp only [Memory.peek] at h
    split at h
    · next hb =>
      cases h
      exact hb ▸ hhead
    · exact ih hrest h

theorem zero32_peekZ (hl : l.silent = true) (c : Nat) : zero32 (Memory.peekZ l.buf c) = true := by
  cases hp : Memory.peek l.buf c with
  | none =>
    rw [Memory.peekZ, hp]
    exact zero32_f32OfI16
  | some v => simpa [Memory.peekZ, hp] using Memory.of_peek hl hp

theorem delayPush_silent {t len size : Nat} (hl : l.silent = true) (hu : zero32 u = true) :
    zero32 (delayPush t len size l u).2 = true ∧ (delayPush t len size l u).1.silent = true := by
  refine ⟨zero32_peekZ hl _, ?_⟩
  simp only [DelayLine.silent, delayPush, Memory.pokeZ] at hl ⊢
  split
  · exact Memory.all_erase _ hl
  · exact Memory.all_poke hu hl

end

/-! ### Zeros through the paths of a frame (R147) -/

section
variable {s : State} {u : B32}

theorem filter_silent {i : Fin 7} {j : Fin 4} (hk : s.k[j].finite = true) (hf : s.f[i].silent = true)
    (hu : zero32 u = true) : zero32 (s.filter i j u).uOut = true ∧ (s.filter i j u).f[i].silent = true := by
  rw [State.filter_uOut, State.filter_f, Fin.getElem_fin (s.f.set ..), Vector.getElem_set_self]
  exact (biquadApply_silent hk hf hu)

theorem filter_f_other {i i' : Fin 7} {j : Fin 4} (hne : i' ≠ i) : (s.filter i j u).f[i'] = s.f[i'] := by
  have hval : (i : Nat) ≠ i' := fun h => hne (Fin.ext h.symm)
  rw [State.filter_f, Fin.getElem_fin, Vector.getElem_set_ne _ _ hval, Fin.getElem_fin]

theorem surround_f_other {F : Fmt} {t : Nat} {fl fr i : Fin 7} {pl pr : Fin 4} {d : Fin 2} {l r : B32} (hl : i ≠ fl)
    (hr : i ≠ fr) : (s.surround F t fl fr pl pr d l r).f[i] = s.f[i] := by
  rw [State.surround, State.delay_f, State.shift_f, filter_f_other hr, State.shift_f, filter_f_other hl]

/-- R149: a zero through the silent filters of the centre path. -/
theorem centre_silent (h0 : s.k[(0 : Fin 4)].finite = true) (h1 : s.k[(1 : Fin 4)].finite = true)
    (hf0 : s.f[(0 : Fin 7)].silent = true) (hf1 : s.f[(1 : Fin 7)].silent = true) (hu : zero32 u = true) :
    zero32 (s.centre u).uOut = true ∧ (s.centre u).f[(0 : Fin 7)].silent = true ∧
      (s.centre u).f[(1 : Fin 7)].silent = true := by
  obtain ⟨a, ha⟩ : ∃ a, s.filter 0 0 u = a := ⟨_, rfl⟩
  obtain ⟨hout, hfa⟩ := filter_silent h0 hf0 hu
  have hfa1 : (s.filter 0 0 u).f[(1 : Fin 7)] = s.f[(1 : Fin 7)] := filter_f_other (by decide)
  have hka : (s.filter 0 0 u).k = s.k := State.filter_k ..
  rw [ha] at hout hfa hfa1 hka
  obtain ⟨hout', hfb⟩ := filter_silent (s := a) (i := 1) (j := 1) (hka ▸ h1) (hfa1 ▸ hf1) hout
  rw [centre_of ha rfl]
  refine ⟨hout', ?_, hfb⟩
  rwa [filter_f_other (by decide)]

end

/-! ### R158: the centre and the low-frequency path -/

/-- What R158 asks of a decoder: the three filters silent, their coefficient sets finite. -/
structure State.CentreSilent (s : State) : Prop where
  filter0 : s.f[(0 : Fin 7)].silent = true
  filter1 : s.f[(1 : Fin 7)].silent = true
  filter6 : s.f[(6 : Fin 7)].silent = true
  set0 : s.k[(0 : Fin 4)].finite = true
  set1 : s.k[(1 : Fin 4)].finite = true
  set3 : s.k[(3 : Fin 4)].finite = true

/-- Where the channels cancel the two results are zeros and the filters stay silent: the rear paths use others. -/
theorem frame_centreSilent {s : State} (h : s.CentreSilent)
    (hin : (s.readIn (2 * s.frameIdx)).toInt + (s.readIn (2 * s.frameIdx + 1)).toInt = 0) :
    s.frame.readOut (6 * s.frameIdx + 2) = some 0#16 ∧ s.frame.readOut (6 * s.frameIdx + 3) = some 0#16 ∧
      s.frame.CentreSilent := by
  obtain ⟨l, r, m, a, b, c, e, hpaths⟩ := framePaths_exists s
  have hm : zero32 m = true := by
    rw [hpaths.mid, hpaths.left, hpaths.right]
    exact zero32_midSignal _ _ hin
  obtain ⟨hce, hf0, hf1⟩ := centre_silent (s := s.tick) h.set0 h.set1 h.filter0 h.filter1 hm
  rw [hpaths.centre] at hce hf0 hf1
  have hrear (i : Fin 7) (hi : i ≠ 2 ∧ i ≠ 3 ∧ i ≠ 4 ∧ i ≠ 5) : c.f[i] = a.f[i] := by
    obtain ⟨h2, h3, h4, h5⟩ := hi
    rw [← hpaths.rearRight, surround_f_other h4 h5, ← hpaths.rearLeft, surround_f_other h2 h3]
  have ha6 : a.f[(6 : Fin 7)] = s.f[(6 : Fin 7)] := by
    rw [← hpaths.centre, State.centre, filter_f_other (by decide), filter_f_other (by decide), State.tick_f]
  have hkc : c.k = s.k := by simp [← hpaths.rearRight, ← hpaths.rearLeft, ← hpaths.centre]
  obtain ⟨hlfe, hf6⟩ := filter_silent (s := c) (i := 6) (j := 3) (hkc ▸ h.set3)
    ((hrear 6 (by decide)).trans ha6 ▸ h.filter6) hm
  have he (i : Fin 7) (hi : i ≠ 6) : e.f[i] = c.f[i] := by
    rw [← hpaths.low]
    exact filter_f_other hi
  refine ⟨?_, ?_, ?_⟩
  · exact (hpaths.readOut 2).trans (congrArg some (sat16_of_zero32 _ hce))
  · exact (hpaths.readOut 3).trans (congrArg some (sat16_of_zero32 _ (hpaths.low ▸ hlfe)))
  · exact {
      filter0 := by rw [hpaths.frame_f, he 0 (by decide), hrear 0 (by decide)]; exact hf0
      filter1 := by rw [hpaths.frame_f, he 1 (by decide), hrear 1 (by decide)]; exact hf1
      filter6 := by rw [hpaths.frame_f, ← hpaths.low]; exact hf6
      set0 := by rw [State.frame_k]; exact h.set0
      set1 := by rw [State.frame_k]; exact h.set1
      set3 := by rw [State.frame_k]; exact h.set3 }

/-- Settles O26: each frame starts with the three filters silent (`frames_induction`) and keeps them so
(`frame_centreSilent`). -/
theorem outOfPhaseInputSilencesCentre : Obligations.OutOfPhaseInputSilencesCentre := by
  intro n s t hinit hfresh hcount hrun hf0 hf1 hf6 hk0 hk1 hk3 hin
  obtain ⟨-, -, rfl⟩ := process_next_of_ready hinit hfresh hcount hrun
  have hframe (i : Nat) (hi : i < n.toInt.toNat) (hs : ((s.atFrame 0).frames i).CentreSilent) :=
    frame_centreSilent hs (by simpa only [processFrame_readIn, processFrame_frameIdx] using hin i hi)
  have hsilent := frames_induction (n := n.toInt.toNat) (s := s.atFrame 0) (P := State.CentreSilent)
    ⟨hf0, hf1, hf6, hk0, hk1, hk3⟩ fun i hi hs => by
      obtain ⟨-, -, hnext⟩ := hframe i hi hs
      exact hnext
  refine ⟨fun i hi => ?_, ?_⟩
  · obtain ⟨hce, hlfe, -⟩ := hframe i hi (hsilent i hi.le)
    exact ⟨(process_readOut s hi 2).trans hce, (process_readOut s hi 3).trans hlfe⟩
  · obtain ⟨h0, h1, h6, -⟩ := hsilent _ le_rfl
    exact ⟨h0, h1, h6⟩

end Sys2Proof.Machine
end

section
/-! PROOFS. Zeros into a silent decoder: every result of a frame is a zero, and the decoder stays silent (R159). -/

namespace Sys2Proof.Machine

/-- What R159 asks of a decoder, the all-pass coefficients apart: silent histories and lines, finite coefficient sets. -/
structure State.Silent (s : State) : Prop where
  filters : ∀ i : Fin 7, s.f[i].silent = true
  phases : ∀ i : Fin 4, s.p[i].silent = true
  lines : ∀ i : Fin 2, s.d[i].silent = true
  sets : ∀ i : Fin 4, s.k[i].finite = true

/-- A write of one unit keeps what all units have. -/
theorem forall_getElem_set {α : Type} {n : Nat} {P : α → Bool} {v : Vector α n} {i : Fin n} {x : α}
    (hv : ∀ j : Fin n, P v[j] = true) (hx : P x = true) (j : Fin n) : P (v.set i x)[j] = true := by
  rw [Fin.getElem_fin, Vector.getElem_set]
  split
  · exact hx
  · exact hv j

section
variable {s : State} {u : B32}

theorem filter_keepsSilent (i : Fin 7) (j : Fin 4) (h : s.Silent) (hu : zero32 u = true) :
    zero32 (s.filter i j u).uOut = true ∧ (s.filter i j u).Silent := by
  obtain ⟨hout, hown⟩ := biquadApply_silent (t := s.draws) (h.sets j) (h.filters i) hu
  rw [State.filter_uOut]
  exact ⟨hout, {
    filters := by rw [State.filter_f]; exact forall_getElem_set h.filters hown
    phases := by rw [State.filter_p]; exact h.phases
    lines := by rw [State.filter_d]; exact h.lines
    sets := by rw [State.filter_k]; exact h.sets }⟩

theorem shift_keepsSilent {i : Fin 4} (v : Bool) (h : s.Silent) (hc : s.p[i].CoefFinite s.params s.sampleRate)
    (hu : zero32 u = true) : zero32 (s.shift i v u).uOut = true ∧ (s.shift i v u).Silent := by
  obtain ⟨hout, hown⟩ := phaseApply_silent (t := s.draws) v hc (h.phases i) hu
  rw [State.shift_uOut]
  exact ⟨hout, {
    filters := by rw [State.shift_f]; exact h.filters
    phases := by rw [State.shift_p]; exact forall_getElem_set h.phases hown
    lines := by rw [State.shift_d]; exact h.lines
    sets := by rw [State.shift_k]; exact h.sets }⟩

theorem delay_keepsSilent (i : Fin 2) (h : s.Silent) (hu : zero32 u = true) :
    zero32 (s.delay i u).uOut = true ∧ (s.delay i u).Silent := by
  obtain ⟨hout, hown⟩ := delayPush_silent (t := s.draws) (len := s.delayLen) (size := s.params.maxDelay) (h.lines i) hu
  rw [State.delay_uOut]
  exact ⟨hout, {
    filters := by rw [State.delay_f]; exact h.filters
    phases := by rw [State.delay_p]; exact h.phases
    lines := by rw [State.delay_d]; exact forall_getElem_set h.lines hown
    sets := by rw [State.delay_k]; exact h.sets }⟩

theorem tick_keepsSilent (h : s.Silent) : s.tick.Silent := { h with }

theorem centre_keepsSilent (h : s.Silent) (hu : zero32 u = true) :
    zero32 (s.centre u).uOut = true ∧ (s.centre u).Silent := by
  obtain ⟨hout, ha⟩ := filter_keepsSilent 0 0 h hu
  exact filter_keepsSilent 1 1 ha hout

/-- R151, R152: each of the path's two phase shifters is applied once, with the registers it has before the path. -/
theorem surround_keepsSilent {F : Fmt} {t : Nat} {fl fr : Fin 7} {pl pr : Fin 4} {d : Fin 2} {l r : B32} (hne : pl ≠ pr)
    (h : s.Silent) (hcl : s.p[pl].CoefFinite s.params s.sampleRate) (hcr : s.p[pr].CoefFinite s.params s.sampleRate)
    (hl : zero32 l = true) (hr : zero32 r = true) :
    zero32 (s.surround F t fl fr pl pr d l r).uOut = true ∧ (s.surround F t fl fr pl pr d l r).Silent := by
  have hval : (pl : Nat) ≠ pr := fun h => hne (Fin.ext h)
  obtain ⟨a, ha⟩ : ∃ a, s.filter fl 2 l = a := ⟨_, rfl⟩
  obtain ⟨b, hb⟩ : ∃ b, a.shift pl true a.uOut = b := ⟨_, rfl⟩
  obtain ⟨c, hc⟩ : ∃ c, b.filter fr 2 r = c := ⟨_, rfl⟩
  obtain ⟨e, he⟩ : ∃ e, c.shift pr false c.uOut = e := ⟨_, rfl⟩
  have hca : a.p[pl].CoefFinite a.params a.sampleRate := by simpa [← ha] using hcl
  have hcc : c.p[pr].CoefFinite c.params c.sampleRate := by
    simpa [← hc, ← hb, ← ha, Vector.getElem_set_ne, hval] using hcr
  obtain ⟨houtA, hA⟩ := ha ▸ filter_keepsSilent fl 2 h hl
  obtain ⟨houtB, hB⟩ := hb ▸ shift_keepsSilent true hA hca houtA
  obtain ⟨houtC, hC⟩ := hc ▸ filter_keepsSilent fr 2 hB hr
  obtain ⟨houtE, hE⟩ := he ▸ shift_keepsSilent false hC hcc houtC
  rw [surround_of ha hb hc he rfl]
  exact delay_keepsSilent d hE (zero32_mixAdd F t houtB houtE)

/-- R159 for one frame. -/
theorem frame_silent (h : s.Silent) (hc : ∀ i : Fin 4, s.p[i].CoefFinite s.params s.sampleRate)
    (hl : s.readIn (2 * s.frameIdx) = 0#16) (hr : s.readIn (2 * s.frameIdx + 1) = 0#16) :
    (∀ ch : Fin 6, s.frame.readOut (6 * s.frameIdx + ch) = some 0#16) ∧ s.frame.Silent := by
  obtain ⟨l, r, m, a, b, c, e, hpaths⟩ := framePaths_exists s
  have hl32 : zero32 l = true := by rw [hpaths.left, hl]; exact zero32_f32OfI16
  have hr32 : zero32 r = true := by rw [hpaths.right, hr]; exact zero32_f32OfI16
  have hm : zero32 m = true := by
    rw [hpaths.mid, hpaths.left, hpaths.right, hl, hr]
    exact zero32_midSignal _ _ rfl
  have hmix (t : Nat) {x k : B32} (hx : zero32 x = true) (hk : finite32 k = true) :
      zero32 (mixMul s.params.mixFmt t x k) = true := zero32_mixMul _ t hx hk
  have hmain : finite32 kMain = true := by decide
  have hcross : finite32 kCross = true := by decide
  have hhalf : finite32 half32 = true := by decide
  obtain ⟨houtA, hA⟩ := hpaths.centre ▸ centre_keepsSilent (tick_keepsSilent h) hm
  have hca (i : Fin 4) : a.p[i].CoefFinite a.params a.sampleRate := by simpa [← hpaths.centre] using hc i
  obtain ⟨houtB, hB⟩ := hpaths.rearLeft ▸
    surround_keepsSilent (by decide) hA (hca 0) (hca 1) (hmix _ hl32 hmain) (hmix _ hr32 hcross)
  have hcb {i : Fin 4} (h0 : i ≠ 0) (h1 : i ≠ 1) : b.p[i].CoefFinite b.params b.sampleRate := by
    rw [← hpaths.rearLeft, surround_p_other h0 h1, State.surround_params, State.surround_sampleRate]
    exact hca i
  obtain ⟨houtC, hC⟩ := hpaths.rearRight ▸
    surround_keepsSilent (by decide) hB (hcb (by decide) (by decide)) (hcb (by decide) (by decide))
      (hmix _ hl32 hcross) (hmix _ hr32 hmain)
  have hlow : c.filter 6 3 m = e := hpaths.low
  obtain ⟨houtE, hE⟩ := hlow ▸ filter_keepsSilent 6 3 hC hm
  have hresults (ch : Fin 6) : zero32 (frameResults s.params.mixFmt s.draws l r a b c e)[ch] = true := by
    fin_cases ch
    exacts [hmix _ hl32 hhalf, hmix _ hr32 hhalf, houtA, houtE, houtB, houtC]
  refine ⟨fun ch => ?_, ?_⟩
  · rw [hpaths.readOut ch, sat16_of_zero32 _ (hresults ch)]
  · rw [hpaths.frame_eq]
    exact { filters := by simpa using hE.filters, phases := by simpa using hE.phases,
            lines := by simpa using hE.lines, sets := by simpa using hE.sets }

end

/-- Settles O27: each frame starts silent (`frames_induction`), and a silent one writes zeros and ends silent
(`frame_silent`). -/
theorem silenceStaysSilent : Obligations.SilenceStaysSilent := by
  intro n s t hinit hfresh hcount hrun hf hp hd hk hin hcoef
  obtain ⟨-, -, rfl⟩ := process_next_of_ready hinit hfresh hcount hrun
  have hframe (i : Nat) (hi : i < n.toInt.toNat) (hs : ((s.atFrame 0).frames i).Silent) :=
    frame_silent hs (fun j q => by simpa using hcoef i hi j q)
      (by simpa only [processFrame_readIn, processFrame_frameIdx] using hin (2 * i) (by omega))
      (by simpa only [processFrame_readIn, processFrame_frameIdx] using hin (2 * i + 1) (by omega))
  have hsilent := frames_induction (n := n.toInt.toNat) (s := s.atFrame 0) (P := State.Silent) ⟨hf, hp, hd, hk⟩
    fun i hi hs => (hframe i hi hs).2
  refine ⟨fun j hj => ?_, ?_⟩
  · obtain ⟨i, ch, rfl⟩ : ∃ (i : Nat) (ch : Fin 6), j = 6 * i + ch :=
      ⟨j / 6, ⟨j % 6, Nat.mod_lt _ (by decide)⟩, (Nat.div_add_mod j 6).symm⟩
    have hi : i < n.toInt.toNat := by omega
    exact (process_readOut s hi ch).trans ((hframe i hi (hsilent i hi.le)).1 ch)
  · obtain ⟨hfilters, hphases, hlines, -⟩ := hsilent _ le_rfl
    exact ⟨hfilters, hphases, hlines⟩

end Sys2Proof.Machine
end

section
/-! PROOFS. The host commands (44_decoder_commands.md): SETRATE (R142), the words of the two microprograms (R144, R147),
RESET as its words (R143), the implicit reset (R146) and `PROCESS 0` (R155). -/

namespace Sys2Proof.Machine

/-! ### SETRATE and the words -/

theorem exec_setrate_of_pos {rate : BitVec 32} (s : State) (h : 0 < rate.toInt) :
    exec (.setrate rate) s = .next (s.storeRate rate).accept := by
  have hok : rateRejected rate = false := by simpa [rateRejected] using h
  simp only [exec, execSetrate, hok, Bool.false_eq_true, if_false]

theorem exec_setrate_of_nonpos {rate : BitVec 32} (s : State) (h : rate.toInt ≤ 0) :
    exec (.setrate rate) s = .next (s.raise .eRate) := by
  have hbad : rateRejected rate = true := by simpa [rateRejected] using h
  simp only [exec, execSetrate, hbad, if_true]

/-- Settles O14: SETRATE stores or raises, and each next state is written out. -/
theorem setrateStoresOrRejects : Obligations.SetrateStoresOrRejects := fun _ s =>
  ⟨exec_setrate_of_pos s, exec_setrate_of_nonpos s⟩

/-- Settles O4, by decoding the 31 words. -/
theorem microprogramWordsDecode : Obligations.MicroprogramWordsDecode := by
  unfold Obligations.MicroprogramWordsDecode
  decide

/-- Settles O23: the frame in either format (`frame_issues`), with the binary32 mixer written out. -/
theorem frameIssuesItsMicroprogram : Obligations.FrameIssuesItsMicroprogram := by
  rintro s _ l r hbus hslots hF rfl hl hr
  have h := frame_issues hF hbus hslots hl hr
  simpa only [midSignal_b32, mixMul_b32, mixAdd_b32] using h

/-! ### The word of R67 for each of RESET's indexed operations -/

theorem decodeU16_bqHpc (k : Fin 4) :
    decodeU16 (u16 0x1 0x2 (BitVec.ofNat 4 k) 0) = .ok (.bqHpc (BitVec.ofNat 4 k)) := by
  decide +revert

theorem decodeU16_bqLpc (k : Fin 4) :
    decodeU16 (u16 0x1 0x1 (BitVec.ofNat 4 k) 0) = .ok (.bqLpc (BitVec.ofNat 4 k)) := by
  decide +revert

theorem decodeU16_bqClr (f : Fin 7) :
    decodeU16 (u16 0x1 0x0 (BitVec.ofNat 4 f) 0) = .ok (.bqClr (BitVec.ofNat 4 f)) := by
  decide +revert

theorem decodeU16_psClr (p : Fin 4) :
    decodeU16 (u16 0x2 0x0 (BitVec.ofNat 4 p) 0) = .ok (.psClr (BitVec.ofNat 4 p)) := by
  decide +revert

theorem decodeU16_dlClr (d : Fin 2) :
    decodeU16 (u16 0x3 0x0 (BitVec.ofNat 4 d) 0) = .ok (.dlClr (BitVec.ofNat 4 d)) := by
  decide +revert

/-! ### RESET as its words (R143, R144) -/

/-- From `s`, with an idle unit bus, issuing the words `ws` one step each ends in `t`, with an idle unit bus. -/
def Issues (ws : List UnitWord) (s t : State) : Prop :=
  s.unitBus = [] → ws.foldlM issueWord s = some t ∧ t.unitBus = []

section
variable {s t u : State} {w : UnitWord} {ws : List UnitWord} {i : Instr}

theorem Issues.nil : Issues [] s s := fun hbus => ⟨rfl, hbus⟩

theorem Issues.cons (hd : decodeU16 w = .ok i) (hx : exec i s = .next t) (hkeeps : t.unitBus = s.unitBus)
    (h : Issues ws t u) : Issues (w :: ws) s u := by
  intro hbus
  have hissue : issueWord s w = some t := issueWith_of_exec (u := s.uIn) hbus hd hx
  rw [List.foldlM_cons, hissue]
  exact h (hkeeps.trans hbus)

theorem Issues.dlCfg (hrate : 50 ≤ s.sampleRate.toInt)
    (h : Issues ws (s.withDelayLen (delayLength s.params.maxDelay s.sampleRate)) u) : Issues (0x3100 :: ws) s u :=
  .cons (by decide) (exec_dlCfg_of_rate hrate) rfl h

theorem Issues.bqHpc (k : Fin 4) (h : Issues ws (s.bqHpc k) u) :
    Issues (u16 0x1 0x2 (BitVec.ofNat 4 k) 0 :: ws) s u :=
  .cons (decodeU16_bqHpc k) (exec_bqHpc s (toNat_ofNat_index k (by decide))) rfl h

theorem Issues.bqLpc (k : Fin 4) (h : Issues ws (s.bqLpc k) u) :
    Issues (u16 0x1 0x1 (BitVec.ofNat 4 k) 0 :: ws) s u :=
  .cons (decodeU16_bqLpc k) (exec_bqLpc s (toNat_ofNat_index k (by decide))) rfl h

theorem Issues.bqClr (f : Fin 7) (h : Issues ws (s.bqClr f) u) :
    Issues (u16 0x1 0x0 (BitVec.ofNat 4 f) 0 :: ws) s u :=
  .cons (decodeU16_bqClr f) (exec_bqClr s (toNat_ofNat_index f (by decide))) rfl h

theorem Issues.psClr (p : Fin 4) (h : Issues ws (s.psClr p) u) :
    Issues (u16 0x2 0x0 (BitVec.ofNat 4 p) 0 :: ws) s u :=
  .cons (decodeU16_psClr p) (exec_psClr s (toNat_ofNat_index p (by decide))) rfl h

theorem Issues.dlClr (d : Fin 2) (h : Issues ws (s.dlClr d) u) :
    Issues (u16 0x3 0x0 (BitVec.ofNat 4 d) 0 :: ws) s u :=
  .cons (decodeU16_dlClr d) (exec_dlClr s (toNat_ofNat_index d (by decide))) rfl h

variable (s)

/-- Every unit as RESET leaves it, in the order of R144: `RESET_BODY` but for DL.CFG before it and the two flags after. -/
def State.resetUnits : State :=
  let s := (((s.bqHpc 0).bqLpc 1).bqHpc 2).bqLpc 3
  let s := ((((((s.bqClr 0).bqClr 1).bqClr 2).bqClr 3).bqClr 4).bqClr 5).bqClr 6
  let s := (((s.psClr 0).psClr 1).psClr 2).psClr 3
  (s.dlClr 0).dlClr 1

variable {s}

/-- R144: the 18 words, each running its operation of the reset body. -/
theorem resetWords_issue (hrate : 50 ≤ s.sampleRate.toInt) :
    Issues resetWords s (s.withDelayLen (delayLength s.params.maxDelay s.sampleRate)).resetUnits :=
  .dlCfg hrate <| .bqHpc 0 <| .bqLpc 1 <| .bqHpc 2 <| .bqLpc 3 <|
    .bqClr 0 <| .bqClr 1 <| .bqClr 2 <| .bqClr 3 <| .bqClr 4 <| .bqClr 5 <| .bqClr 6 <|
    .psClr 0 <| .psClr 1 <| .psClr 2 <| .psClr 3 <| .dlClr 0 <| .dlClr 1 .nil

theorem exec_reset_eq_resetUnits (hrate : 50 ≤ s.sampleRate.toInt) : exec .reset s =
    .next (s.withDelayLen (delayLength s.params.maxDelay s.sampleRate)).resetUnits.markReset.accept := by
  simp only [exec, execReset, State.resetBody, dlCfg_some (zeroDelay_eq_false_iff.mpr hrate), State.resetUnits]

theorem resetUnits_control (s : State) : s.resetUnits.status = s.status ∧ s.resetUnits.cpc = s.cpc := by
  simp [State.resetUnits, State.dlClr, State.psClr, State.bqClr, State.bqLpc, State.bqHpc]

theorem markReset_accept {u : State} (hstatus : u.status = s.status) (hcpc : u.cpc = s.cpc) : u.markReset.accept =
    { u with initialized := true, rateDirty := false, response := some ⟨false, 0#3, s.status⟩, cpc := s.cpc + 1 } := by
  rw [← hstatus, ← hcpc]
  rfl

/-- R171: below 50 Hz RESET is rejected. -/
theorem exec_reset_below (hrate : s.sampleRate.toInt < 50) : exec .reset s = .next (s.raise .eZeroDelay) := by
  have hz : zeroDelay s.sampleRate = true :=
    Bool.of_not_eq_false (mt zeroDelay_eq_false_iff.mp (not_le.mpr hrate))
  simp only [exec, execReset, resetBody_none.mpr hz]

end

/-- Settles O16: the 18 words run the reset body (`resetWords_issue`); below 50 Hz RESET and its first word raise the
same exception. -/
theorem resetRunsItsMicroprogram : Obligations.ResetRunsItsMicroprogram := by
  refine fun s hbus => ⟨fun hrate => ?_, fun hrate => ?_⟩
  · obtain ⟨hissue, -⟩ := resetWords_issue hrate hbus
    obtain ⟨hstatus, hcpc⟩ := resetUnits_control (s.withDelayLen (delayLength s.params.maxDelay s.sampleRate))
    exact ⟨_, hissue, (exec_reset_eq_resetUnits hrate).trans (congrArg _ (markReset_accept hstatus hcpc))⟩
  · have hstep : step { s with unitBus := [0x3100#16] } = exec .dlCfg { s with unitBus := [] } :=
      step_of_unitWord rfl (by decide)
    rw [exec_reset_below hrate, hstep, exec_dlCfg_below (s := { s with unitBus := [] }) hrate]
    rfl

/-! ### The implicit reset (R146) and `PROCESS 0` (R155) -/

section
variable {s : State}

theorem frameCount_eq_zero_iff {n : BitVec 32} (hcount : 0 ≤ n.toInt) : frameCount n = 0 ↔ n = 0#32 := by
  rw [frameCount, ← BitVec.toInt_inj, BitVec.toInt_zero]
  omega

/-- R146: on a never-reset decoder PROCESS runs its frames from what the reset body leaves. -/
theorem exec_process_of_neverReset {n : BitVec 32} (hinit : s.initialized = false) (hcount : 0 ≤ n.toInt)
    (hn : n ≠ 0#32 ∨ s.params.p0Resets = true) (hrate : 50 ≤ s.sampleRate.toInt) :
    exec (.process n) s = s.afterResetBody.runFrames n.toInt.toNat := by
  have hbody := resetBody_of_zeroDelay (zeroDelay_eq_false_iff.mpr hrate)
  obtain ⟨hc, -⟩ | ⟨-, hs, -⟩ | ⟨-, -, hi, -⟩ | ⟨-, -, h0, hp, -⟩ | ⟨-, -, -, hr, -⟩ | ⟨-, -, -, r, hr, hx⟩ :=
    execProcess_cases n s
  · rw [countRejected, decide_eq_true_eq] at hc
    omega
  · simp [State.stale, hinit] at hs
  · simp [hinit] at hi
  · simp [(frameCount_eq_zero_iff hcount).mp h0, hp] at hn
  · simp [hbody] at hr
  · cases hbody.symm.trans hr
    exact hx

theorem runFrames_completes {n : Nat} (hfit : s.buffersFit n = true) (hslots : s.slotsPresent = true) :
    s.runFrames n = .next ((s.atFrame 0).frames n).accept := by
  rw [State.runFrames, if_pos hfit, if_pos hslots]

/-- R155: a count of 0 needs no buffer; it sets the frame counter and answers. -/
theorem runFrames_zero (hslots : s.slotsPresent = true) : s.runFrames 0 = .next (s.atFrame 0).accept :=
  runFrames_completes (by simp [State.buffersFit, Memory.listedFrom]) hslots

end

/-- Settles O19: both sides are the frames from the state the reset body leaves. -/
theorem firstProcessActsAsResetThenProcess : Obligations.FirstProcessActsAsResetThenProcess := by
  intro n s r hinit hcount hn hrate hr
  cases (exec_reset_of_rate hrate).symm.trans hr
  have hback : ({ s.afterResetBody.accept with response := s.response, cpc := s.cpc } : State) = s.afterResetBody := rfl
  rw [hback, exec_process_of_neverReset hinit hcount hn hrate, exec_process_of_ready rfl rfl hcount]

/-- Settles O20: `runFrames_zero` on the state itself or on the one the reset body leaves; with `P0_RESETS` false the
response alone. -/
theorem processZeroRunsNoFrame : Obligations.ProcessZeroRunsNoFrame := by
  refine fun s => ⟨fun hinit hfresh hslots => ?_, fun hinit hp hvalid hrate => ?_, fun hinit hp => ?_⟩
  · exact (exec_process_of_ready hinit hfresh le_rfl).trans (runFrames_zero hslots)
  · have hslots := processStart_slotsPresent (s := s) (by simp [hinit]) hvalid
    rw [processStart_of_neverReset hinit] at hslots
    refine ⟨_, exec_reset_of_rate hrate, ?_⟩
    exact (exec_process_of_neverReset hinit le_rfl (.inr hp) hrate).trans (runFrames_zero hslots)
  · simp [exec, execProcess, countRejected, State.stale, hinit, frameCount, hp, State.accept]

end Sys2Proof.Machine
end

section
/-! PROOFS. The front outputs are half the inputs, truncated toward zero, in either format of the mixer (R150). -/

namespace Sys2Proof.Machine

/-! ### Half a sample is exact in both formats (R81, R150) -/

section
variable {F : FloatFormat} {n : Nat} {q : ℚ}

/-- A number that the format has is the only one nearest to itself. -/
theorem Interchange.ratIn_roundTo_of_ratIn (hF : Interchange F n) {x : BitVec n} (hx : ratIn F x = some q)
    (hover : |q| < overflowFrom F) (nan : BitVec n) {v : FVal} (hv : fvalRat v = some q) :
    ratIn F (roundTo F nan v) = some q := by
  obtain ⟨hlo, hhi⟩ := abs_lt.mp hover
  have hround := hF.roundsIn (nan := nan) hv
  rw [RoundsIn, if_neg (not_le.mpr hhi), if_neg (not_le.mpr hlo)] at hround
  obtain ⟨w, hw, hnearest⟩ := hround
  obtain ⟨hle, -⟩ := hnearest x q hx
  rw [sub_self, abs_zero, abs_nonpos_iff, sub_eq_zero] at hle
  rw [hw, hle]

/-- Half a sample fits a format with 16 fraction bits. -/
theorem Interchange.ratIn_roundTo_half (hF : Interchange F n) (hfrac : 16 ≤ F.fracBits) (hexp : minExp F ≤ -1)
    (hover : 2 ^ 100 < overflowFrom F) (v : Sample) (nan : BitVec n) {x : FVal}
    (hx : fvalRat x = some (v.toInt / 2 : ℚ)) : ratIn F (roundTo F nan x) = some (v.toInt / 2 : ℚ) := by
  have hlo := v.le_toInt
  have hhi := v.toInt_lt
  have habs : (v.toInt.natAbs : ℚ) ≤ 2 ^ 15 := mod_cast (by omega : v.toInt.natAbs ≤ 2 ^ 15)
  have hsmall : (v.toInt.natAbs : ℚ) * 2 ^ (-1 : ℤ) < overflowFrom F := by
    refine lt_trans ?_ hover
    norm_num at habs ⊢
    linarith
  have hm : v.toInt.natAbs < 2 ^ (F.fracBits + 1) :=
    lt_of_lt_of_le (by omega : _ < 2 ^ 16) (Nat.pow_le_pow_right two_pos (by omega))
  have hhalf := hF.ratIn_roundTo_exact nan (decide (v.toInt < 0)) hm hexp hsmall
  rw [signFactor_mul_natAbs, zpow_neg_one, ← div_eq_mul_inv] at hhalf
  refine hF.ratIn_roundTo_of_ratIn hhalf ?_ nan hx
  rwa [abs_div, ← Int.cast_abs, Int.abs_eq_natAbs, Int.cast_natCast, abs_two, div_eq_mul_inv, ← zpow_neg_one]

end

/-- R93: `HALF` is exact. -/
theorem rat32_half32 : rat32 half32 = some (1 / 2) := by
  obtain ⟨-, -, -, h⟩ := matrixConstantsAreNearest
  exact h

/-- R150: the product of a sample and `HALF` takes no rounding in either format. -/
theorem rat32_mixMul_half (F : Fmt) (t : Nat) (v : Sample) :
    rat32 (mixMul F t (f32OfI16 v) half32) = some (v.toInt / 2 : ℚ) := by
  have hnarrow {nan : B32} {x : FVal} : fvalRat x = some (v.toInt / 2 : ℚ) → rat32 (round32 nan x) = some (v.toInt / 2 : ℚ) :=
    interchange_b32.ratIn_roundTo_half (by decide) (by decide) two_pow_lt_overflowFrom_b32 v nan
  cases F with
  | b32 =>
    have hprod := fvalRat_fvalMul (rat32_f32OfI16 v) rat32_half32
    rw [mul_one_div] at hprod
    exact hnarrow hprod
  | b64 =>
    have hprod := fvalRat_fvalMul (rat64_f64OfF32 (nan64 t) (rat32_f32OfI16 v)) (rat64_f64OfF32 (nan64 t) rat32_half32)
    rw [mul_one_div] at hprod
    exact hnarrow (interchange_b64.ratIn_roundTo_half (by decide) (by decide)
      (lt_trans (by norm_num) two_pow_lt_overflowFrom_b64) v (nan64 t) hprod)

/-! ### And saturates to the half truncated toward zero (R89) -/

theorem tdiv_num_den_half (z : ℤ) : (z / 2 : ℚ).num.tdiv (z / 2 : ℚ).den = z.tdiv 2 := by
  have hden : (0 : ℤ) < (z / 2 : ℚ).den := mod_cast (z / 2 : ℚ).den_pos
  have hcross : (z / 2 : ℚ).num * 2 = z * (z / 2 : ℚ).den := by
    have h := Rat.mul_den_eq_num (z / 2 : ℚ)
    have h' : ((z / 2 : ℚ).num : ℚ) * 2 = z * (z / 2 : ℚ).den := by
      rw [← h]
      ring
    exact_mod_cast h'
  calc (z / 2 : ℚ).num.tdiv (z / 2 : ℚ).den
      = ((z / 2 : ℚ).num * 2).tdiv ((z / 2 : ℚ).den * 2) := (Int.mul_tdiv_mul_of_pos_left _ _ two_pos).symm
    _ = (z * (z / 2 : ℚ).den).tdiv (2 * (z / 2 : ℚ).den) := by rw [hcross, mul_comm 2]
    _ = z.tdiv 2 := Int.mul_tdiv_mul_of_pos_left _ _ hden

theorem sat16_mixMul_half (F : Fmt) (t : Nat) (draw v : Sample) :
    sat16 draw (mixMul F t (f32OfI16 v) half32) = BitVec.ofInt 16 (v.toInt.tdiv 2) := by
  have hlo := v.le_toInt
  have hhi := v.toInt_lt
  have hhalf : (v.toInt.tdiv 2).natAbs = v.toInt.natAbs / 2 := Int.natAbs_tdiv v.toInt 2
  have hsat := toInt_sat16 draw (rat32_mixMul_half F t v)
  rw [tdiv_num_den_half] at hsat
  refine BitVec.eq_of_toInt_eq ?_
  rw [hsat, toInt_ofInt_sample] <;> omega

theorem frame_fronts (s : State) :
    s.frame.readOut (6 * s.frameIdx) = some (BitVec.ofInt 16 ((s.readIn (2 * s.frameIdx)).toInt.tdiv 2)) ∧
    s.frame.readOut (6 * s.frameIdx + 1) = some (BitVec.ofInt 16 ((s.readIn (2 * s.frameIdx + 1)).toInt.tdiv 2)) := by
  obtain ⟨l, r, m, a, b, c, e, hpaths⟩ := framePaths_exists s
  obtain rfl := hpaths.left
  obtain rfl := hpaths.right
  exact ⟨(hpaths.readOut 0).trans (congrArg some (sat16_mixMul_half ..)),
    (hpaths.readOut 1).trans (congrArg some (sat16_mixMul_half ..))⟩

/-- Settles O25: the frames run from `processStart`, which keeps `IN`, and each writes the two halves (`frame_fronts`). -/
theorem frontsAreHalvedInputs : Obligations.FrontsAreHalvedInputs := by
  intro n s t hacc hrun i hi
  have hn : n ≠ 0#32 := by
    rintro rfl
    simp at hi
  rw [exec_process_of_accepts hacc hn] at hrun
  obtain ⟨-, -, rfl⟩ := runFrames_next hrun
  obtain ⟨-, -, -, hin, -⟩ := processStart_keeps s
  have hread (j : Nat) : ((s.processStart.atFrame 0).frames i).readIn j = s.readIn j := by
    rw [processFrame_readIn, State.readIn, hin, State.readIn]
  obtain ⟨hleft, hright⟩ := frame_fronts ((s.processStart.atFrame 0).frames i)
  rw [hread, processFrame_frameIdx] at hleft hright
  have hout := process_readOut s.processStart hi
  simp only [processFrame_frameIdx] at hout
  exact ⟨(hout 0).trans hleft, (hout 1).trans hright⟩

end Sys2Proof.Machine
end

section
/-! PROOFS. A frame depends on the units, the rate, the parameters, the draws and its two samples alone; so PROCESS may be
split (R156), and RESET erases all history (R157). -/

namespace Sys2Proof.Machine

/-! ### Two states that a frame cannot tell apart -/

/-- `s'` agrees with `s` in all that a frame reads, its two samples apart. -/
structure SameUnits (s s' : State) : Prop where
  params : s'.params = s.params
  sampleRate : s'.sampleRate = s.sampleRate
  delayLen : s'.delayLen = s.delayLen
  k : s'.k = s.k
  f : s'.f = s.f
  p : s'.p = s.p
  d : s'.d = s.d
  draws : s'.draws = s.draws

/-- And in the result of the last micro-operation. -/
structure SameResult (s s' : State) : Prop extends SameUnits s s' where
  uOut : s'.uOut = s.uOut

section
variable {s s' : State}

theorem filter_sameResult (h : SameUnits s s') (i : Fin 7) (j : Fin 4) (u : B32) :
    SameResult (s.filter i j u) (s'.filter i j u) := by
  obtain ⟨hparams, hrate, hlen, hk, hf, hp, hd, hdraws⟩ := h
  constructor
  · constructor <;> simp [hparams, hrate, hlen, hk, hf, hp, hd, hdraws]
  · simp [hk, hf, hdraws]

theorem shift_sameResult (h : SameUnits s s') (i : Fin 4) (v : Bool) (u : B32) :
    SameResult (s.shift i v u) (s'.shift i v u) := by
  obtain ⟨hparams, hrate, hlen, hk, hf, hp, hd, hdraws⟩ := h
  constructor
  · constructor <;> simp [hparams, hrate, hlen, hk, hf, hp, hd, hdraws]
  · simp [hparams, hrate, hp, hdraws]

theorem delay_sameResult (h : SameUnits s s') (i : Fin 2) (u : B32) : SameResult (s.delay i u) (s'.delay i u) := by
  obtain ⟨hparams, hrate, hlen, hk, hf, hp, hd, hdraws⟩ := h
  constructor
  · constructor <;> simp [hparams, hrate, hlen, hk, hf, hp, hd, hdraws]
  · simp [hparams, hlen, hd, hdraws]

theorem tick_sameUnits (h : SameUnits s s') : SameUnits s.tick s'.tick :=
  { h with draws := congrArg (· + drawStride) h.draws }

theorem centre_sameResult (h : SameUnits s s') (m : B32) : SameResult (s.centre m) (s'.centre m) := by
  have ha := filter_sameResult h 0 0 m
  rw [State.centre, State.centre, ha.uOut]
  exact filter_sameResult ha.toSameUnits 1 1 _

theorem surround_sameResult (h : SameUnits s s') (F : Fmt) (t : Nat) (fl fr : Fin 7) (pl pr : Fin 4) (d : Fin 2)
    (l r : B32) : SameResult (s.surround F t fl fr pl pr d l r) (s'.surround F t fl fr pl pr d l r) := by
  obtain ⟨a, ha⟩ : ∃ a, s.filter fl 2 l = a := ⟨_, rfl⟩
  obtain ⟨b, hb⟩ : ∃ b, a.shift pl true a.uOut = b := ⟨_, rfl⟩
  obtain ⟨c, hc⟩ : ∃ c, b.filter fr 2 r = c := ⟨_, rfl⟩
  obtain ⟨e, he⟩ : ∃ e, c.shift pr false c.uOut = e := ⟨_, rfl⟩
  obtain ⟨a', ha'⟩ : ∃ a', s'.filter fl 2 l = a' := ⟨_, rfl⟩
  obtain ⟨b', hb'⟩ : ∃ b', a'.shift pl true a'.uOut = b' := ⟨_, rfl⟩
  obtain ⟨c', hc'⟩ : ∃ c', b'.filter fr 2 r = c' := ⟨_, rfl⟩
  obtain ⟨e', he'⟩ : ∃ e', c'.shift pr false c'.uOut = e' := ⟨_, rfl⟩
  have hA : SameResult a a' := ha ▸ ha' ▸ filter_sameResult h fl 2 l
  have hB : SameResult b b' := by
    rw [← hb, ← hb', hA.uOut]
    exact shift_sameResult hA.toSameUnits pl true _
  have hC : SameResult c c' := hc ▸ hc' ▸ filter_sameResult hB.toSameUnits fr 2 r
  have hE : SameResult e e' := by
    rw [← he, ← he', hC.uOut]
    exact shift_sameResult hC.toSameUnits pr false _
  rw [surround_of ha hb hc he rfl, surround_of ha' hb' hc' he' rfl, hB.uOut, hE.uOut]
  exact delay_sameResult hE.toSameUnits d _

theorem SameUnits.decoder_eq (h : SameUnits s s') (hinit : s'.initialized = s.initialized)
    (hdirty : s'.rateDirty = s.rateDirty) : s'.decoder = s.decoder := by
  simp only [State.decoder, h.sampleRate, hinit, hdirty, h.delayLen, h.k, h.f, h.p, h.d]

/-! ### Frames (R147) -/

/-- On the same two samples they have the same results and end alike. -/
theorem frame_sameUnits (h : SameUnits s s') (hl : s'.readIn (2 * s'.frameIdx) = s.readIn (2 * s.frameIdx))
    (hr : s'.readIn (2 * s'.frameIdx + 1) = s.readIn (2 * s.frameIdx + 1)) :
    SameUnits s.frame s'.frame ∧
    ∀ ch : Fin 6, s'.frame.readOut (6 * s'.frameIdx + ch) = s.frame.readOut (6 * s.frameIdx + ch) := by
  obtain ⟨l, r, m, a, b, c, e, hpaths⟩ := framePaths_exists s
  obtain ⟨l', r', m', a', b', c', e', hpaths'⟩ := framePaths_exists s'
  obtain rfl : l' = l := by rw [hpaths.left, hpaths'.left, hl]
  obtain rfl : r' = r := by rw [hpaths.right, hpaths'.right, hr]
  obtain rfl : m' = m := by rw [hpaths.mid, hpaths'.mid, h.params, h.draws]
  have hA : SameResult a a' := hpaths.centre ▸ hpaths'.centre ▸ centre_sameResult (tick_sameUnits h) m'
  have hB : SameResult b b' := by
    rw [← hpaths.rearLeft, ← hpaths'.rearLeft, h.params, h.draws]
    exact surround_sameResult hA.toSameUnits ..
  have hC : SameResult c c' := by
    rw [← hpaths.rearRight, ← hpaths'.rearRight, h.params, h.draws]
    exact surround_sameResult hB.toSameUnits ..
  have hE : SameResult e e' := hpaths.low ▸ hpaths'.low ▸ filter_sameResult hC.toSameUnits 6 3 m'
  have hresults : frameResults s'.params.mixFmt s'.draws l' r' a' b' c' e' =
      frameResults s.params.mixFmt s.draws l' r' a b c e := by
    simp only [frameResults, h.params, h.draws, hA.uOut, hB.uOut, hC.uOut, hE.uOut]
  refine ⟨?_, fun ch => ?_⟩
  · rw [hpaths.frame_eq, hpaths'.frame_eq]
    constructor <;> simp [hE.params, hE.sampleRate, hE.delayLen, hE.k, hE.f, hE.p, hE.d, hE.draws]
  · rw [hpaths.readOut, hpaths'.readOut, hresults, h.draws]

section
variable {n i : Nat} (h : SameUnits s s')
  (hin : ∀ j < 2 * n, s'.readIn (2 * s'.frameIdx + j) = s.readIn (2 * s.frameIdx + j))
include hin

/-- Frame `i` of two runs on the same samples. -/
theorem frameOfRun_sameUnits (hi : i < n) (h : SameUnits (s.frames i) (s'.frames i)) :
    SameUnits (s.frames i).frame (s'.frames i).frame ∧ ∀ ch : Fin 6,
      (s'.frames i).frame.readOut (6 * (s'.frames i).frameIdx + ch) =
        (s.frames i).frame.readOut (6 * (s.frames i).frameIdx + ch) := by
  have hl := hin (2 * i) (by omega)
  have hr := hin (2 * i + 1) (by omega)
  refine frame_sameUnits h ?_ ?_
  · simpa only [frames_readIn, State.frames_frameIdx, Nat.mul_add] using hl
  · simpa only [frames_readIn, State.frames_frameIdx, Nat.mul_add, Nat.add_assoc] using hr

include h

theorem frames_sameUnits (hi : i ≤ n) : SameUnits (s.frames i) (s'.frames i) := by
  induction i with
  | zero => exact h
  | succ i ih =>
    rw [frames_succ, frames_succ]
    exact (frameOfRun_sameUnits hin hi (ih (Nat.le_of_succ_le hi))).1

theorem frames_sameOutput {j : Nat} (hj : j < 6 * n) :
    (s'.frames n).readOut (6 * s'.frameIdx + j) = (s.frames n).readOut (6 * s.frameIdx + j) := by
  obtain ⟨i, ch, rfl⟩ : ∃ (i : Nat) (ch : Fin 6), j = 6 * i + ch :=
    ⟨j / 6, ⟨j % 6, Nat.mod_lt _ (by decide)⟩, (Nat.div_add_mod j 6).symm⟩
  have hi : i < n := by omega
  have hsame := (frameOfRun_sameUnits hin hi (frames_sameUnits h hin hi.le)).2 ch
  rw [← frames_readOut hi ch, ← frames_readOut hi ch] at hsame
  simpa only [Nat.mul_add, Nat.add_assoc] using hsame

theorem frames_sameDecoder (hinit : s'.initialized = s.initialized) (hdirty : s'.rateDirty = s.rateDirty) :
    (s'.frames n).decoder = (s.frames n).decoder := by
  obtain ⟨-, -, hinit1, hdirty1, -⟩ := frames_keeps n s
  obtain ⟨-, -, hinit2, hdirty2, -⟩ := frames_keeps n s'
  have hend := frames_sameUnits h hin le_rfl
  exact hend.decoder_eq (by rw [hinit1, hinit2, hinit]) (by rw [hdirty1, hdirty2, hdirty])

end

end

/-! ### The slots of the delay lines through the frames (R21, R133) -/

theorem nextCursor_lt {t len size c : Nat} (hc : c < size) (hlen : len ≤ size) : nextCursor t len size c < size := by
  rcases Nat.eq_zero_or_pos len with rfl | hpos
  · exact nextCursor_zero_lt (Nat.zero_lt_of_lt hc)
  · rw [nextCursor_of_pos hpos]
    exact (Nat.mod_lt _ hpos).trans_le hlen

theorem frame_slotsPresent {s : State} (h : s.slotsPresent = true) : s.frame.slotsPresent = true := by
  obtain ⟨hcursor, hlen⟩ := slotsPresent_iff.mp h
  refine slotsPresent_iff.mpr ⟨fun i => ?_, by simpa using hlen⟩
  obtain ⟨t, u, hd⟩ := frame_d s i
  rw [hd, delayPush_cursor, State.frame_params]
  exact nextCursor_lt (hcursor i) hlen

theorem frames_slotsPresent {n : Nat} {s : State} (h : s.slotsPresent = true) : (s.frames n).slotsPresent = true :=
  frames_induction (P := fun t => t.slotsPresent = true) h (fun _ _ => frame_slotsPresent) n le_rfl

/-! ### The host's input (R47) -/

theorem listedFrom_ofListFrom {α : Type} (vs : List α) (a : Nat) :
    Memory.listedFrom a vs.length (Memory.ofListFrom a vs) = true := by
  induction vs generalizing a with
  | nil => rfl
  | cons v vs ih => simp [Memory.ofListFrom, Memory.listedFrom, ih]

theorem readIn_of_ofListFrom {s : State} {vs : List Sample} (h : s.inBuf = Memory.ofListFrom 0 vs) (j : Nat) :
    s.readIn j = vs[j]?.getD 0#16 := by
  rw [State.readIn, h, ← Memory.peek_ofListFrom vs 0 j, Nat.zero_add]

/-! ### The statements -/

/-- R156: a PROCESS on buffers the host supplies anew does what the frames from `s` on do, on the same samples. -/
theorem exec_process_onNewBuffers {s : State} {b : BitVec 32} {ys : List Sample} {size : Nat}
    (hinit : s.initialized = true) (hfresh : s.rateDirty = false) (hslots : s.slotsPresent = true) (hb : 0 ≤ b.toInt)
    (hys : ys.length = 2 * b.toInt.toNat) (hsize : 6 * b.toInt.toNat ≤ size)
    (hin : ∀ j, s.readIn (2 * s.frameIdx + j) = ys[j]?.getD 0#16) :
    ∃ u, exec (.process b) ((s.accept.fillIn ys).provideOut size) = .next u ∧
      u.decoder = (s.frames b.toInt.toNat).decoder ∧
      ∀ j, j < 6 * b.toInt.toNat → (s.frames b.toInt.toNat).readOut (6 * s.frameIdx + j) = u.readOut j := by
  obtain ⟨s', hs'⟩ : ∃ s', (s.accept.fillIn ys).provideOut size = s' := ⟨_, rfl⟩
  have hfit : s'.buffersFit b.toInt.toNat = true := by
    rw [← hs', State.buffersFit, Bool.and_eq_true, decide_eq_true_eq, ← hys]
    exact ⟨listedFrom_ofListFrom ys 0, hsize⟩
  have hsame : SameUnits s (s'.atFrame 0) := by
    constructor <;> simp [← hs']
  have hsamples (j : Nat) (_ : j < 2 * b.toInt.toNat) :
      (s'.atFrame 0).readIn (2 * (s'.atFrame 0).frameIdx + j) = s.readIn (2 * s.frameIdx + j) := by
    have hin' : (s'.atFrame 0).inBuf = Memory.ofListFrom 0 ys := by simp [← hs']
    rw [hin, readIn_of_ofListFrom hin', State.atFrame_frameIdx, Nat.mul_zero, Nat.zero_add]
  have hrun := exec_process_of_ready (n := b) (s := s') (by simp [← hs', hinit]) (by simp [← hs', hfresh]) hb
  rw [runFrames_completes hfit (by rw [← hs']; exact hslots)] at hrun
  rw [hs']
  refine ⟨_, hrun, frames_sameDecoder hsame hsamples (by simp [← hs']) (by simp [← hs']), fun j hj => ?_⟩
  have hout := frames_sameOutput hsame hsamples hj
  rw [State.atFrame_frameIdx, Nat.mul_zero, Nat.zero_add] at hout
  exact hout.symm

/-- Settles O29: the longer PROCESS goes on from the frames of the first, as the second does
(`exec_process_onNewBuffers`). -/
theorem streamingSplit : Obligations.StreamingSplit := by
  intro a b c xs ys size s s1 t hinit hfresh ha hb hc hxs hys hsize hin hrunA hrunC
  obtain ⟨-, hslots, rfl⟩ := process_next_of_ready hinit hfresh ha hrunA
  obtain ⟨-, -, rfl⟩ := process_next_of_ready hinit hfresh (by omega) hrunC
  have hcount : c.toInt.toNat = a.toInt.toNat + b.toInt.toNat := by omega
  rw [hcount, frames_add]
  have hidx := processFrame_frameIdx s a.toInt.toNat
  have hread (j : Nat) : ((s.atFrame 0).frames a.toInt.toNat).readIn (2 * a.toInt.toNat + j) = ys[j]?.getD 0#16 := by
    rw [processFrame_readIn, readIn_of_ofListFrom hin, List.getElem?_append_right (by omega), hxs, Nat.add_sub_cancel_left]
  have hslots' : ((s.atFrame 0).frames a.toInt.toNat).slotsPresent = true := frames_slotsPresent hslots
  obtain ⟨-, -, hinit', hfresh', -⟩ := frames_keeps a.toInt.toNat (s.atFrame 0)
  obtain ⟨u, hrun, hdecoder, hout⟩ := exec_process_onNewBuffers (hinit'.trans hinit) (hfresh'.trans hfresh) hslots' hb
    hys hsize (by rwa [hidx])
  rw [hidx] at hout
  exact ⟨u, hrun, hdecoder, fun j hj => frames_readOut_other (.inl (by rwa [hidx])), hout⟩

/-- R143: after RESET two machines with the same parameters and rate have the same units. -/
theorem sameUnits_afterResetBody {s s' : State} (hrate : s'.sampleRate = s.sampleRate) (hparams : s'.params = s.params)
    (hdraws : s'.draws = s.draws) : SameUnits s.afterResetBody s'.afterResetBody := by
  constructor <;> simp [State.afterResetBody, hrate, hparams, hdraws]

/-- R169: a negative count is rejected. -/
theorem exec_process_of_negative {n : BitVec 32} (s : State) (hcount : n.toInt < 0) :
    exec (.process n) s = .next (s.raise .eCount) := by
  have hc : countRejected n = true := by simpa [countRejected] using hcount
  simp only [exec, execProcess, hc, if_true]

/-- Settles O30: the two runs start from the same units, on the same input; a negative count is rejected on both. -/
theorem resetErasesHistory : Obligations.ResetErasesHistory := by
  intro n s s' r r' t hrate hparams hin hsize hdraws hrate50 hr hr' hrun
  cases (exec_reset_of_rate hrate50).symm.trans hr
  cases (exec_reset_of_rate (hrate ▸ hrate50)).symm.trans hr'
  have hsame := sameUnits_afterResetBody hrate hparams hdraws
  rcases lt_or_ge n.toInt 0 with hneg | hcount
  · rw [exec_process_of_negative _ hneg] at hrun
    cases hrun
    exact ⟨_, exec_process_of_negative _ hneg, hsame.decoder_eq rfl rfl, fun j hj => by omega⟩
  · obtain ⟨hfit, hslots, rfl⟩ := process_next_of_ready rfl rfl hcount hrun
    have hstart : SameUnits (s.afterResetBody.accept.atFrame 0) (s'.afterResetBody.accept.atFrame 0) := { hsame with }
    have hsamples (j : Nat) (_ : j < 2 * n.toInt.toNat) : (s'.afterResetBody.accept.atFrame 0).readIn (2 * 0 + j) =
        (s.afterResetBody.accept.atFrame 0).readIn (2 * 0 + j) := congrArg (fun m => (Memory.peek m _).getD _) hin
    have hfit' : s'.afterResetBody.accept.buffersFit n.toInt.toNat = true := by
      simpa [State.buffersFit, State.afterResetBody, hin, hsize] using hfit
    have hslots' : s'.afterResetBody.accept.slotsPresent = true := by
      rw [slotsPresent_iff] at hslots ⊢
      simpa [hsame.d, hsame.params, hsame.delayLen] using hslots
    refine ⟨_, (exec_process_of_ready rfl rfl hcount).trans (runFrames_completes hfit' hslots'),
      frames_sameDecoder hstart hsamples rfl rfl, fun j hj => ?_⟩
    have hout := frames_sameOutput hstart hsamples hj
    rwa [State.atFrame_frameIdx, State.atFrame_frameIdx, Nat.mul_zero, Nat.zero_add] at hout

end Sys2Proof.Machine
end

section
/-! PROOFS. The exceptions (60_exceptions.md): when a command is rejected and what the rejection leaves (R167, R169 to
R171), and that no other event stops the machine within the host's buffer contract (R165, R175, U2). -/

namespace Sys2Proof.Machine

/-! ### The three rejections (R167, R170, R171) -/

/-- R69: the three ways in which a host word is illegal. -/
theorem decodeH64_of_illegal {w : CommandWord}
    (h : (opField w ≠ 0x01#8 ∧ opField w ≠ 0x02#8 ∧ opField w ≠ 0x03#8) ∨ rsvField w ≠ 0#24 ∨
      (opField w = 0x02#8 ∧ immField w ≠ 0#32)) : ∃ r, decodeH64 w = .error r := by
  by_cases hrsv : rsvField w = 0#24
  · rw [decodeH64_of_rsvField_eq hrsv]
    obtain ⟨h1, h2, h3⟩ | hset | ⟨hop, himm⟩ := h
    · exact ⟨.opcodeUnassigned, by simp [h1, h2, h3]⟩
    · exact absurd hrsv hset
    · exact ⟨.resetOperandSet, by simp [hop, himm]⟩
  · exact ⟨_, decodeH64_of_rsvField_ne hrsv⟩

section
variable {s : State}

/-- R167: a word that does not decode is rejected, its word taken. -/
theorem step_of_illegal {w : CommandWord} {rest : List HostEvent} {r : DecodeReject} (hw : s.commandPending w rest)
    (hdec : decodeH64 w = .error r) : step s = .next (({ s with port := rest } : State).raise .eOp) := by
  obtain ⟨hbus, hport⟩ := hw
  exact step_of_hostAction hbus hport (by simp only [hostAction, hdec])

/-- R170: between a SETRATE and its RESET a non-negative count is rejected. -/
theorem exec_process_of_stale {n : BitVec 32} (hcount : 0 ≤ n.toInt) (hinit : s.initialized = true)
    (hdirty : s.rateDirty = true) : exec (.process n) s = .next (s.raise .eStale) := by
  have hc : countRejected n = false := by simpa [countRejected] using hcount
  have hs : s.stale = true := by simp [State.stale, hinit, hdirty]
  simp only [exec, execProcess, hc, hs, Bool.false_eq_true, if_false, if_true]

theorem resetBody_below (hrate : s.sampleRate.toInt < 50) : s.resetBody = none :=
  resetBody_none.mpr (Bool.of_not_eq_false (mt zeroDelay_eq_false_iff.mp (not_le.mpr hrate)))

/-- R171: below 50 Hz a PROCESS due its implicit reset is rejected. -/
theorem exec_process_below {n : BitVec 32} (hrate : s.sampleRate.toInt < 50) (hinit : s.initialized = false)
    (hcount : 0 ≤ n.toInt) (hn : n ≠ 0#32 ∨ s.params.p0Resets = true) :
    exec (.process n) s = .next (s.raise .eZeroDelay) := by
  have hc : countRejected n = false := by simpa [countRejected] using hcount
  have hs : s.stale = false := by simp [State.stale, hinit]
  have hdue : ¬ (frameCount n = 0 ∧ ¬ s.params.p0Resets = true) := by
    rw [frameCount_eq_zero_iff hcount]
    tauto
  simp only [exec, execProcess, hc, hs, hinit, hdue, resetBody_below hrate, Bool.false_eq_true, if_false]

/-! ### Within the buffer contract nothing stops (R175, U2) -/

/-- R15, R21: the invariants put both cursors inside their arrays. -/
theorem State.Inv.slotsPresent (h : s.Inv) : s.slotsPresent = true :=
  slotsPresent_iff.mpr ⟨h.cursorInArray, h.delayBounded⟩

/-- Where PROCESS runs frames, the implicit reset included, they start from the same buffers and with their slots present. -/
theorem exec_process_answers {n : BitVec 32} (h : s.Inv)
    (hfit : 0 ≤ n.toInt → s.buffersFit n.toInt.toNat = true) : ∃ t, exec (.process n) s = .next t := by
  have hsupplied (hc : countRejected n = false) : s.buffersFit (frameCount n) = true :=
    hfit (by simpa [countRejected] using hc)
  obtain ⟨-, hx⟩ | ⟨-, -, hx⟩ | ⟨hc, -, -, hx⟩ | ⟨-, -, -, -, hx⟩ | ⟨-, -, -, -, hx⟩ | ⟨hc, -, -, r, hr, hx⟩ :=
    execProcess_cases n s
  case inr.inr.inl => exact ⟨_, hx.trans (runFrames_completes (hsupplied hc) h.slotsPresent)⟩
  case inr.inr.inr.inr.inr =>
    obtain ⟨hz, rfl⟩ := resetBody_eq_some_iff.mp hr
    exact ⟨_, hx.trans (runFrames_completes (hsupplied hc) (afterResetBody_inv hz h).slotsPresent)⟩
  all_goals exact ⟨_, hx⟩

theorem exec_command_answers {i : Instr} (h : s.Inv) (hi : i.isHostCommand = true)
    (hfit : ∀ n, i = .process n → 0 ≤ n.toInt → s.buffersFit n.toInt.toNat = true) : ∃ t, exec i s = .next t := by
  cases i with
  | setrate rate => obtain ⟨-, hx⟩ | ⟨-, hx⟩ := execSetrate_cases rate s <;> exact ⟨_, hx⟩
  | reset => obtain ⟨-, hx⟩ | ⟨r, -, hx⟩ := execReset_cases s <;> exact ⟨_, hx⟩
  | process n => exact exec_process_answers h (hfit n rfl)
  | _ => cases hi

end

/-! ### The statements -/

/-- Settles O13: the unit bus is idle, so the step is one of the host's actions, or a command, which answers within the
contract (`exec_command_answers`). -/
theorem nothingStopsWithinTheContract : Obligations.NothingStopsWithinTheContract := by
  intro s h hfit
  cases hport : s.port with
  | nil => exact ⟨_, step_of_idle h.busIdle hport⟩
  | cons e rest =>
    cases e with
    | fillIn vals | provideOut size | hardwareReset => exact ⟨_, step_of_hostAction h.busIdle hport rfl⟩
    | command w =>
      have hw : s.commandPending w rest := ⟨h.busIdle, hport⟩
      cases hdec : decodeH64 w with
      | error r => exact ⟨_, step_of_illegal hw hdec⟩
      | ok i =>
        rw [step_of_command hw hdec]
        exact exec_command_answers (withPort_inv rest h) (isHostCommand_of_decodeH64 hdec)
          fun n hi hcount => hfit w rest n hw (hi ▸ hdec) hcount

/-- Settles O8: the word does not decode, so the step is `raise .eOp`; the unit bus it empties is empty already. -/
theorem illegalWordRaisesEOp : Obligations.IllegalWordRaisesEOp := by
  intro s w rest hw hillegal
  obtain ⟨r, hdec⟩ := decodeH64_of_illegal hillegal
  have hstep := step_of_illegal hw hdec
  obtain ⟨hbus, -⟩ := hw
  rw [hstep, State.raise, ← hbus]
  rfl

/-- Settles O17: RESET and the implicit reset raise the same exception. -/
theorem zeroDelayRejected : Obligations.ZeroDelayRejected := fun _ hrate =>
  ⟨exec_reset_below hrate, fun _ => exec_process_below hrate⟩

/-- Settles O18: the two checks of PROCESS before any effect. -/
theorem negativeOrStaleProcessRejected : Obligations.NegativeOrStaleProcessRejected := fun _ s =>
  ⟨exec_process_of_negative s, exec_process_of_stale⟩

end Sys2Proof.Machine
end
